-- ==== Sys2Proof/Word.lean ====
section
/-! DEFINITION. The one width the block moves: a byte (20_memory.md R67, R70). -/

namespace Sys2Proof

/-- Every datum and every memory element of the block is a single byte (R67). -/
abbrev Byte := BitVec 8

/-- `zext_8(d)`: a one-bit level widened to a byte (00_scope.md R10). -/
def Byte.ofLevel (d : Bool) : Byte := (BitVec.ofBool d).setWidth 8

end Sys2Proof
end

