-- ==== Sys2Proof/Config.lean ====
section
/-! DEFINITION. The parameters of 00_scope.md R8, the protocol bytes, and the free values of the power-on state. -/

namespace Sys2Proof

/-- `DROP_POLICY` (R8, 90_conflicts.md C7): what a dropped response leaves behind. -/
inductive DropPolicy where
  | stall
  | abandon
deriving DecidableEq, Repr, Inhabited

/-- The two states of the status LED (10_state.md R41). -/
inductive LedState where
  | on
  | off
deriving DecidableEq, Repr, Inhabited

/-- The parameters of the step relation that 00_scope.md R8 marks OPEN, with `DROP_POLICY`.
They are held in `State.params` and no step changes them, so a claim about every state is a claim about
every admissible block (DESIGN CHOICE, log entry 1). -/
structure Params where
  /-- `CMD_RESET`. -/
  cmdReset : Byte
  /-- `CMD_SET_LED`. -/
  cmdSetLed : Byte
  /-- `MAX_CODE`, the highest code of "the table's valid range" (90_conflicts.md C1). -/
  maxCode : Byte
  /-- `HID_TABLE` (20_memory.md R62) as cells: (code, ext) stands at address code + 256 * ext, an address
  that is not listed holds 0 (log entry 21). -/
  hidTable : List Host.Cell
  /-- `MODIFIER_SET` (R65), a list of pairs (code, extended) with no repeats. -/
  modifierSet : List (Byte × Bool)
  /-- `CAP`, the ring buffer's capacity in bytes. -/
  cap : Nat
  /-- `DROP_POLICY`. -/
  dropPolicy : DropPolicy
  /-- `T_INHIBIT_US`; no rule depends on it (70_reset_and_hazards.md R270). -/
  tInhibitUs : Nat
deriving DecidableEq, Repr, Inhabited

/-- `BYTE_ACK` (R8). -/
def Config.byteAck : Byte := 0xFA
/-- `BYTE_BAT`, self-test-passed (R8). -/
def Config.byteBat : Byte := 0xAA
/-- `BYTE_BREAK`, the break prefix (R8). -/
def Config.byteBreak : Byte := 0xF0
/-- `BYTE_EXT`, the extended prefix (R8). -/
def Config.byteExt : Byte := 0xE0
/-- `CMD_RESEND`, the resend request (R8). -/
def Config.cmdResend : Byte := 0xFE
/-- The default of `MAX_CODE` (R8, 92_eei_decisions.md D6; not in the source). PRESUMED, log entry 1. -/
def Config.defaultMaxCode : Byte := 0x83

/-- What `status_led` holds after the n-th power-on reset of a run: the spec gives no value and asks for a free
draw (10_state.md R41, D30, U7). Nothing constrains it (log entry 2). -/
opaque Config.freeStatusLed : Nat → LedState

/-- What the byte at an address of `ring_mem` holds that nothing has written since the n-th draw: "any value"
(10_state.md R42, 93_implementation_defined.md U6). Nothing constrains it (log entry 3). -/
opaque Config.freeRingByte : Nat → Nat → Byte

end Sys2Proof
end

