-- ==== Sys2Proof/Syntax.lean ====
section
/-! DEFINITION. The syntax: one constructor of `Instr` for each row of spec/opcode_table.json, and the words
(selectors) that stand for them. -/

namespace Sys2Proof

/-- The three operations `SeqStart` can start (42_control_sequencer.md R152). -/
inductive StartOp where
  | ledChange
  | reset
  | resend
deriving DecidableEq, Repr

/-- One constructor per row of spec/opcode_table.json. -/
inductive Instr where
  -- RX edge operations (40_rx_decoder.md R111 to R114); d is the sampled DATA level
  | rxStart (d : Bool)
  | rxData1 (d : Bool)
  | rxData2 (d : Bool)
  | rxData3 (d : Bool)
  | rxData4 (d : Bool)
  | rxData5 (d : Bool)
  | rxData6 (d : Bool)
  | rxData7 (d : Bool)
  | rxData8 (d : Bool)
  | rxParity (d : Bool)
  | rxStop (d : Bool)
  -- TX edge operations (41_tx_encoder.md R132 to R135)
  | txData0 (d : Bool)
  | txData1 (d : Bool)
  | txData2 (d : Bool)
  | txData3 (d : Bool)
  | txData4 (d : Bool)
  | txData5 (d : Bool)
  | txData6 (d : Bool)
  | txData7 (d : Bool)
  | txParity (d : Bool)
  | txStop (d : Bool)
  | txDone (d : Bool)
  -- stop-slot branches (R115 to R117); the byte is rx_acc
  | dispatchResend
  | dispatchResponse
  | dispatchQueue
  -- sequencer transitions (42_control_sequencer.md R156 to R161)
  | seqResetAck
  | seqDropReset0
  | seqResetBat
  | seqResetFatal
  | seqLedAck1
  | seqDropLed0
  | seqLedAck2
  | seqDropLed1
  | seqDropIdleAck
  | seqDropIdleBat
  | seqDropResend (b : Byte)
  -- translator steps (44_translator.md R191 to R194)
  | xlWait
  | xlRead1
  | xlRead2
  | xlRead3
  -- host calls (45_host_operations.md R210, R211)
  | init
  | changeLed (m : Byte)
  -- procedures (30_encoding.md R102)
  | txStart (b : Byte)
  | releaseToReceive
  | seqStart (op : StartOp)
  | idleOpportunity
  | seqResponse (b : Byte)
  | ringWrite (b : Byte)
  | ringRead
  | emit (code : Byte)
  | hidLookup (code : Byte) (ext : Bool)
  | isModifier (code : Byte) (ext : Bool)
  | ledXlate (m : Byte)
  -- data formats (30_encoding.md R80, R84, R86, R87, R88, R89, R92)
  | frameD2H (start : Bool) (data : Byte) (parity stop : Bool)
  | frameH2D (data : Byte) (parity release ack : Bool)
  | byteAck
  | byteBat
  | byteBreak
  | byteExt
  | cmdResend
  | cmdReset
  | cmdSetLed
  | byteScan (b : Byte)
  | byteOutOfRange (b : Byte)
  | ledMaskHid (m : Byte)
  | ledMaskPs2 (caps num scroll : Bool)
  | eventFlags (brk mod key : Bool)
deriving DecidableEq, Repr

/-- The rows of the table that have no bit encoding: the name selects them (30_encoding.md R101, R102). -/
inductive Proc where
  | init
  | changeLed
  | txStart
  | releaseToReceive
  | seqStart
  | idleOpportunity
  | seqResponse
  | ringWrite
  | ringRead
  | emit
  | hidLookup
  | isModifier
  | ledXlate
deriving DecidableEq, Repr

/-- The "format" column of the table: the bits of a row mean something only within its format. -/
inductive Space where
  /-- `{mode[0], cnt[3:0]}`, R98. -/
  | edge
  /-- `{rx_resend, is_response}`, R99. -/
  | dispatch
  /-- `{seq_op[1:0], seq_step, b[7:0]}`, R100. -/
  | response
  /-- `{t_phase[2:0]}`, R101. -/
  | translator
  /-- No bits; R101, R102. -/
  | proc (p : Proc)
  /-- Device-to-host frame F[10..0], R80. -/
  | frameD2H
  /-- Host-to-device slots 10..0, R84. -/
  | frameH2D
  /-- A protocol byte with a fixed value, R86, R87. -/
  | byteValue
  /-- A received byte told by its class, R86. -/
  | byteClass
  /-- USB-HID-order LED mask, R88. -/
  | ledMaskHid
  /-- PS/2-order LED mask, R89. -/
  | ledMaskPs2
  /-- The event-flag byte, R92. -/
  | eventFlags
deriving DecidableEq, Repr

/-- What the context supplies beside the selector: the table's "operand" column and the arguments of the
procedures. The spec gives it no bits (log entry 10). -/
inductive Operand where
  | none
  | level (d : Bool)
  | byte (b : Byte)
  | coded (code : Byte) (ext : Bool)
  | op (o : StartOp)
deriving DecidableEq, Repr

/-- A word of the opcode table: its format, its bits (bit 0 least significant) and its operand. -/
structure TableWord where
  space : Space
  bits : BitVec 16
  operand : Operand
deriving DecidableEq, Repr

/-- Why a word stands for no instruction. -/
inductive DecodeError where
  /-- The bits match no row of the format (selectors 11 to 15 of R98, phase 0 and 5 to 7 of R101, a
  (seq_op, seq_step, b) that R100 does not list, a bit above the row's width). -/
  | reservedSelector
  /-- The operand is not of the row's kind, or not one the rule admits. -/
  | wrongOperand
  /-- EVENTFLAGS with both or neither of KeyChange and ModifierChange (R92). -/
  | badEventKind
deriving DecidableEq, Repr

end Sys2Proof
end

