-- ==== Sys2Proof/WellFormed.lean ====
section
/-! DEFINITION. The static checks on an instruction. -/

namespace Sys2Proof

/-- A response byte: `BYTE_ACK` or `BYTE_BAT` (00_scope.md R12). -/
abbrev Byte.isResponse (b : Byte) : Bool := b == Config.byteAck || b == Config.byteBat

/-- A prefix byte: `BYTE_BREAK` or `BYTE_EXT` (R12). -/
abbrev Byte.isPrefix (b : Byte) : Bool := b == Config.byteBreak || b == Config.byteExt

/-- One of the four bytes that the range check lets through (40_rx_decoder.md R113). -/
abbrev Byte.isExcepted (b : Byte) : Bool := b.isResponse || b.isPrefix

/-- The static checks, with `maxCode` = `MAX_CODE`: `SeqResponse` takes a response byte (42_control_sequencer.md R154);
BYTE.SCAN and BYTE.OUT_OF_RANGE hold a byte of their class (30_encoding.md R86); EVENTFLAGS has exactly one of
KeyChange and ModifierChange (R92). Every other row admits all its operands. -/
def Instr.wf (maxCode : Byte) : Instr → Bool
  | .seqResponse b => b.isResponse
  | .byteScan b => !b.isExcepted && b ≤ maxCode
  | .byteOutOfRange b => !b.isExcepted && b > maxCode
  | .eventFlags _ mod key => mod ^^ key
  | .rxStart _ | .rxData1 _ | .rxData2 _ | .rxData3 _ | .rxData4 _ | .rxData5 _ | .rxData6 _ | .rxData7 _
  | .rxData8 _ | .rxParity _ | .rxStop _ => true
  | .txData0 _ | .txData1 _ | .txData2 _ | .txData3 _ | .txData4 _ | .txData5 _ | .txData6 _ | .txData7 _
  | .txParity _ | .txStop _ | .txDone _ => true
  | .dispatchResend | .dispatchResponse | .dispatchQueue => true
  | .seqResetAck | .seqDropReset0 | .seqResetBat | .seqResetFatal | .seqLedAck1 | .seqDropLed0 | .seqLedAck2
  | .seqDropLed1 | .seqDropIdleAck | .seqDropIdleBat | .seqDropResend _ => true
  | .xlWait | .xlRead1 | .xlRead2 | .xlRead3 => true
  | .init | .changeLed _ => true
  | .txStart _ | .releaseToReceive | .seqStart _ | .idleOpportunity | .ringWrite _ | .ringRead | .emit _
  | .hidLookup _ _ | .isModifier _ _ | .ledXlate _ => true
  | .frameD2H _ _ _ _ | .frameH2D _ _ _ _ => true
  | .byteAck | .byteBat | .byteBreak | .byteExt | .cmdResend | .cmdReset | .cmdSetLed => true
  | .ledMaskHid _ | .ledMaskPs2 _ _ _ => true

end Sys2Proof
end

