-- ==== Sys2Proof/Decode.lean ====
section
/-! DEFINITION. From a word of the opcode table to the instruction it stands for, total, rejecting by name; then
the encoder. -/

namespace Sys2Proof

/-- The edge operations by their selector `{mode, cnt}` (30_encoding.md R98). -/
def decodeEdge (sel : Nat) (d : Bool) : Except DecodeError Instr :=
  match sel with
  | 0x00 => .ok (.rxStart d)
  | 0x01 => .ok (.rxData1 d)
  | 0x02 => .ok (.rxData2 d)
  | 0x03 => .ok (.rxData3 d)
  | 0x04 => .ok (.rxData4 d)
  | 0x05 => .ok (.rxData5 d)
  | 0x06 => .ok (.rxData6 d)
  | 0x07 => .ok (.rxData7 d)
  | 0x08 => .ok (.rxData8 d)
  | 0x09 => .ok (.rxParity d)
  | 0x0A => .ok (.rxStop d)
  | 0x10 => .ok (.txData0 d)
  | 0x11 => .ok (.txData1 d)
  | 0x12 => .ok (.txData2 d)
  | 0x13 => .ok (.txData3 d)
  | 0x14 => .ok (.txData4 d)
  | 0x15 => .ok (.txData5 d)
  | 0x16 => .ok (.txData6 d)
  | 0x17 => .ok (.txData7 d)
  | 0x18 => .ok (.txParity d)
  | 0x19 => .ok (.txStop d)
  | 0x1A => .ok (.txDone d)
  | _ => .error .reservedSelector

/-- The stop-slot branches by `{rx_resend, is_response}`: `1x`, `01`, `00` (R99). -/
def decodeDispatch (sel : Nat) : Except DecodeError Instr :=
  match sel with
  | 0 => .ok .dispatchQueue
  | 1 => .ok .dispatchResponse
  | 2 => .ok .dispatchResend
  | 3 => .ok .dispatchResend
  | _ => .error .reservedSelector

/-- The sequencer transitions by `{seq_op, seq_step, b}`, enumerations as in R96 (R100). -/
def decodeResponse (bits : BitVec 16) : Except DecodeError Instr :=
  if bits = 0x4FA then .ok .seqResetAck
  else if bits = 0x4AA then .ok .seqDropReset0
  else if bits = 0x5AA then .ok .seqResetBat
  else if bits = 0x5FA then .ok .seqResetFatal
  else if bits = 0x2FA then .ok .seqLedAck1
  else if bits = 0x2AA then .ok .seqDropLed0
  else if bits = 0x3FA then .ok .seqLedAck2
  else if bits = 0x3AA then .ok .seqDropLed1
  else if bits = 0x0FA then .ok .seqDropIdleAck
  else if bits = 0x0AA then .ok .seqDropIdleBat
  else if bits.extractLsb' 8 8 = 0x06 then .ok (.seqDropResend (bits.extractLsb' 0 8))
  else .error .reservedSelector

/-- The translator steps by `t_phase`, numbered as in R96 (R101). -/
def decodeTranslator (sel : Nat) : Except DecodeError Instr :=
  match sel with
  | 1 => .ok .xlWait
  | 2 => .ok .xlRead1
  | 3 => .ok .xlRead2
  | 4 => .ok .xlRead3
  | _ => .error .reservedSelector

/-- The rows with no bits: a host call or procedure and its argument (R101, R102). -/
def decodeProc (p : Proc) (o : Operand) : Except DecodeError Instr :=
  match p, o with
  | .init, .none => .ok .init
  | .changeLed, .byte m => .ok (.changeLed m)
  | .txStart, .byte b => .ok (.txStart b)
  | .releaseToReceive, .none => .ok .releaseToReceive
  | .seqStart, .op op => .ok (.seqStart op)
  | .idleOpportunity, .none => .ok .idleOpportunity
  | .seqResponse, .byte b => if b.isResponse then .ok (.seqResponse b) else .error .wrongOperand
  | .ringWrite, .byte b => .ok (.ringWrite b)
  | .ringRead, .none => .ok .ringRead
  | .emit, .byte c => .ok (.emit c)
  | .hidLookup, .coded c e => .ok (.hidLookup c e)
  | .isModifier, .coded c e => .ok (.isModifier c e)
  | .ledXlate, .byte m => .ok (.ledXlate m)
  | _, _ => .error .wrongOperand

/-- The protocol bytes with a value of their own (R86, R87). For CMD.RESET and CMD.SET_LED the table shows the
default of the open parameter, and that pattern is the row's word (log entry 27). -/
def decodeByteValue (bits : BitVec 16) : Except DecodeError Instr :=
  if bits = 0xFA then .ok .byteAck
  else if bits = 0xAA then .ok .byteBat
  else if bits = 0xF0 then .ok .byteBreak
  else if bits = 0xE0 then .ok .byteExt
  else if bits = 0xFE then .ok .cmdResend
  else if bits = 0xFF then .ok .cmdReset
  else if bits = 0xED then .ok .cmdSetLed
  else .error .reservedSelector

/-- The two received-byte classes that are ranges (R86), with `maxCode` = `MAX_CODE`. -/
def decodeByteClass (maxCode b : Byte) : Except DecodeError Instr :=
  if b.isExcepted then .error .reservedSelector
  else if b ≤ maxCode then .ok (.byteScan b)
  else .ok (.byteOutOfRange b)

/-- The 11 bits of a device-to-host frame, F[10] first (R80). -/
def frameD2HBits (start : Bool) (data : Byte) (parity stop : Bool) : BitVec 11 :=
  BitVec.ofBool stop ++ BitVec.ofBool parity ++ data ++ BitVec.ofBool start

/-- The 11 slots of a host-to-device frame, slot 10 first (R84). -/
def frameH2DBits (data : Byte) (parity release ack : Bool) : BitVec 11 :=
  BitVec.ofBool ack ++ BitVec.ofBool release ++ BitVec.ofBool parity ++ data

/-- The decoder: the format says which table is read, and a row without an operand admits none. Every 11-bit word
is a device-to-host frame the block takes; a start slot of 1 is a soft error of reception (R83, R95 (c)), no
reserved encoding. -/
def decode (maxCode : Byte) (w : TableWord) : Except DecodeError Instr :=
  match w.space, w.operand with
  | .edge, .level d => decodeEdge w.bits.toNat d
  | .dispatch, .none => decodeDispatch w.bits.toNat
  | .response, .none => decodeResponse w.bits
  | .translator, .none => decodeTranslator w.bits.toNat
  | .proc p, o => if w.bits = 0 then decodeProc p o else .error .reservedSelector
  | .frameD2H, .none =>
    if w.bits.extractLsb' 11 5 = 0 then
      .ok (.frameD2H (w.bits.getLsbD 0) (w.bits.extractLsb' 1 8) (w.bits.getLsbD 9) (w.bits.getLsbD 10))
    else .error .reservedSelector
  | .frameH2D, .none =>
    if w.bits.extractLsb' 11 5 = 0 then
      .ok (.frameH2D (w.bits.extractLsb' 0 8) (w.bits.getLsbD 8) (w.bits.getLsbD 9) (w.bits.getLsbD 10))
    else .error .reservedSelector
  | .byteValue, .none => decodeByteValue w.bits
  | .byteClass, .none =>
    if w.bits.extractLsb' 8 8 = 0 then decodeByteClass maxCode (w.bits.extractLsb' 0 8) else .error .reservedSelector
  | .ledMaskHid, .none =>
    if w.bits.extractLsb' 8 8 = 0 then .ok (.ledMaskHid (w.bits.extractLsb' 0 8)) else .error .reservedSelector
  | .ledMaskPs2, .none =>
    if w.bits.extractLsb' 3 13 = 0 then .ok (.ledMaskPs2 (w.bits.getLsbD 2) (w.bits.getLsbD 1) (w.bits.getLsbD 0))
    else .error .reservedSelector
  | .eventFlags, .none =>
    if w.bits.extractLsb' 3 13 = 0 then
      if w.bits.getLsbD 1 ^^ w.bits.getLsbD 0 then
        .ok (.eventFlags (w.bits.getLsbD 2) (w.bits.getLsbD 1) (w.bits.getLsbD 0))
      else .error .badEventKind
    else .error .reservedSelector
  | _, _ => .error .wrongOperand

/-- The byte `00000xyz`. -/
def threeBits (x y z : Bool) : BitVec 16 := (BitVec.ofBool x ++ BitVec.ofBool y ++ BitVec.ofBool z).setWidth 16

/-- The encoder: the word of each row, written from the tables of 30_encoding.md (R80, R84, R86 to R89, R92, R98 to R102). -/
def encode : Instr → TableWord
  | .rxStart d => ⟨.edge, 0x00, .level d⟩
  | .rxData1 d => ⟨.edge, 0x01, .level d⟩
  | .rxData2 d => ⟨.edge, 0x02, .level d⟩
  | .rxData3 d => ⟨.edge, 0x03, .level d⟩
  | .rxData4 d => ⟨.edge, 0x04, .level d⟩
  | .rxData5 d => ⟨.edge, 0x05, .level d⟩
  | .rxData6 d => ⟨.edge, 0x06, .level d⟩
  | .rxData7 d => ⟨.edge, 0x07, .level d⟩
  | .rxData8 d => ⟨.edge, 0x08, .level d⟩
  | .rxParity d => ⟨.edge, 0x09, .level d⟩
  | .rxStop d => ⟨.edge, 0x0A, .level d⟩
  | .txData0 d => ⟨.edge, 0x10, .level d⟩
  | .txData1 d => ⟨.edge, 0x11, .level d⟩
  | .txData2 d => ⟨.edge, 0x12, .level d⟩
  | .txData3 d => ⟨.edge, 0x13, .level d⟩
  | .txData4 d => ⟨.edge, 0x14, .level d⟩
  | .txData5 d => ⟨.edge, 0x15, .level d⟩
  | .txData6 d => ⟨.edge, 0x16, .level d⟩
  | .txData7 d => ⟨.edge, 0x17, .level d⟩
  | .txParity d => ⟨.edge, 0x18, .level d⟩
  | .txStop d => ⟨.edge, 0x19, .level d⟩
  | .txDone d => ⟨.edge, 0x1A, .level d⟩
  | .dispatchResend => ⟨.dispatch, 2, .none⟩
  | .dispatchResponse => ⟨.dispatch, 1, .none⟩
  | .dispatchQueue => ⟨.dispatch, 0, .none⟩
  | .seqResetAck => ⟨.response, 0x4FA, .none⟩
  | .seqDropReset0 => ⟨.response, 0x4AA, .none⟩
  | .seqResetBat => ⟨.response, 0x5AA, .none⟩
  | .seqResetFatal => ⟨.response, 0x5FA, .none⟩
  | .seqLedAck1 => ⟨.response, 0x2FA, .none⟩
  | .seqDropLed0 => ⟨.response, 0x2AA, .none⟩
  | .seqLedAck2 => ⟨.response, 0x3FA, .none⟩
  | .seqDropLed1 => ⟨.response, 0x3AA, .none⟩
  | .seqDropIdleAck => ⟨.response, 0x0FA, .none⟩
  | .seqDropIdleBat => ⟨.response, 0x0AA, .none⟩
  | .seqDropResend b => ⟨.response, (0x06 : Byte) ++ b, .none⟩
  | .xlWait => ⟨.translator, 1, .none⟩
  | .xlRead1 => ⟨.translator, 2, .none⟩
  | .xlRead2 => ⟨.translator, 3, .none⟩
  | .xlRead3 => ⟨.translator, 4, .none⟩
  | .init => ⟨.proc .init, 0, .none⟩
  | .changeLed m => ⟨.proc .changeLed, 0, .byte m⟩
  | .txStart b => ⟨.proc .txStart, 0, .byte b⟩
  | .releaseToReceive => ⟨.proc .releaseToReceive, 0, .none⟩
  | .seqStart op => ⟨.proc .seqStart, 0, .op op⟩
  | .idleOpportunity => ⟨.proc .idleOpportunity, 0, .none⟩
  | .seqResponse b => ⟨.proc .seqResponse, 0, .byte b⟩
  | .ringWrite b => ⟨.proc .ringWrite, 0, .byte b⟩
  | .ringRead => ⟨.proc .ringRead, 0, .none⟩
  | .emit c => ⟨.proc .emit, 0, .byte c⟩
  | .hidLookup c e => ⟨.proc .hidLookup, 0, .coded c e⟩
  | .isModifier c e => ⟨.proc .isModifier, 0, .coded c e⟩
  | .ledXlate m => ⟨.proc .ledXlate, 0, .byte m⟩
  | .frameD2H st b p sp => ⟨.frameD2H, (frameD2HBits st b p sp).setWidth 16, .none⟩
  | .frameH2D b p r a => ⟨.frameH2D, (frameH2DBits b p r a).setWidth 16, .none⟩
  | .byteAck => ⟨.byteValue, 0xFA, .none⟩
  | .byteBat => ⟨.byteValue, 0xAA, .none⟩
  | .byteBreak => ⟨.byteValue, 0xF0, .none⟩
  | .byteExt => ⟨.byteValue, 0xE0, .none⟩
  | .cmdResend => ⟨.byteValue, 0xFE, .none⟩
  | .cmdReset => ⟨.byteValue, 0xFF, .none⟩
  | .cmdSetLed => ⟨.byteValue, 0xED, .none⟩
  | .byteScan b => ⟨.byteClass, b.setWidth 16, .none⟩
  | .byteOutOfRange b => ⟨.byteClass, b.setWidth 16, .none⟩
  | .ledMaskHid m => ⟨.ledMaskHid, m.setWidth 16, .none⟩
  | .ledMaskPs2 c n s => ⟨.ledMaskPs2, threeBits c n s, .none⟩
  | .eventFlags b m k => ⟨.eventFlags, threeBits b m k, .none⟩

/-- The operand of zeros that stands beside a bare selector of a format. -/
def zeroOperand : Space → Operand
  | .edge => .level false
  | .dispatch | .response | .translator | .frameD2H | .frameH2D | .byteValue | .byteClass | .ledMaskHid | .ledMaskPs2
  | .eventFlags => .none
  | .proc .changeLed | .proc .txStart | .proc .seqResponse | .proc .ringWrite | .proc .emit | .proc .ledXlate => .byte 0
  | .proc .hidLookup | .proc .isModifier => .coded 0 false
  | .proc .seqStart => .op .ledChange
  | .proc .init | .proc .releaseToReceive | .proc .idleOpportunity | .proc .ringRead => .none

/-- The formats a bare word of `nbits` bits can belong to, in the order they are tried. The table's formats share
their bits (RX.DATA1, DISPATCH.RESPONSE and XL.WAIT are all the word 1), so a bare word does not always tell its row;
the order is a DESIGN CHOICE (log entry 10). -/
def tableSpaces (nbits w : Nat) : List Space :=
  match nbits with
  | 0 => [.proc .init]
  | 2 => [.dispatch]
  | 3 => [.translator]
  | 5 => [.edge]
  | 8 => [.edge, .byteValue, .byteClass]
  | 11 | 16 => if w % 2 = 0 then [.response, .frameD2H] else [.response, .frameH2D]
  | _ => []

/-- The table word that a bare word of `nbits` bits stands for, where it stands for one. -/
def tableWordOf (nbits w : Nat) : Option TableWord :=
  if w < 2 ^ 16 then
    ((tableSpaces nbits w).map fun sp => (⟨sp, BitVec.ofNat 16 w, zeroOperand sp⟩ : TableWord)).find? fun tw =>
      (decode Config.defaultMaxCode tw).toOption.isSome
  else none

/-- The instruction the decoder reads from a bare word of the opcode table, `MAX_CODE` at its default. -/
def decodeTableWord (nbits w : Nat) : Option Instr :=
  (tableWordOf nbits w).bind fun tw => (decode Config.defaultMaxCode tw).toOption

end Sys2Proof
end

