-- ==== Sys2Proof/Machine/Tables.lean ====
section
/-! DEFINITION. The default parameters of 93_implementation_defined.md section 3 and 00_scope.md R8: what State.reset
holds in `params`. None of it is normative and no statement rests on it (PRESUMED and DESIGN CHOICE, log entry 1). -/

namespace Sys2Proof.Machine

/-- Where the pair (code, ext) stands in the HID-table space (20_memory.md R60, log entry 21). -/
def hidAddress (code : Byte) (ext : Bool) : Nat := code.toNat + (if ext then 256 else 0)

/-- Unprefixed codes: F9, F5, F3, F1, F2, F12, F10, F8, F6, F4. -/
def defaultPlain1 : List Host.Cell :=
  [(0x001, 0x42), (0x003, 0x3E), (0x004, 0x3C), (0x005, 0x3A), (0x006, 0x3B),
   (0x007, 0x45), (0x009, 0x43), (0x00A, 0x41), (0x00B, 0x3F), (0x00C, 0x3D)]

/-- Unprefixed codes: Tab, Grave, LeftAlt, LeftShift, LeftCtrl, Q, 1, Z, S, A. -/
def defaultPlain2 : List Host.Cell :=
  [(0x00D, 0x2B), (0x00E, 0x35), (0x011, 0x04), (0x012, 0x02), (0x014, 0x01),
   (0x015, 0x14), (0x016, 0x1E), (0x01A, 0x1D), (0x01B, 0x16), (0x01C, 0x04)]

/-- Unprefixed codes: W, 2, C, X, D, E, 4, 3, Space, V. -/
def defaultPlain3 : List Host.Cell :=
  [(0x01D, 0x1A), (0x01E, 0x1F), (0x021, 0x06), (0x022, 0x1B), (0x023, 0x07),
   (0x024, 0x08), (0x025, 0x21), (0x026, 0x20), (0x029, 0x2C), (0x02A, 0x19)]

/-- Unprefixed codes: F, T, R, 5, N, B, H, G, Y, 6. -/
def defaultPlain4 : List Host.Cell :=
  [(0x02B, 0x09), (0x02C, 0x17), (0x02D, 0x15), (0x02E, 0x22), (0x031, 0x11),
   (0x032, 0x05), (0x033, 0x0B), (0x034, 0x0A), (0x035, 0x1C), (0x036, 0x23)]

/-- Unprefixed codes: M, J, U, 7, 8, Comma, K, I, O, 0. -/
def defaultPlain5 : List Host.Cell :=
  [(0x03A, 0x10), (0x03B, 0x0D), (0x03C, 0x18), (0x03D, 0x24), (0x03E, 0x25),
   (0x041, 0x36), (0x042, 0x0E), (0x043, 0x0C), (0x044, 0x12), (0x045, 0x27)]

/-- Unprefixed codes: 9, Period, Slash, L, Semicolon, P, Minus, Quote, LeftBracket, Equal. -/
def defaultPlain6 : List Host.Cell :=
  [(0x046, 0x26), (0x049, 0x37), (0x04A, 0x38), (0x04B, 0x0F), (0x04C, 0x33),
   (0x04D, 0x13), (0x04E, 0x2D), (0x052, 0x34), (0x054, 0x2F), (0x055, 0x2E)]

/-- Unprefixed codes: CapsLock, RightShift, Enter, RightBracket, Backslash, Backspace, KP1, KP4, KP7, KP0. -/
def defaultPlain7 : List Host.Cell :=
  [(0x058, 0x39), (0x059, 0x20), (0x05A, 0x28), (0x05B, 0x30), (0x05D, 0x31),
   (0x066, 0x2A), (0x069, 0x59), (0x06B, 0x5C), (0x06C, 0x5F), (0x070, 0x62)]

/-- Unprefixed codes: KP., KP2, KP5, KP6, KP8, Esc, NumLock, F11, KP+, KP3. -/
def defaultPlain8 : List Host.Cell :=
  [(0x071, 0x63), (0x072, 0x5A), (0x073, 0x5D), (0x074, 0x5E), (0x075, 0x60),
   (0x076, 0x29), (0x077, 0x53), (0x078, 0x44), (0x079, 0x57), (0x07A, 0x5B)]

/-- Unprefixed codes: KP-, KP*, KP9, ScrollLock, F7. -/
def defaultPlain9 : List Host.Cell :=
  [(0x07B, 0x56), (0x07C, 0x55), (0x07D, 0x61), (0x07E, 0x47), (0x083, 0x40)]

/-- Extended codes: RightAlt, RightCtrl, LeftGUI, RightGUI, Apps, KP/, KPEnter, End, Left, Home. -/
def defaultExt1 : List Host.Cell :=
  [(0x111, 0x40), (0x114, 0x10), (0x11F, 0x08), (0x127, 0x80), (0x12F, 0x65),
   (0x14A, 0x54), (0x15A, 0x58), (0x169, 0x4D), (0x16B, 0x50), (0x16C, 0x4A)]

/-- Extended codes: Insert, Delete, Down, Right, Up, PageDown, PageUp. -/
def defaultExt2 : List Host.Cell :=
  [(0x170, 0x49), (0x171, 0x4C), (0x172, 0x51), (0x174, 0x4F), (0x175, 0x52),
   (0x17A, 0x4E), (0x17D, 0x4B)]

/-- The default `HID_TABLE` of 93_implementation_defined.md section 3, in rising address order. -/
def defaultHidTable : List Host.Cell :=
  defaultPlain1 ++ defaultPlain2 ++ defaultPlain3 ++ defaultPlain4 ++ defaultPlain5 ++ defaultPlain6 ++ defaultPlain7 ++ defaultPlain8 ++ defaultPlain9 ++ defaultExt1 ++ defaultExt2

/-- The default `MODIFIER_SET` (20_memory.md R66): left and right alt, left shift, left and right ctrl, left and right
GUI, right shift. -/
def defaultModifierSet : List (Byte × Bool) :=
  [(0x11, false), (0x11, true), (0x12, false), (0x14, false), (0x14, true), (0x1F, true), (0x27, true), (0x59, false)]

/-- The parameters of State.reset: R8's defaults, `CAP` as 95_test_vectors.md takes it. -/
def defaultParams : Params where
  cmdReset := 0xFF
  cmdSetLed := 0xED
  maxCode := Config.defaultMaxCode
  hidTable := defaultHidTable
  modifierSet := defaultModifierSet
  cap := 8
  dropPolicy := .stall
  tInhibitUs := 100

end Sys2Proof.Machine
end

