-- ==== Sys2Proof/Machine/State.lean ====
section
/-! DEFINITION. The state of the block (10_state.md), what stops a step, and the state after power-on reset. -/

namespace Sys2Proof.Machine

/-- Which edge operation a CLK falling edge runs (R25). -/
inductive Mode where
  | receiving
  | transmitting
deriving DecidableEq, Repr, Inhabited

/-- Host drive of CLK (R21): released or driven low; the block never drives CLK high. -/
inductive ClkDrive where
  | z
  | low
deriving DecidableEq, Repr, Inhabited

/-- Host drive of DATA (R22): released, low, or output level 1. -/
inductive DataDrive where
  | z
  | low
  | high
deriving DecidableEq, Repr, Inhabited

/-- The active control sequence (R35). -/
inductive SeqOp where
  | none
  | ledChange
  | reset
  | resend
deriving DecidableEq, Repr, Inhabited

/-- Where the consumer task stands in its loop (R46). -/
inductive TPhase where
  | idle
  | waitEvent
  | readFirst
  | readAfterExt
  | readAfterBreak
deriving DecidableEq, Repr, Inhabited

/-- The causes of a framing error seen in the frame being received (60_exceptions.md R221). -/
structure Causes where
  startBit : Bool
  parity : Bool
  range : Bool
deriving DecidableEq, Repr, Inhabited

/-- No cause seen. -/
def Causes.none : Causes := ⟨false, false, false⟩

/-- The exceptional events (60_exceptions.md R220). -/
inductive Exc where
  | framingError (causes : Causes)
  | unmappedKey (code : Byte) (ext : Bool)
  | fatalProtocolFailure (b : Byte)
  | droppedResponse (op : SeqOp) (step : Bool) (b : Byte)
  | ringOverrun
deriving DecidableEq, Repr

/-- What the outside, or the reader of a trace, can see happen (log entry 7). -/
inductive Output where
  /-- One invocation of `callback(eventFlags, hidCode)` (R48). -/
  | keyEvent (flags hid : Byte)
  /-- One write of the status LED (R41). -/
  | statusLed (l : LedState)
  /-- The point where an exceptional event is raised (R220). -/
  | raised (e : Exc)
deriving DecidableEq, Repr

/-- What the environment offers: the trace notation of 30_encoding.md R103, and `direct`. -/
inductive Event where
  /-- `RESET`, power-on reset. -/
  | reset
  /-- `INIT`, the call `init(callback)`. -/
  | init
  /-- `LED m`, the call `changeLedState(m)`. -/
  | led (m : Byte)
  /-- `EDGE d`, one CLK falling edge with `data_in == d`. -/
  | edge (d : Bool)
  /-- `XL`, one translator step, if enabled. -/
  | xl
  /-- `XL*`, translator steps until none is enabled. -/
  | xlAll
  /-- The device sends the 11-bit frame f: `RX b`, `RXBADP b`, `RXBADS b` and every other frame. -/
  | frame (f : BitVec 11)
  /-- `TXCLK`, the device clocks out a host-to-device frame. -/
  | txclk
  /-- The model's own: one row of the opcode table presented to the step as such, as no agent of the block can
  (DESIGN CHOICE, log entry 5). -/
  | direct (w : TableWord)
deriving DecidableEq, Repr

/-- An event that some agent of the spec can offer. -/
def Event.isSpec : Event → Bool
  | .direct _ => false
  | .reset | .init | .led _ | .edge _ | .xl | .xlAll | .frame _ | .txclk => true

/-- The state of the block: one object (10_state.md R20), with the parameters of the step relation and the model's own
fields beside it. -/
structure State where
  /-- Parameters (R51); no step changes them. -/
  params : Params
  /-- `mode` (R25). -/
  mode : Mode
  /-- `irq_en` (R23). -/
  irqEn : Bool
  /-- `clk_drv` (R21). -/
  clkDrv : ClkDrive
  /-- `data_drv` (R22). -/
  dataDrv : DataDrive
  /-- `rx_cnt` (R28). -/
  rxCnt : BitVec 4
  /-- `rx_acc` (R29). -/
  rxAcc : Byte
  /-- `rx_par` (R30). -/
  rxPar : Bool
  /-- `rx_resend` (R31). -/
  rxResend : Bool
  /-- The model's own: which causes set `rx_resend` (60_exceptions.md R221). -/
  rxCauses : Causes
  /-- `tx_cnt` (R32). -/
  txCnt : BitVec 4
  /-- `tx_byte` (R33). -/
  txByte : Byte
  /-- `tx_par` (R34). -/
  txPar : Bool
  /-- `seq_op` (R35). -/
  seqOp : SeqOp
  /-- `seq_step` (R36); `true` is step 1. -/
  seqStep : Bool
  /-- `seq_payload` (R37). -/
  seqPayload : Byte
  /-- `led_pending` (R38). -/
  ledPending : Bool
  /-- `led_req` (R39). -/
  ledReq : Byte
  /-- `fatal` (R40). -/
  fatal : Bool
  /-- `inited` (R26). -/
  inited : Bool
  /-- `status_led` (R41). -/
  statusLed : LedState
  /-- `ring_mem` (R42): the bytes written since reset, addresses strictly rising; an address not listed holds a free
  value (`State.ringByte`, log entry 3). -/
  ringMem : List Host.Cell
  /-- `ring_wr` (R43). -/
  ringWr : Nat
  /-- `ring_rd` (R44). -/
  ringRd : Nat
  /-- `wake` (R45). -/
  wake : Nat
  /-- `t_phase` (R46). -/
  tPhase : TPhase
  /-- `t_ext` (R47). -/
  tExt : Bool
  /-- `t_brk` (R47). -/
  tBrk : Bool
  /-- A `RingOverrun` has been recorded (43_ring_buffer.md R184); only power-on reset clears it (70_reset_and_hazards.md
  R250). -/
  overrun : Bool
  /-- The model's own: the value the last row called as a procedure returned (log entry 9). -/
  ret : Byte
  /-- The model's own: what the environment offers next, oldest first (log entry 4). -/
  stimulus : List Event
  /-- The model's own: what has been output and raised, oldest first (R48, R41, R220). -/
  outputs : List Output
  /-- The model's own: how many times free values have been drawn (log entries 2, 3 and 12). -/
  draws : Nat
deriving DecidableEq, Repr, Inhabited

/-- What stops the machine. -/
inductive Fault where
  /-- Raised by `ringWrite` with CAP-1 bytes unread (43_ring_buffer.md R184) and caught by `recordOverrun` at the end of
  every row that queues, which goes on with the event recorded: no row and no step ends in it. Safe. -/
  | ringOverrun
  /-- Raised by `ringWrite` and `ringRead` with a cursor outside 0 to CAP-1, where the spec says no address exists
  (20_memory.md R61; log entry 12). Safe. -/
  | ringAddress (address : Nat)
deriving DecidableEq, Repr

/-- What gives an operation no step. -/
inductive Refusal where
  /-- Raised by `exec` for an instruction without a meaning. Safe. -/
  | notModelled (mnemonic : String)
  /-- Raised by `step` when the selector it forms stands for no row: counters 11 to 15 (30_encoding.md R98), or a
  `direct` word that decodes to nothing. Safe. -/
  | badWord (e : DecodeError)
  /-- Raised by `seqResponse` for a (seq_op, seq_step, b) that R100 does not list. Safe. -/
  | noTransition (op : SeqOp) (step : Bool) (b : Byte)
  /-- Raised by INIT with `inited == 1` (45_host_operations.md R213). Safe. -/
  | initAgain
  /-- Raised by CHANGELED and LEDMASK.HID before INIT (R212). Safe. -/
  | ledBeforeInit
deriving DecidableEq, Repr

/-- The outcome of one operation. -/
abbrev Result := Host.Outcome State Fault Refusal

/-- The power-on reset state (10_state.md R52) of a block with parameters `p`, `led` drawn for the status LED. -/
def State.powerOn (p : Params) (led : LedState) : State where
  params := p
  mode := .receiving
  irqEn := false
  clkDrv := .z
  dataDrv := .z
  rxCnt := 0
  rxAcc := 0x00
  rxPar := true
  rxResend := false
  rxCauses := .none
  txCnt := 0
  txByte := 0x00
  txPar := true
  seqOp := .none
  seqStep := false
  seqPayload := 0x00
  ledPending := false
  ledReq := 0x00
  fatal := false
  inited := false
  statusLed := led
  ringMem := []
  ringWr := 0
  ringRd := 0
  wake := 0
  tPhase := .idle
  tExt := false
  tBrk := false
  overrun := false
  ret := 0x00
  stimulus := []
  outputs := []
  draws := 0

/-- The machine right after reset: R52 with the default parameters; the status LED is the value that log entry 2
names. -/
def State.reset : State := State.powerOn defaultParams .off

end Sys2Proof.Machine

/-- The value of the block's state after a `RingOverrun`, at the n-th draw: the spec gives it none and forbids a model
to (43_ring_buffer.md R184, 92_eei_decisions.md D12). Nothing constrains it (log entry 12). -/
opaque Sys2Proof.Config.freeState : Nat → Sys2Proof.Machine.State
end

