-- ==== Sys2Proof/Machine/Memory.lean ====
section
/-! DEFINITION. Byte memory as a list of cells in one canonical form: the ring-buffer space (20_memory.md R61) and the
HID-table space (R62). -/

namespace Sys2Proof.Machine

/-- The byte listed at an address. -/
def memRead : List Host.Cell → Nat → Option Byte
  | [], _ => none
  | (k, v) :: m, a => if k = a then some v else memRead m a

/-- Store one byte, keeping the addresses rising. -/
def memWrite : List Host.Cell → Nat → Byte → List Host.Cell
  | [], a, b => [(a, b)]
  | (k, v) :: m, a, b =>
    if a < k then (a, b) :: (k, v) :: m
    else if a = k then (a, b) :: m
    else (k, v) :: memWrite m a b

/-- The byte of the ring buffer at an address: the one written there since reset, or what reset left, which is free
(10_state.md R42). -/
def State.ringByte (s : State) (a : Nat) : Byte := (memRead s.ringMem a).getD (Config.freeRingByte s.draws a)

/-- Every address listed lies above `lo`, and they rise strictly. -/
def memAbove (lo : Nat) : List Host.Cell → Bool
  | [] => true
  | (k, _) :: m => lo < k && memAbove k m

/-- The canonical form: addresses strictly rising. What an unlisted ring address reads as is free, so no entry is known to
equal it and a byte that has been written is listed (log entry 3). -/
def Memory.wf : List Host.Cell → Bool
  | [] => true
  | (k, _) :: m => memAbove k m

/-- The canonical form of the HID table: addresses strictly rising within the space, and no entry equal to the 0 that
an unlisted address reads as. -/
def hidTableWf (t : List Host.Cell) : Bool :=
  Memory.wf t && t.all fun c => c.1 < 512 && c.2 ≠ 0

end Sys2Proof.Machine
end

