-- ==== Sys2Proof/Machine/Operands.lean ====
section
/-! DEFINITION. What the operations read: selectors, frames, bytes, masks and tables (30_encoding.md, 20_memory.md). -/

namespace Sys2Proof.Machine

/-- `HidLookup(code, ext)` (20_memory.md R63). -/
def hidLookup (p : Params) (code : Byte) (ext : Bool) : Byte := (memRead p.hidTable (hidAddress code ext)).getD 0

/-- `IsModifier(code, ext)` (R65). -/
def isModifier (p : Params) (code : Byte) (ext : Bool) : Bool := p.modifierSet.contains (code, ext)

/-- Class `OUT_OF_RANGE` (30_encoding.md R86), the range check of 40_rx_decoder.md R113. -/
def outOfRange (p : Params) (b : Byte) : Bool := b > p.maxCode && !b.isExcepted

/-- `LedXlate(m)` (30_encoding.md R90). -/
def ledXlate (m : Byte) : Byte := ((m &&& 0x01) <<< 1) ||| ((m &&& 0x02) <<< 1) ||| ((m &&& 0x04) >>> 2)

/-- `mode` as R96 numbers it. -/
def Mode.code : Mode → BitVec 1
  | .receiving => 0
  | .transmitting => 1

/-- `seq_op` as R96 numbers it. -/
def SeqOp.code : SeqOp → BitVec 2
  | .none => 0
  | .ledChange => 1
  | .reset => 2
  | .resend => 3

/-- `t_phase` as R96 numbers it. -/
def TPhase.code : TPhase → BitVec 3
  | .idle => 0
  | .waitEvent => 1
  | .readFirst => 2
  | .readAfterExt => 3
  | .readAfterBreak => 4

/-- `cnt` of R98: the counter of the mode the block is in. -/
def State.cnt (s : State) : BitVec 4 :=
  match s.mode with
  | .receiving => s.rxCnt
  | .transmitting => s.txCnt

/-- The selector `{mode, cnt}` (R98). -/
def State.edgeSelector (s : State) : BitVec 5 := s.mode.code ++ s.cnt

/-- The selector `{rx_resend, is_response}` (R99). -/
def State.dispatchSelector (s : State) : BitVec 2 :=
  BitVec.ofBool s.rxResend ++ BitVec.ofBool s.rxAcc.isResponse

/-- The selector `{seq_op, seq_step, b}` (R100). -/
def State.responseSelector (s : State) (b : Byte) : BitVec 11 := s.seqOp.code ++ BitVec.ofBool s.seqStep ++ b

/-- A CLK falling edge can occur and is taken (10_state.md R24, 92_eei_decisions.md D24). -/
def State.edgeTaken (s : State) : Bool := s.inited && s.irqEn && !s.fatal && s.clkDrv == .z

/-- The consumer task may step at all (R26, R40). -/
def State.taskRuns (s : State) : Bool := s.inited && !s.fatal

/-- Some translator step is enabled (44_translator.md R191 to R194). -/
def State.xlEnabled (s : State) : Bool :=
  s.taskRuns &&
    match s.tPhase with
    | .idle => false
    | .waitEvent => 0 < s.wake
    | .readFirst | .readAfterExt | .readAfterBreak => s.ringWr ≠ s.ringRd

/-- The levels of a frame in slot order, slot 0 first (R80, R84). -/
def frameLevels (f : BitVec 11) : List Bool :=
  [f.getLsbD 0, f.getLsbD 1, f.getLsbD 2, f.getLsbD 3, f.getLsbD 4, f.getLsbD 5, f.getLsbD 6, f.getLsbD 7,
   f.getLsbD 8, f.getLsbD 9, f.getLsbD 10]

/-- The 11 CLK falling edges that clock a frame (R103). -/
def frameEdges (f : BitVec 11) : List Event := (frameLevels f).map .edge

end Sys2Proof.Machine
end

