-- ==== Sys2Proof/Machine/Flags.lean ====
section
/-! DEFINITION. The parity and the event-flag byte (30_encoding.md R81, R92), and the frames that carry a parity bit. -/

namespace Sys2Proof.Machine

/-- `P(b)`, the odd-parity bit of a byte (R81). -/
def oddParity (b : Byte) : Bool :=
  true ^^ b.getLsbD 0 ^^ b.getLsbD 1 ^^ b.getLsbD 2 ^^ b.getLsbD 3 ^^ b.getLsbD 4 ^^ b.getLsbD 5 ^^ b.getLsbD 6 ^^
    b.getLsbD 7

/-- `FLAG_KEY` (R92). -/
def flagKey : Byte := 0x01
/-- `FLAG_MOD` (R92). -/
def flagMod : Byte := 0x02
/-- `FLAG_BREAK` (R92). -/
def flagBreak : Byte := 0x04

/-- The event-flag byte of a classified key transition: one kind, and the break flag (R92, 44_translator.md R195). -/
def eventFlagsOf (isMod isBreak : Bool) : Byte :=
  (if isMod then flagMod else flagKey) ||| (if isBreak then flagBreak else 0x00)

/-- The event-flag byte `00000bmk` from its three bits (R92). -/
def eventFlagBits (brk mod key : Bool) : Byte :=
  (if brk then flagBreak else 0x00) ||| (if mod then flagMod else 0x00) ||| (if key then flagKey else 0x00)

/-- The PS/2-order mask `00000cns` from its three bits (R89). -/
def ledMaskBits (caps num scroll : Bool) : Byte :=
  (if caps then 0x04 else 0x00) ||| (if num then 0x02 else 0x00) ||| (if scroll then 0x01 else 0x00)

/-- `RX b`: the well-formed frame of a byte (R80, R103). -/
def Event.rx (b : Byte) : Event := .frame (frameD2HBits false b (oddParity b) true)

/-- `RXBADP b`: the parity slot inverted (R103). -/
def Event.rxBadP (b : Byte) : Event := .frame (frameD2HBits false b (!oddParity b) true)

/-- `RXBADS b`: the start slot sampled 1 (R103). -/
def Event.rxBadS (b : Byte) : Event := .frame (frameD2HBits true b (oddParity b) true)

end Sys2Proof.Machine
end

