-- ==== Sys2Proof/Machine/Ops.lean ====
section
/-! DEFINITION. The operations over registers and memory that the rows share, exceptional events among them. -/

namespace Sys2Proof.Machine

/-- Run one part of an operation after another, stopping where the first stops. -/
def andThen (r : Result) (f : State → Result) : Result :=
  match r with
  | .next s => f s
  | .fault e => .fault e
  | .refused e => .refused e

/-- Append to what has been output. -/
def State.output (s : State) (o : Output) : State := { s with outputs := s.outputs ++ [o] }

/-- Mask the interrupt and drive CLK low: the first two lines of 40_rx_decoder.md R114, and the inhibit of
41_tx_encoder.md R130. -/
def State.inhibit (s : State) : State := { s with irqEn := false, clkDrv := .low }

/-- `ReleaseToReceive` (42_control_sequencer.md R151). -/
def State.releaseToReceive (s : State) : State :=
  { s with mode := .receiving, dataDrv := .z, clkDrv := .z, irqEn := true }

/-- `TxStart(b)` (41_tx_encoder.md R130): the registers, the inhibit, then request-to-send and release of CLK. The time
CLK stays low is not modelled (70_reset_and_hazards.md R270). -/
def State.txStart (s : State) (b : Byte) : State :=
  { ({ s with txByte := b, txCnt := 0, txPar := true, mode := .transmitting } : State).inhibit with
    dataDrv := .low, clkDrv := .z, irqEn := true }

/-- `SeqStart(op)` (42_control_sequencer.md R152): it does not look at the operation in progress (R162). -/
def State.seqStart (s : State) (op : StartOp) : State :=
  match op with
  | .resend => ({ s with seqOp := .resend, seqStep := false } : State).txStart Config.cmdResend
  | .reset => ({ s with seqOp := .reset, seqStep := false } : State).txStart s.params.cmdReset
  | .ledChange =>
    ({ s with seqOp := .ledChange, seqStep := false, seqPayload := ledXlate s.ledReq } : State).txStart s.params.cmdSetLed

/-- The sequencer back to (`None`, 0). -/
def State.seqIdle (s : State) : State := { s with seqOp := .none, seqStep := false }

/-- After a `RingOverrun`: it is recorded, and the whole state of the block takes free values, the ring memory by listing
nothing (43_ring_buffer.md R184: "A model must not give the case a value"). The parameters and what stands outside the
block are kept (log entry 12). -/
def State.afterOverrun (s : State) : State :=
  { Config.freeState s.draws with
    params := s.params, ringMem := [], overrun := true, stimulus := s.stimulus
    outputs := s.outputs ++ [.raised .ringOverrun], draws := s.draws + 1 }

/-- Taking an exceptional event (60_exceptions.md R220, R233): it is recorded, nothing is saved, and then
`FramingError` starts the Resend, `FatalProtocolFailure` sets `fatal`, `DroppedResponse` follows `DROP_POLICY`
(42_control_sequencer.md R160), `UnmappedKey` changes nothing, `RingOverrun` is set for ever and leaves the block without
a specified state (43_ring_buffer.md R184). -/
def State.takeException (s : State) (e : Exc) : State :=
  match e with
  | .framingError _ => (s.output (.raised e)).seqStart .resend
  | .unmappedKey _ _ => s.output (.raised e)
  | .fatalProtocolFailure _ => { s.output (.raised e) with fatal := true }
  | .droppedResponse _ _ _ =>
    match s.params.dropPolicy with
    | .stall => s.output (.raised e)
    | .abandon => (s.output (.raised e)).seqIdle.releaseToReceive
  | .ringOverrun => s.afterOverrun

/-- The return from a `FramingError` (60_exceptions.md R234): the Resend's transmission is over, and the operation with
it (41_tx_encoder.md R135). Nothing was saved, so nothing is restored. -/
def State.returnFromException (s : State) : State := if s.seqOp = .resend then { s with seqOp := .none } else s

/-- `IdleOpportunity` (42_control_sequencer.md R153). -/
def State.idleOpportunity (s : State) : State :=
  if s.seqOp = .none ∧ s.ledPending = true then ({ s with ledPending := false } : State).seqStart .ledChange
  else s.releaseToReceive

/-- `Drop` (42_control_sequencer.md R160): the response b meets a state that does not accept it. -/
def State.drop (s : State) (b : Byte) : State := s.takeException (.droppedResponse s.seqOp s.seqStep b)

/-- The receive registers as a frame finds them: the last line of 40_rx_decoder.md R114. -/
def State.clearRx (s : State) : State :=
  { s with rxCnt := 0, rxAcc := 0x00, rxPar := true, rxResend := false, rxCauses := .none }

/-- `RingWrite(b)` (43_ring_buffer.md R181): the byte is stored, then the cursor moves. With CAP-1 bytes unread the
operation stops in `ringOverrun` (R184), which `recordOverrun` takes. -/
def ringWrite (b : Byte) (s : State) : Result :=
  if (s.ringWr + 1) % s.params.cap = s.ringRd then .fault .ringOverrun
  else if s.ringWr < s.params.cap then
    .next { s with ringMem := memWrite s.ringMem s.ringWr b, ringWr := (s.ringWr + 1) % s.params.cap }
  else .fault (.ringAddress s.ringWr)

/-- `RingRead` (R182) on a buffer that is not empty: the byte at the read cursor, and the cursor moved. -/
def ringRead (s : State) : Except Fault (Byte × State) :=
  if s.ringRd < s.params.cap then
    .ok (s.ringByte s.ringRd, { s with ringRd := (s.ringRd + 1) % s.params.cap })
  else .error (.ringAddress s.ringRd)

/-- The read of a step that waits while the buffer is empty (R182: "blocks ... until the write cursor differs from the
read cursor"). -/
def withRingByte (s : State) (f : Byte → State → State) : Result :=
  if s.ringWr = s.ringRd then .next s
  else
    match ringRead s with
    | .ok (v, s') => .next (f v s')
    | .error e => .fault e

/-- Run an operation that may queue a byte. Where it meets the full buffer the operation has no specified outcome: the
event `RingOverrun` is taken at the state before it (R184). -/
def recordOverrun (f : State → Result) (s : State) : Result :=
  match f s with
  | .next t => .next t
  | .fault .ringOverrun => .next (s.takeException .ringOverrun)
  | .fault (.ringAddress a) => .fault (.ringAddress a)
  | .refused e => .refused e

/-- Move the consumer task to a phase (10_state.md R46). -/
def State.toPhase (s : State) (ph : TPhase) : State := { s with tPhase := ph }

/-- `Emit(code)` (44_translator.md R195): classify, look up, report. -/
def State.emit (s : State) (code : Byte) : State :=
  let flags := eventFlagsOf (isModifier s.params code s.tExt) s.tBrk
  let hid := hidLookup s.params code s.tExt
  (if hid ≠ 0x00 then s.output (.keyEvent flags hid) else s.takeException (.unmappedKey code s.tExt)).toPhase .waitEvent

/-- The handling of a CLK falling edge that selects the row with selector `sel`: enabled when the edge is taken and
`{mode, cnt}` is that selector (40_rx_decoder.md R110, 41_tx_encoder.md R131); else no state changes (00_scope.md
R10). -/
def onEdge (sel : BitVec 5) (f : State → Result) (s : State) : Result :=
  if s.edgeTaken = true ∧ s.edgeSelector = sel then f s else .next s

/-- A translator step: enabled in its phase only, after `init` and before a fatal failure (44_translator.md R190). -/
def onPhase (ph : TPhase) (f : State → Result) (s : State) : Result :=
  if s.taskRuns = true ∧ s.tPhase = ph then f s else .next s

/-- `changeLedState(m)` (45_host_operations.md R211, R212): refused before `init`, without effect after a fatal
failure. -/
def changeLedState (m : Byte) (s : State) : Result :=
  if s.inited = false then .refused .ledBeforeInit
  else if s.fatal = true then .next s
  else .next { s with ledReq := m, ledPending := true }

/-- Power-on reset in the middle of a run (70_reset_and_hazards.md R250): every piece of state of the block at its reset
value, the status LED drawn freely; what the environment still offers, what it has seen and the parameters are not
state of the block (log entry 19). -/
def State.powerCycle (s : State) : State :=
  { State.powerOn s.params (Config.freeStatusLed s.draws) with
    stimulus := s.stimulus, outputs := s.outputs, draws := s.draws + 1 }

end Sys2Proof.Machine
end

