-- ==== Sys2Proof/Machine/Sequencer.lean ====
section
/-! DEFINITION. The Control Sequencer (42_control_sequencer.md): its transitions, its response selector and its procedures
as rows. -/

namespace Sys2Proof.Machine

/-- (`Reset`, 0) meets ACK: step 1, CLK released (R156). -/
def State.seqResetAck (s : State) : State := ({ s with seqStep := true } : State).releaseToReceive

/-- (`Reset`, 1) meets self-test-passed: one LED deactivation, idle (R157). -/
def State.seqResetBat (s : State) : State :=
  (({ s with statusLed := .off } : State).output (.statusLed .off)).seqIdle.idleOpportunity

/-- (`Reset`, 1) meets the other response b: fatal (R157). -/
def State.seqResetFatal (s : State) (b : Byte) : State := s.takeException (.fatalProtocolFailure b)

/-- (`LedChange`, 0) meets ACK: the mask is transmitted (R158). -/
def State.seqLedAck1 (s : State) : State := ({ s with seqStep := true } : State).txStart s.seqPayload

/-- (`LedChange`, 1) meets ACK: idle (R159). -/
def State.seqLedAck2 (s : State) : State := s.seqIdle.idleOpportunity

/-- `SeqResponse(b)` (R154): the transition by (`seq_op`, `seq_step`, b) in the table of 30_encoding.md R100; what the
table does not list is refused (93_implementation_defined.md U12). -/
def seqResponse (b : Byte) (s : State) : Result :=
  match s.seqOp, s.seqStep with
  | .resend, false => .next (s.drop b)
  | .none, true => .refused (.noTransition s.seqOp s.seqStep b)
  | .resend, true => .refused (.noTransition s.seqOp s.seqStep b)
  | .reset, false =>
    if b = Config.byteAck then .next s.seqResetAck
    else if b = Config.byteBat then .next (s.drop b)
    else .refused (.noTransition s.seqOp s.seqStep b)
  | .reset, true =>
    if b = Config.byteBat then .next s.seqResetBat
    else if b = Config.byteAck then .next (s.seqResetFatal b)
    else .refused (.noTransition s.seqOp s.seqStep b)
  | .ledChange, false =>
    if b = Config.byteAck then .next s.seqLedAck1
    else if b = Config.byteBat then .next (s.drop b)
    else .refused (.noTransition s.seqOp s.seqStep b)
  | .ledChange, true =>
    if b = Config.byteAck then .next s.seqLedAck2
    else if b = Config.byteBat then .next (s.drop b)
    else .refused (.noTransition s.seqOp s.seqStep b)
  | .none, false =>
    if b.isResponse then .next (s.drop b) else .refused (.noTransition s.seqOp s.seqStep b)

/-- SEQ.RESET.ACK (R156). -/
def execSeqResetAck (s : State) : Result := .next s.seqResetAck
/-- SEQ.DROP@RESET0: self-test-passed at (`Reset`, 0) (R160). -/
def execSeqDropReset0 (s : State) : Result := .next (s.drop Config.byteBat)
/-- SEQ.RESET.BAT (R157). -/
def execSeqResetBat (s : State) : Result := .next s.seqResetBat
/-- SEQ.RESET.FATAL: ACK at (`Reset`, 1) (R157). -/
def execSeqResetFatal (s : State) : Result := .next (s.seqResetFatal Config.byteAck)
/-- SEQ.LED.ACK1 (R158). -/
def execSeqLedAck1 (s : State) : Result := .next s.seqLedAck1
/-- SEQ.DROP@LED0: self-test-passed at (`LedChange`, 0) (R160). -/
def execSeqDropLed0 (s : State) : Result := .next (s.drop Config.byteBat)
/-- SEQ.LED.ACK2 (R159). -/
def execSeqLedAck2 (s : State) : Result := .next s.seqLedAck2
/-- SEQ.DROP@LED1: self-test-passed at (`LedChange`, 1) (R160). -/
def execSeqDropLed1 (s : State) : Result := .next (s.drop Config.byteBat)
/-- SEQ.DROP@IDLE.ACK: an unsolicited ACK (R161). -/
def execSeqDropIdleAck (s : State) : Result := .next (s.drop Config.byteAck)
/-- SEQ.DROP@IDLE.BAT: an unsolicited self-test-passed (R161). -/
def execSeqDropIdleBat (s : State) : Result := .next (s.drop Config.byteBat)
/-- SEQ.DROP@RESEND: any byte at (`Resend`, 0), which no run reaches (R155, R161). -/
def execSeqDropResend (b : Byte) (s : State) : Result := .next (s.drop b)

/-- ReleaseToReceive (R151). -/
def execReleaseToReceive (s : State) : Result := .next s.releaseToReceive
/-- SeqStart (R152). -/
def execSeqStart (op : StartOp) (s : State) : Result := .next (s.seqStart op)
/-- IdleOpportunity (R153). -/
def execIdleOpportunity (s : State) : Result := .next s.idleOpportunity
/-- SeqResponse (R154). -/
def execSeqResponse (b : Byte) (s : State) : Result := seqResponse b s

end Sys2Proof.Machine
end

