-- ==== Sys2Proof/Machine/Rx.lean ====
section
/-! DEFINITION. The RX decoder (40_rx_decoder.md): its edge operations and the branches of its stop slot. -/

namespace Sys2Proof.Machine

/-- `RX.START` (R111): a start slot sampled 1 flags a resend and is counted all the same. -/
def rxStart (d : Bool) (s : State) : State :=
  { s with
    rxResend := s.rxResend || d
    rxCauses := { s.rxCauses with startBit := s.rxCauses.startBit || d }
    rxCnt := 1 }

/-- `RX.DATA` in slot k (R112). -/
def rxData (k : Nat) (d : Bool) (s : State) : State :=
  { s with
    rxAcc := s.rxAcc ||| (Byte.ofLevel d <<< (k - 1))
    rxPar := s.rxPar ^^ d
    rxCnt := BitVec.ofNat 4 (k + 1) }

/-- `RX.PARITY` (R113): parity checker and range checker. -/
def rxParity (d : Bool) (s : State) : State :=
  let mismatch := d != s.rxPar
  let range := outOfRange s.params s.rxAcc
  { s with
    rxResend := s.rxResend || mismatch || range
    rxCauses := { s.rxCauses with parity := s.rxCauses.parity || mismatch, range := s.rxCauses.range || range }
    rxCnt := 10 }

/-- `DISPATCH.RESEND` (R115). -/
def State.dispatchResend (s : State) : State := s.takeException (.framingError s.rxCauses)

/-- `DISPATCH.QUEUE(b)` (R117): queued, signalled unless a prefix, then the idle opportunity. -/
def dispatchQueue (b : Byte) (s : State) : Result :=
  andThen (ringWrite b s) fun s1 =>
    .next (if b.isPrefix then s1 else { s1 with wake := s1.wake + 1 }).idleOpportunity

/-- The branch of the stop slot, by priority (R99, R114 (d)). -/
def stopDispatch (s : State) : Result :=
  if s.rxResend = true then .next s.dispatchResend
  else if s.rxAcc.isResponse = true then seqResponse s.rxAcc s
  else dispatchQueue s.rxAcc s

/-- The end of the stop slot (R114): the receive registers are cleared, unless the branch was fatal. -/
def finishStop (s : State) : Result := if s.fatal = true then .next s else .next s.clearRx

/-- `RX.STOP` (R114); the stop level is not examined. -/
def rxStop (s : State) : Result := andThen (stopDispatch s.inhibit) finishStop

/-- RX.START (R111). -/
def execRxStart (d : Bool) (s : State) : Result := onEdge 0b00000 (fun s => .next (rxStart d s)) s
/-- RX.DATA1 (R112). -/
def execRxData1 (d : Bool) (s : State) : Result := onEdge 0b00001 (fun s => .next (rxData 1 d s)) s
/-- RX.DATA2 (R112). -/
def execRxData2 (d : Bool) (s : State) : Result := onEdge 0b00010 (fun s => .next (rxData 2 d s)) s
/-- RX.DATA3 (R112). -/
def execRxData3 (d : Bool) (s : State) : Result := onEdge 0b00011 (fun s => .next (rxData 3 d s)) s
/-- RX.DATA4 (R112). -/
def execRxData4 (d : Bool) (s : State) : Result := onEdge 0b00100 (fun s => .next (rxData 4 d s)) s
/-- RX.DATA5 (R112). -/
def execRxData5 (d : Bool) (s : State) : Result := onEdge 0b00101 (fun s => .next (rxData 5 d s)) s
/-- RX.DATA6 (R112). -/
def execRxData6 (d : Bool) (s : State) : Result := onEdge 0b00110 (fun s => .next (rxData 6 d s)) s
/-- RX.DATA7 (R112). -/
def execRxData7 (d : Bool) (s : State) : Result := onEdge 0b00111 (fun s => .next (rxData 7 d s)) s
/-- RX.DATA8 (R112). -/
def execRxData8 (d : Bool) (s : State) : Result := onEdge 0b01000 (fun s => .next (rxData 8 d s)) s
/-- RX.PARITY (R113). -/
def execRxParity (d : Bool) (s : State) : Result := onEdge 0b01001 (fun s => .next (rxParity d s)) s
/-- RX.STOP (R114); an overrun of its queue branch is recorded (43_ring_buffer.md R184). -/
def execRxStop (_d : Bool) (s : State) : Result := onEdge 0b01010 (recordOverrun rxStop) s

/-- DISPATCH.RESEND (R115). -/
def execDispatchResend (s : State) : Result := .next s.dispatchResend
/-- DISPATCH.RESPONSE (R116), the byte in `rx_acc` (log entry 20). -/
def execDispatchResponse (s : State) : Result := seqResponse s.rxAcc s
/-- DISPATCH.QUEUE (R117), the byte in `rx_acc` (log entry 20). -/
def execDispatchQueue (s : State) : Result := recordOverrun (dispatchQueue s.rxAcc) s

end Sys2Proof.Machine
end

