-- ==== Sys2Proof/Machine/Data.lean ====
section
/-! DEFINITION. The data rows of the table: each has the effect the spec gives its datum at the place where the block
meets it (DEDUCED, log entry 11). -/

namespace Sys2Proof.Machine

/-- FRAME.D2H (30_encoding.md R80, R103): the device sends the frame, so its 11 edges are what comes next. -/
def execFrameD2H (start : Bool) (data : Byte) (parity stop : Bool) (s : State) : Result :=
  .next { s with stimulus := frameEdges (frameD2HBits start data parity stop) ++ s.stimulus }

/-- FRAME.H2D (R84, R103 TXCLK): the device clocks 11 slots, DATA at the levels of the frame. -/
def execFrameH2D (data : Byte) (parity release ack : Bool) (s : State) : Result :=
  .next { s with stimulus := frameEdges (frameH2DBits data parity release ack) ++ s.stimulus }

/-- BYTE.ACK (R86): fed to the sequencer as a response. -/
def execByteAck (s : State) : Result := seqResponse Config.byteAck s
/-- BYTE.BAT (R86): fed to the sequencer as a response. -/
def execByteBat (s : State) : Result := seqResponse Config.byteBat s
/-- BYTE.BREAK (R86): queued, consumer not signalled. -/
def execByteBreak (s : State) : Result := recordOverrun (dispatchQueue Config.byteBreak) s
/-- BYTE.EXT (R86): queued, consumer not signalled. -/
def execByteExt (s : State) : Result := recordOverrun (dispatchQueue Config.byteExt) s
/-- BYTE.SCAN (R86): queued, consumer signalled. -/
def execByteScan (b : Byte) (s : State) : Result := recordOverrun (dispatchQueue b) s
/-- BYTE.OUT_OF_RANGE (R86, R95 (b)): framing error, Resend. -/
def execByteOutOfRange (_b : Byte) (s : State) : Result :=
  .next (s.takeException (.framingError { Causes.none with range := true }))

/-- CMD.RESEND (R87): transmitted through `TxStart`. -/
def execCmdResend (s : State) : Result := .next (s.txStart Config.cmdResend)
/-- CMD.RESET (R87): transmitted through `TxStart`; the value is the parameter. -/
def execCmdReset (s : State) : Result := .next (s.txStart s.params.cmdReset)
/-- CMD.SET_LED (R87): transmitted through `TxStart`; the value is the parameter. -/
def execCmdSetLed (s : State) : Result := .next (s.txStart s.params.cmdSetLed)

/-- LEDMASK.HID (R88): the argument of `changeLedState`. -/
def execLedMaskHid (m : Byte) (s : State) : Result := changeLedState m s
/-- LEDMASK.PS2 (R89, R87): the byte transmitted after `CMD_SET_LED`. -/
def execLedMaskPs2 (caps num scroll : Bool) (s : State) : Result := .next (s.txStart (ledMaskBits caps num scroll))
/-- EVENTFLAGS (R92): the flag byte the port carries, the row's return value. -/
def execEventFlags (brk mod key : Bool) (s : State) : Result := .next { s with ret := eventFlagBits brk mod key }

end Sys2Proof.Machine
end

