-- ==== Sys2Proof/Machine/HostOps.lean ====
section
/-! DEFINITION. The two host calls (45_host_operations.md) and the LED translation as a row (30_encoding.md R90). -/

namespace Sys2Proof.Machine

/-- INIT (R210): lines configured, receive handler installed, consumer task started, the Reset sequence issued. A second
call is refused (R213). -/
def execInit (s : State) : Result :=
  if s.inited = true then .refused .initAgain
  else
    .next (({ s with
      inited := true, dataDrv := .z, clkDrv := .z, mode := .receiving, irqEn := true, tPhase := .waitEvent } : State).seqStart
        .reset)

/-- CHANGELED (R211). -/
def execChangeLed (m : Byte) (s : State) : Result := changeLedState m s

/-- LedXlate (30_encoding.md R90): the translated mask is the row's return value. -/
def execLedXlate (m : Byte) (s : State) : Result := .next { s with ret := ledXlate m }

end Sys2Proof.Machine
end

