-- ==== Sys2Proof/Machine/Ring.lean ====
section
/-! DEFINITION. The ring buffer's two operations as rows (43_ring_buffer.md). -/

namespace Sys2Proof.Machine

/-- RingWrite (R181); an overrun is recorded (R184). -/
def execRingWrite (b : Byte) (s : State) : Result := recordOverrun (ringWrite b) s

/-- RingRead (R182): the byte is the row's return value; on an empty buffer the caller waits. -/
def execRingRead (s : State) : Result := withRingByte s fun v s => { s with ret := v }

end Sys2Proof.Machine
end

