-- ==== Sys2Proof/Machine/Translator.lean ====
section
/-! DEFINITION. The translator and classifier (44_translator.md): its four steps, `Emit`, and the two table
lookups as rows (20_memory.md R63, R65). -/

namespace Sys2Proof.Machine

/-- `XL.WAIT` with `wake > 0` (R191). -/
def xlWait (s : State) : State :=
  { s with wake := s.wake - 1, tExt := false, tBrk := false, tPhase := .readFirst }

/-- What `XL.READ1` does with the byte (R192). -/
def xlFirst (b : Byte) (s : State) : State :=
  if b = Config.byteExt then { s with tExt := true, tPhase := .readAfterExt }
  else if b = Config.byteBreak then { s with tBrk := true, tPhase := .readAfterBreak }
  else s.emit b

/-- What `XL.READ2` does with the byte (R193). -/
def xlSecond (b : Byte) (s : State) : State :=
  if b = Config.byteBreak then { s with tBrk := true, tPhase := .readAfterBreak } else s.emit b

/-- XL.WAIT (R191): with `wake == 0` the step has no effect. -/
def execXlWait (s : State) : Result := onPhase .waitEvent (fun s => .next (if 0 < s.wake then xlWait s else s)) s
/-- XL.READ1 (R192). -/
def execXlRead1 (s : State) : Result := onPhase .readFirst (fun s => withRingByte s xlFirst) s
/-- XL.READ2 (R193). -/
def execXlRead2 (s : State) : Result := onPhase .readAfterExt (fun s => withRingByte s xlSecond) s
/-- XL.READ3 (R194). -/
def execXlRead3 (s : State) : Result := onPhase .readAfterBreak (fun s => withRingByte s fun b s => s.emit b) s

/-- Emit (R195). -/
def execEmit (code : Byte) (s : State) : Result := .next (s.emit code)
/-- HidLookup (20_memory.md R63): the code is the row's return value. -/
def execHidLookup (code : Byte) (ext : Bool) (s : State) : Result := .next { s with ret := hidLookup s.params code ext }
/-- IsModifier (20_memory.md R65): 1 for a member, 0 otherwise, is the row's return value. -/
def execIsModifier (code : Byte) (ext : Bool) (s : State) : Result :=
  .next { s with ret := Byte.ofLevel (isModifier s.params code ext) }

end Sys2Proof.Machine
end

