-- ==== Sys2Proof/Machine/Tx.lean ====
section
/-! DEFINITION. The TX encoder (41_tx_encoder.md): its edge operations, none of which uses the sampled level (R136), and
`TxStart` as a row. -/

namespace Sys2Proof.Machine

/-- The drive that puts a bit on DATA (10_state.md R22, R84). -/
def driveOf (bit : Bool) : DataDrive := if bit then .high else .low

/-- `TX.DATA` in slot k (R132). -/
def txData (k : Nat) (s : State) : State :=
  { s with
    dataDrv := driveOf (s.txByte.getLsbD k)
    txPar := s.txPar ^^ s.txByte.getLsbD k
    txCnt := BitVec.ofNat 4 (k + 1) }

/-- `TX.PARITY` (R133). -/
def txParity (s : State) : State := { s with dataDrv := driveOf s.txPar, txCnt := 9 }

/-- `TX.STOP` (R134). -/
def txStop (s : State) : State := { s with dataDrv := .z, txCnt := 10 }

/-- `TX.DONE` (R135): back to receive mode; a Resend ends here (60_exceptions.md R234). -/
def txDone (s : State) : State :=
  ({ s with txCnt := 0, txPar := true, mode := .receiving } : State).returnFromException

/-- TX.DATA0 (R132). -/
def execTxData0 (_d : Bool) (s : State) : Result := onEdge 0b10000 (fun s => .next (txData 0 s)) s
/-- TX.DATA1 (R132). -/
def execTxData1 (_d : Bool) (s : State) : Result := onEdge 0b10001 (fun s => .next (txData 1 s)) s
/-- TX.DATA2 (R132). -/
def execTxData2 (_d : Bool) (s : State) : Result := onEdge 0b10010 (fun s => .next (txData 2 s)) s
/-- TX.DATA3 (R132). -/
def execTxData3 (_d : Bool) (s : State) : Result := onEdge 0b10011 (fun s => .next (txData 3 s)) s
/-- TX.DATA4 (R132). -/
def execTxData4 (_d : Bool) (s : State) : Result := onEdge 0b10100 (fun s => .next (txData 4 s)) s
/-- TX.DATA5 (R132). -/
def execTxData5 (_d : Bool) (s : State) : Result := onEdge 0b10101 (fun s => .next (txData 5 s)) s
/-- TX.DATA6 (R132). -/
def execTxData6 (_d : Bool) (s : State) : Result := onEdge 0b10110 (fun s => .next (txData 6 s)) s
/-- TX.DATA7 (R132). -/
def execTxData7 (_d : Bool) (s : State) : Result := onEdge 0b10111 (fun s => .next (txData 7 s)) s
/-- TX.PARITY (R133). -/
def execTxParity (_d : Bool) (s : State) : Result := onEdge 0b11000 (fun s => .next (txParity s)) s
/-- TX.STOP (R134). -/
def execTxStop (_d : Bool) (s : State) : Result := onEdge 0b11001 (fun s => .next (txStop s)) s
/-- TX.DONE (R135). -/
def execTxDone (_d : Bool) (s : State) : Result := onEdge 0b11010 (fun s => .next (txDone s)) s

/-- TxStart (R130). -/
def execTxStart (b : Byte) (s : State) : Result := .next (s.txStart b)

end Sys2Proof.Machine
end

