-- ==== Sys2Proof/Machine/Dispatch.lean ====
section
/-! DEFINITION. One arm per row of spec/opcode_table.json. -/

namespace Sys2Proof.Machine

def exec (i : Instr) (s : State) : Host.Outcome State Fault Refusal :=
  match i with
  -- RX edge operations (40_rx_decoder.md R111 to R114); d is the sampled DATA level
  | .rxStart d => Sys2Proof.Machine.execRxStart d s
  | .rxData1 d => Sys2Proof.Machine.execRxData1 d s
  | .rxData2 d => Sys2Proof.Machine.execRxData2 d s
  | .rxData3 d => Sys2Proof.Machine.execRxData3 d s
  | .rxData4 d => Sys2Proof.Machine.execRxData4 d s
  | .rxData5 d => Sys2Proof.Machine.execRxData5 d s
  | .rxData6 d => Sys2Proof.Machine.execRxData6 d s
  | .rxData7 d => Sys2Proof.Machine.execRxData7 d s
  | .rxData8 d => Sys2Proof.Machine.execRxData8 d s
  | .rxParity d => Sys2Proof.Machine.execRxParity d s
  | .rxStop d => Sys2Proof.Machine.execRxStop d s
  -- TX edge operations (41_tx_encoder.md R132 to R135)
  | .txData0 d => Sys2Proof.Machine.execTxData0 d s
  | .txData1 d => Sys2Proof.Machine.execTxData1 d s
  | .txData2 d => Sys2Proof.Machine.execTxData2 d s
  | .txData3 d => Sys2Proof.Machine.execTxData3 d s
  | .txData4 d => Sys2Proof.Machine.execTxData4 d s
  | .txData5 d => Sys2Proof.Machine.execTxData5 d s
  | .txData6 d => Sys2Proof.Machine.execTxData6 d s
  | .txData7 d => Sys2Proof.Machine.execTxData7 d s
  | .txParity d => Sys2Proof.Machine.execTxParity d s
  | .txStop d => Sys2Proof.Machine.execTxStop d s
  | .txDone d => Sys2Proof.Machine.execTxDone d s
  -- stop-slot branches (R115 to R117); the byte is rx_acc
  | .dispatchResend => Sys2Proof.Machine.execDispatchResend s
  | .dispatchResponse => Sys2Proof.Machine.execDispatchResponse s
  | .dispatchQueue => Sys2Proof.Machine.execDispatchQueue s
  -- sequencer transitions (42_control_sequencer.md R156 to R161)
  | .seqResetAck => Sys2Proof.Machine.execSeqResetAck s
  | .seqDropReset0 => Sys2Proof.Machine.execSeqDropReset0 s
  | .seqResetBat => Sys2Proof.Machine.execSeqResetBat s
  | .seqResetFatal => Sys2Proof.Machine.execSeqResetFatal s
  | .seqLedAck1 => Sys2Proof.Machine.execSeqLedAck1 s
  | .seqDropLed0 => Sys2Proof.Machine.execSeqDropLed0 s
  | .seqLedAck2 => Sys2Proof.Machine.execSeqLedAck2 s
  | .seqDropLed1 => Sys2Proof.Machine.execSeqDropLed1 s
  | .seqDropIdleAck => Sys2Proof.Machine.execSeqDropIdleAck s
  | .seqDropIdleBat => Sys2Proof.Machine.execSeqDropIdleBat s
  | .seqDropResend b => Sys2Proof.Machine.execSeqDropResend b s
  -- translator steps (44_translator.md R191 to R194)
  | .xlWait => Sys2Proof.Machine.execXlWait s
  | .xlRead1 => Sys2Proof.Machine.execXlRead1 s
  | .xlRead2 => Sys2Proof.Machine.execXlRead2 s
  | .xlRead3 => Sys2Proof.Machine.execXlRead3 s
  -- host calls (45_host_operations.md R210, R211)
  | .init => Sys2Proof.Machine.execInit s
  | .changeLed m => Sys2Proof.Machine.execChangeLed m s
  -- procedures (30_encoding.md R102)
  | .txStart b => Sys2Proof.Machine.execTxStart b s
  | .releaseToReceive => Sys2Proof.Machine.execReleaseToReceive s
  | .seqStart op => Sys2Proof.Machine.execSeqStart op s
  | .idleOpportunity => Sys2Proof.Machine.execIdleOpportunity s
  | .seqResponse b => Sys2Proof.Machine.execSeqResponse b s
  | .ringWrite b => Sys2Proof.Machine.execRingWrite b s
  | .ringRead => Sys2Proof.Machine.execRingRead s
  | .emit code => Sys2Proof.Machine.execEmit code s
  | .hidLookup code ext => Sys2Proof.Machine.execHidLookup code ext s
  | .isModifier code ext => Sys2Proof.Machine.execIsModifier code ext s
  | .ledXlate m => Sys2Proof.Machine.execLedXlate m s
  -- data formats (30_encoding.md R80, R84, R86, R87, R88, R89, R92)
  | .frameD2H start data parity stop => Sys2Proof.Machine.execFrameD2H start data parity stop s
  | .frameH2D data parity release ack => Sys2Proof.Machine.execFrameH2D data parity release ack s
  | .byteAck => Sys2Proof.Machine.execByteAck s
  | .byteBat => Sys2Proof.Machine.execByteBat s
  | .byteBreak => Sys2Proof.Machine.execByteBreak s
  | .byteExt => Sys2Proof.Machine.execByteExt s
  | .cmdResend => Sys2Proof.Machine.execCmdResend s
  | .cmdReset => Sys2Proof.Machine.execCmdReset s
  | .cmdSetLed => Sys2Proof.Machine.execCmdSetLed s
  | .byteScan b => Sys2Proof.Machine.execByteScan b s
  | .byteOutOfRange b => Sys2Proof.Machine.execByteOutOfRange b s
  | .ledMaskHid m => Sys2Proof.Machine.execLedMaskHid m s
  | .ledMaskPs2 caps num scroll => Sys2Proof.Machine.execLedMaskPs2 caps num scroll s
  | .eventFlags brk mod key => Sys2Proof.Machine.execEventFlags brk mod key s

end Sys2Proof.Machine
end

