-- ==== Sys2Proof/Machine/Fetch.lean ====
section
/-! DEFINITION. What the next event of the environment asks of the block: a word of the opcode table, formed from the
event and the state, or nothing. -/

namespace Sys2Proof.Machine

/-- What the step has to do: nothing beyond the state given, or run the row a word stands for. -/
inductive Offer where
  | settle (s : State)
  | run (w : TableWord) (s : State)
deriving DecidableEq, Repr

/-- The word of a taken edge: selector `{mode, cnt}`, operand the sampled level (30_encoding.md R98). -/
def State.edgeWord (s : State) (d : Bool) : TableWord := ⟨.edge, s.edgeSelector.setWidth 16, .level d⟩

/-- The word of the task's next step (R101). -/
def State.xlWord (s : State) : TableWord := ⟨.translator, s.tPhase.code.setWidth 16, .none⟩

/-- What one event offers, the event itself already taken off `stimulus` (R103). An edge that is not taken is lost
(10_state.md R24, R50 (d)); before `init`, after a fatal failure and in phase `Idle` the task has no step
(44_translator.md R190). -/
def offerEvent (e : Event) (s : State) : Offer :=
  match e with
  | .reset => .settle s.powerCycle
  | .init => .run ⟨.proc .init, 0, .none⟩ s
  | .led m => .run ⟨.proc .changeLed, 0, .byte m⟩ s
  | .edge d => if s.edgeTaken then .run (s.edgeWord d) s else .settle s
  | .xl => if s.taskRuns && s.tPhase != .idle then .run s.xlWord s else .settle s
  | .xlAll => if s.xlEnabled then .run s.xlWord { s with stimulus := .xlAll :: s.stimulus } else .settle s
  | .frame f => .run ⟨.frameD2H, f.setWidth 16, .none⟩ s
  | .txclk => .run ⟨.frameH2D, 0x7FF, .none⟩ s
  | .direct w => .run w s

/-- What the next event offers; with nothing offered nothing happens (60_exceptions.md R227; log entry 6). -/
def State.offer (s : State) : Offer :=
  match s.stimulus with
  | [] => .settle s
  | e :: rest => offerEvent e { s with stimulus := rest }

/-- The mode and counter that a 5-bit selector names (R98). -/
def State.withEdgeSelector (s : State) (sel : BitVec 5) : State :=
  if sel.getLsbD 4 then { s with mode := .transmitting, txCnt := sel.extractLsb' 0 4 }
  else { s with mode := .receiving, rxCnt := sel.extractLsb' 0 4 }

/-- The phase that a 3-bit selector names (R101). -/
def phaseOf (sel : BitVec 16) : TPhase :=
  match sel.toNat with
  | 1 => .waitEvent
  | 2 => .readFirst
  | 3 => .readAfterExt
  | 4 => .readAfterBreak
  | _ => .idle

/-- Put a word where the next step takes its row from: for an edge row and a translator row the state that selects it
and the event that runs it, for every other row the row itself (log entry 26). -/
def State.withWord (s : State) (w : TableWord) : State :=
  match w.space with
  | .edge =>
    ({ s with
      inited := true, fatal := false, irqEn := true, clkDrv := .z, stimulus := .edge false :: s.stimulus } : State).withEdgeSelector
        (w.bits.setWidth 5)
  | .translator =>
    { s with inited := true, fatal := false, tPhase := phaseOf w.bits, stimulus := .xl :: s.stimulus }
  | .dispatch | .response | .proc _ | .frameD2H | .frameH2D | .byteValue | .byteClass | .ledMaskHid | .ledMaskPs2
  | .eventFlags => { s with stimulus := .direct w :: s.stimulus }

end Sys2Proof.Machine
end

