-- ==== Sys2Proof/Machine/Step.lean ====
section
/-! DEFINITION. One step: the next event of the environment, the row it selects, that row's meaning. -/

namespace Sys2Proof.Machine

/-- One step of the block and its environment (20_memory.md R68, 30_encoding.md R103). -/
def step (s : State) : Host.Outcome State Fault Refusal :=
  match s.offer with
  | .settle s' => .next s'
  | .run w s' =>
    match decode s.params.maxCode w with
    | .ok i => exec i s'
    | .error e => .refused (.badWord e)

/-- `s` with a bare word of the opcode table placed so that the very next step runs the row it stands for; a word
that stands for none is placed as an edge selector no row has, which the step refuses. -/
def State.withFetchWord (s : State) (nbits w : Nat) : State :=
  match tableWordOf nbits w with
  | some tw => s.withWord tw
  | none => s.withWord ⟨.edge, 0x1F, .level false⟩

end Sys2Proof.Machine
end

