-- ==== Sys2Proof/Safety.lean ====
section
/-! DEFINITION. The terms claims are stated in: admissible parameters, the abstract view of the ring buffer and of a
transmission, the parts of the state by owner, stalls, and the two invariants. -/

namespace Sys2Proof.Machine

/-- The constraints the spec puts on the parameters: 00_scope.md R8 (`MAX_CODE`, `CAP`), 20_memory.md R64 (`HID_TABLE`),
R66 (`MODIFIER_SET`). -/
structure Admissible (p : Params) : Prop where
  maxCode_low : 0x1F ≤ p.maxCode
  maxCode_high : p.maxCode < 0xAA
  cap_four : 4 ≤ p.cap
  table_wf : hidTableWf p.hidTable = true
  table_gui : hidLookup p 0x1F true = 0x08
  table_plain : hidLookup p 0x1F false = 0x00
  table_range : ∀ code : Byte, p.maxCode < code → hidLookup p code false = 0 ∧ hidLookup p code true = 0
  set_nodup : p.modifierSet.Nodup
  set_shift : isModifier p 0x12 false = true
  set_ctrl : isModifier p 0x14 true = true
  set_gui : isModifier p 0x1F true = true

/-! ### What runs and where the block stands -/

/-- `n` steps, ending where one of them ends; `Sys2Proof.core`'s run, in the model's own types. -/
def runSteps : Nat → State → Result
  | 0, s => .next s
  | n + 1, s => andThen (step s) (runSteps n)

/-- The edge row with this selector is enabled: a CLK falling edge is taken and selects it (40_rx_decoder.md R110,
41_tx_encoder.md R131, 30_encoding.md R98). -/
def Selects (s : State) (sel : BitVec 5) : Prop := s.edgeTaken = true ∧ s.edgeSelector = sel

/-- The translator step of this phase is the enabled one, its own guard apart (44_translator.md R190). -/
def InPhase (s : State) (ph : TPhase) : Prop := s.taskRuns = true ∧ s.tPhase = ph

/-- The receive registers as every frame finds them (10_state.md R29 to R31). -/
def RxClean (s : State) : Prop :=
  s.rxCnt = 0 ∧ s.rxAcc = 0x00 ∧ s.rxPar = true ∧ s.rxResend = false ∧ s.rxCauses = .none

/-- Ready for slot 0 of a frame. -/
def RxReady (s : State) : Prop := s.edgeTaken = true ∧ s.mode = .receiving ∧ RxClean s

/-- A stall (60_exceptions.md R226). -/
def Stalled (s : State) : Prop := s.inited = true ∧ s.fatal = false ∧ s.clkDrv = .low ∧ s.irqEn = false

/-- The RX.DATA row of slot k, 1 to 8. -/
def rxDataRow (k : Nat) (d : Bool) : Instr :=
  match k with
  | 1 => .rxData1 d
  | 2 => .rxData2 d
  | 3 => .rxData3 d
  | 4 => .rxData4 d
  | 5 => .rxData5 d
  | 6 => .rxData6 d
  | 7 => .rxData7 d
  | _ => .rxData8 d

/-- The TX.DATA row of slot k, 0 to 7. -/
def txDataRow (k : Nat) (d : Bool) : Instr :=
  match k with
  | 0 => .txData0 d
  | 1 => .txData1 d
  | 2 => .txData2 d
  | 3 => .txData3 d
  | 4 => .txData4 d
  | 5 => .txData5 d
  | 6 => .txData6 d
  | _ => .txData7 d

/-- The row that `{mode, cnt}` selects, for a counter of 0 to 10 (30_encoding.md R98). -/
def edgeRow (m : Mode) (k : Nat) (d : Bool) : Instr :=
  match m with
  | .receiving =>
    if k = 0 then .rxStart d else if k ≤ 8 then rxDataRow k d else if k = 9 then .rxParity d else .rxStop d
  | .transmitting =>
    if k ≤ 7 then txDataRow k d else if k = 8 then .txParity d else if k = 9 then .txStop d else .txDone d

/-- The translator row of a phase (30_encoding.md R101); phase `Idle` has none. -/
def xlRow (ph : TPhase) : Option Instr :=
  match ph with
  | .idle => none
  | .waitEvent => some .xlWait
  | .readFirst => some .xlRead1
  | .readAfterExt => some .xlRead2
  | .readAfterBreak => some .xlRead3

/-- The branch of the stop slot, by priority (30_encoding.md R99). -/
def dispatchRow (s : State) : Instr :=
  if s.rxResend = true then .dispatchResend
  else if s.rxAcc = 0xFA ∨ s.rxAcc = 0xAA then .dispatchResponse
  else .dispatchQueue

/-! ### What the rules leave, written flat -/

/-- A framing error's byte test: above `MAX_CODE` and none of the four excepted bytes (40_rx_decoder.md R113). -/
def RangeError (p : Params) (b : Byte) : Prop :=
  p.maxCode < b ∧ b ≠ 0xFA ∧ b ≠ 0xAA ∧ b ≠ 0xF0 ∧ b ≠ 0xE0

/-- A transmission of b has been started (41_tx_encoder.md R130, the observable result). -/
def transmits (s : State) (b : Byte) : State :=
  { s with
    txByte := b, txCnt := 0, txPar := true, mode := .transmitting, irqEn := true, clkDrv := .z, dataDrv := .low }

/-- The bus has been released to receive mode (42_control_sequencer.md R151). -/
def released (s : State) : State := { s with mode := .receiving, dataDrv := .z, clkDrv := .z, irqEn := true }

/-- An exceptional event has been recorded, nothing else (60_exceptions.md R220). -/
def raises (s : State) (e : Exc) : State := { s with outputs := s.outputs ++ [.raised e] }

/-- The idle opportunity has been taken: a latched request claimed, or the bus released (42_control_sequencer.md
R153). -/
def idles (s : State) : State :=
  if s.seqOp = .none ∧ s.ledPending = true then
    transmits
      { s with ledPending := false, seqOp := .ledChange, seqStep := false, seqPayload := ledXlate s.ledReq }
      s.params.cmdSetLed
  else released s

/-- A framing error has been taken: recorded, and a Resend begun whatever was in progress (60_exceptions.md R233). -/
def resends (s : State) (c : Causes) : State :=
  transmits { raises s (.framingError c) with seqOp := .resend, seqStep := false } 0xFE

/-- A response has been dropped (42_control_sequencer.md R160). -/
def dropped (s : State) (b : Byte) : State :=
  match s.params.dropPolicy with
  | .stall => raises s (.droppedResponse s.seqOp s.seqStep b)
  | .abandon => released { raises s (.droppedResponse s.seqOp s.seqStep b) with seqOp := .none, seqStep := false }

/-- A byte has been queued, signalled unless it is a prefix, and the idle opportunity taken (40_rx_decoder.md R117,
43_ring_buffer.md R181). -/
def queued (s : State) (b : Byte) : State :=
  idles
    { s with
      ringMem := memWrite s.ringMem s.ringWr b
      ringWr := (s.ringWr + 1) % s.params.cap
      wake := if b = 0xF0 ∨ b = 0xE0 then s.wake else s.wake + 1 }

/-- The receive registers are back at (0, 0x00, 1, 0) (40_rx_decoder.md R114). -/
def rxCleared (s : State) : State :=
  { s with rxCnt := 0, rxAcc := 0x00, rxPar := true, rxResend := false, rxCauses := .none }

/-- What the classification of (code, ext) puts out (44_translator.md R195). -/
def keyOutput (p : Params) (code : Byte) (ext brk : Bool) : Output :=
  if hidLookup p code ext = 0x00 then .raised (.unmappedKey code ext)
  else .keyEvent ((if isModifier p code ext then 0x02 else 0x01) ||| (if brk then 0x04 else 0x00)) (hidLookup p code ext)

/-- A code has been emitted (44_translator.md R195). -/
def emitted (s : State) (code : Byte) : State :=
  { s with outputs := s.outputs ++ [keyOutput s.params code s.tExt s.tBrk], tPhase := .waitEvent }

/-- The bytes of a logical key event (30_encoding.md R94). -/
def keyBytes (ext brk : Bool) (code : Byte) : List Byte :=
  (if ext then [0xE0] else []) ++ (if brk then [0xF0] else []) ++ [code]

/-- A row that can queue a byte (20_memory.md R61). -/
def queueing (i : Instr) : Prop :=
  i = .dispatchQueue ∨ i = .byteBreak ∨ i = .byteExt ∨ (∃ d, i = .rxStop d) ∨ (∃ b, i = .ringWrite b) ∨
    ∃ b, i = .byteScan b

/-! ### The transmission of a byte -/

/-- The parity accumulator after k taken edges of the transmission of b, before completion (41_tx_encoder.md R132). -/
def txParAfter (b : Byte) (k : Nat) : Bool := (List.range (min k 8)).foldl (fun p i => p ^^ b.getLsbD i) true

/-- The drive of DATA after k taken edges of the transmission of b (41_tx_encoder.md R137). -/
def txDriveAfter (b : Byte) (k : Nat) : DataDrive :=
  if k = 0 then .low
  else if k ≤ 8 then driveOf (b.getLsbD (k - 1))
  else if k = 9 then driveOf (oddParity b)
  else .z

/-! ### The ring buffer as a queue -/

/-- How many bytes are unread (43_ring_buffer.md R180). -/
def unreadCount (s : State) : Nat := (s.ringWr + s.params.cap - s.ringRd) % s.params.cap

/-- The unread bytes, oldest first. -/
def unread (s : State) : List Byte :=
  (List.range (unreadCount s)).map fun i => s.ringByte ((s.ringRd + i) % s.params.cap)

/-- Both cursors are addresses of the buffer (10_state.md R43, R44). -/
def CursorsIn (s : State) : Prop := s.ringWr < s.params.cap ∧ s.ringRd < s.params.cap

/-- The overrun test of 43_ring_buffer.md R181: between cursors in range, CAP-1 bytes are unread. -/
def RingFull (s : State) : Prop := (s.ringWr + 1) % s.params.cap = s.ringRd

/-- A queueing row has met the full buffer in state s and t follows: `RingOverrun` is recorded, and of the block's state
nothing is said (R184). -/
def Overran (s t : State) : Prop :=
  RingFull s ∧ t.overrun = true ∧ t.params = s.params ∧ t.outputs = s.outputs ++ [.raised .ringOverrun]

/-- One more byte fits: fewer than CAP-1 bytes are unread, and the write cursor is an address (R181, R184). -/
def RingRoom (s : State) : Prop := (s.ringWr + 1) % s.params.cap ≠ s.ringRd ∧ s.ringWr < s.params.cap

/-- The buffer is not empty and holds b at the read cursor (R182). -/
def RingHolds (s : State) (b : Byte) : Prop :=
  s.ringWr ≠ s.ringRd ∧ s.ringRd < s.params.cap ∧ s.ringByte s.ringRd = b

/-- A byte that raises the wake signal when it is queued (40_rx_decoder.md R117). -/
def signals (b : Byte) : Bool := !b.isPrefix

/-- The signal a pass of the translator's loop has consumed and whose code it has not read yet. -/
def inPass (s : State) : Nat :=
  match s.tPhase with
  | .idle | .waitEvent => 0
  | .readFirst | .readAfterExt | .readAfterBreak => 1

/-! ### Parts of the state, for frames -/

/-- What the consumer task owns (10_state.md R20 (b)). -/
def SameTask (s t : State) : Prop :=
  t.ringRd = s.ringRd ∧ t.tPhase = s.tPhase ∧ t.tExt = s.tExt ∧ t.tBrk = s.tBrk

/-- The receive registers. -/
def SameRx (s t : State) : Prop :=
  t.rxCnt = s.rxCnt ∧ t.rxAcc = s.rxAcc ∧ t.rxPar = s.rxPar ∧ t.rxResend = s.rxResend ∧ t.rxCauses = s.rxCauses

/-- The transmit registers. -/
def SameTx (s t : State) : Prop := t.txCnt = s.txCnt ∧ t.txByte = s.txByte ∧ t.txPar = s.txPar

/-- Mode, interrupt enable and line drives. -/
def SameLines (s t : State) : Prop :=
  t.mode = s.mode ∧ t.irqEn = s.irqEn ∧ t.clkDrv = s.clkDrv ∧ t.dataDrv = s.dataDrv

/-- The sequencer's registers. -/
def SameSeq (s t : State) : Prop := t.seqOp = s.seqOp ∧ t.seqStep = s.seqStep ∧ t.seqPayload = s.seqPayload

/-- `fatal`, `inited` and the status LED. -/
def SameStatus (s t : State) : Prop := t.fatal = s.fatal ∧ t.inited = s.inited ∧ t.statusLed = s.statusLed

/-- Everything the interrupt context owns (10_state.md R20 (a)), the ring memory by every byte. -/
def SameInterrupt (s t : State) : Prop :=
  SameRx s t ∧ SameTx s t ∧ SameLines s t ∧ SameSeq s t ∧ SameStatus s t ∧ t.ringWr = s.ringWr ∧
    ∀ a, t.ringByte a = s.ringByte a

/-! ### The invariants -/

/-- What holds of the bus side of the block between operations. -/
structure BusBlock (s : State) : Prop where
  /-- 10_state.md R28. -/
  rxCnt_le : s.rxCnt.toNat ≤ 10
  /-- R32. -/
  txCnt_le : s.txCnt.toNat ≤ 10
  /-- R29, R31. -/
  rx_clean : s.rxCnt = 0 → s.rxAcc = 0 ∧ s.rxResend = false
  /-- The parity accumulator is the parity of what has been assembled (R30; 40_rx_decoder.md R112). -/
  rx_par : s.rxPar = oddParity s.rxAcc
  /-- Slots not received yet are 0 in the accumulator (40_rx_decoder.md R112). -/
  rx_bits : 1 ≤ s.rxCnt.toNat → s.rxCnt.toNat ≤ 9 → s.rxAcc.toNat < 2 ^ (s.rxCnt.toNat - 1)
  /-- The flag is set exactly when a cause has been seen (60_exceptions.md R221). -/
  rx_causes : s.rxResend = (s.rxCauses.startBit || s.rxCauses.parity || s.rxCauses.range)
  /-- 10_state.md R36. -/
  seq_step : s.seqOp = .none ∨ s.seqOp = .resend → s.seqStep = false
  /-- During a transmission (41_tx_encoder.md R130, R132, R137). -/
  transmitting : s.mode = .transmitting →
    s.inited = true ∧ s.fatal = false ∧ s.irqEn = true ∧ s.clkDrv = .z ∧ s.rxCnt = 0 ∧
      s.txPar = txParAfter s.txByte s.txCnt.toNat ∧ s.dataDrv = txDriveAfter s.txByte s.txCnt.toNat
  /-- In receive mode (10_state.md R22; 42_control_sequencer.md R155). -/
  receiving : s.mode = .receiving → s.dataDrv = .z ∧ s.txCnt = 0 ∧ s.txPar = true ∧ s.seqOp ≠ .resend
  /-- After `init` the interrupt is masked exactly while the host holds CLK low. -/
  masked : s.inited = true → (s.irqEn = false ↔ s.clkDrv = .low)
  /-- Before `init` the block is quiescent (70_reset_and_hazards.md R251). -/
  quiet : s.inited = false →
    s.irqEn = false ∧ s.clkDrv = .z ∧ s.mode = .receiving ∧ s.rxCnt = 0 ∧ s.seqOp = .none ∧ s.ledPending = false ∧
      s.fatal = false ∧ s.tPhase = .idle
  /-- The task exists from `init` on (60_exceptions.md R240). -/
  started : s.inited = true → s.tPhase ≠ .idle
  /-- A fatal failure freezes the block as RX.STOP had made it (42_control_sequencer.md R157 (b)). -/
  frozen : s.fatal = true →
    s.irqEn = false ∧ s.clkDrv = .low ∧ s.rxCnt = 10 ∧ s.seqOp = .reset ∧ s.seqStep = true

/-- The bus invariant, while the environment offers nothing but the events of the spec and with no `RingOverrun` recorded,
the premise that 43_ring_buffer.md R184 asks of every claim. -/
structure BusInv (s : State) : Prop where
  /-- No `direct` event is offered. -/
  spec_events : s.stimulus.all Event.isSpec = true
  block : s.overrun = false → BusBlock s

/-- What holds of the ring buffer, the wake signal and the translator between operations. -/
structure RingBlock (s : State) : Prop where
  /-- 10_state.md R43, R44. -/
  cursors : CursorsIn s
  /-- Every unread byte has been written since reset (10_state.md R42). -/
  written : ∀ i < unreadCount s, (memRead s.ringMem ((s.ringRd + i) % s.params.cap)).isSome = true
  /-- Each pending signal, and the one of the pass in progress, has a non-prefix byte still unread (92_eei_decisions.md
  D13). -/
  signalled : s.wake + inPass s ≤ (unread s).countP signals

/-- The ring invariant, under the premises of the bus invariant; what it says of the memory's form needs the events
only. -/
structure RingInv (s : State) : Prop where
  /-- No `direct` event is offered. -/
  spec_events : s.stimulus.all Event.isSpec = true
  /-- 00_scope.md R8. -/
  cap_four : 4 ≤ s.params.cap
  /-- The memory is in its canonical form. -/
  mem_wf : Memory.wf s.ringMem = true
  /-- Nothing stands outside the buffer (20_memory.md R61). -/
  mem_in : ∀ c ∈ s.ringMem, c.1 < s.params.cap
  queue : s.overrun = false → RingBlock s

end Sys2Proof.Machine
end

