-- ==== Sys2Proof/Certificates/Slice0/Obligations.lean ====
section
/-! DEFINITION. The statements for the provers, from the numbered rules of the spec. The flat forms they use (`transmits`,
`released`, `idles`, `queued`, ...) are in Sys2Proof/Safety.lean. -/

open Sys2Proof Sys2Proof.Machine

/-! ## Encoding -/

/-- Words written out bit by bit from the tables of 30_encoding.md decode to the rows they stand for, one or more per
format; the two words of byte class for every `MAX_CODE` that puts the byte in the class. Nothing but a sanity check. -/
def Obligations.SampleWordsDecode : Prop :=
  ∀ mc : Byte,
    decode mc ⟨.edge, 0b0000000000001001, .level true⟩ = .ok (.rxParity true) ∧
    decode mc ⟨.edge, 0b0000000000011010, .level false⟩ = .ok (.txDone false) ∧
    decode mc ⟨.dispatch, 0b0000000000000001, .none⟩ = .ok .dispatchResponse ∧
    decode mc ⟨.response, 0b0000010111111010, .none⟩ = .ok .seqResetFatal ∧
    decode mc ⟨.translator, 0b0000000000000100, .none⟩ = .ok .xlRead3 ∧
    decode mc ⟨.proc .seqStart, 0, .op .resend⟩ = .ok (.seqStart .resend) ∧
    decode mc ⟨.frameD2H, 0b0000010000111000, .none⟩ = .ok (.frameD2H false 0x1C false true) ∧
    decode mc ⟨.frameH2D, 0b0000011111101101, .none⟩ = .ok (.frameH2D 0xED true true true) ∧
    decode mc ⟨.byteValue, 0b0000000011110000, .none⟩ = .ok .byteBreak ∧
    (0x1C ≤ mc → decode mc ⟨.byteClass, 0b0000000000011100, .none⟩ = .ok (.byteScan 0x1C)) ∧
    (mc < 0x90 → decode mc ⟨.byteClass, 0b0000000010010000, .none⟩ = .ok (.byteOutOfRange 0x90)) ∧
    decode mc ⟨.ledMaskHid, 0b0000000000000101, .none⟩ = .ok (.ledMaskHid 0x05) ∧
    decode mc ⟨.ledMaskPs2, 0b0000000000000110, .none⟩ = .ok (.ledMaskPs2 true true false) ∧
    decode mc ⟨.eventFlags, 0b0000000000000101, .none⟩ = .ok (.eventFlags true false true)

/-- 30_encoding.md R80 to R102: decoding the encoder's word gives the instruction back, for every well-formed
instruction, every operand and every `MAX_CODE`. -/
def Obligations.DecodeEncodeAgree : Prop :=
  ∀ (mc : Byte) (i : Instr), i.wf mc = true → decode mc (encode i) = .ok i

/-- The other direction: a word that decodes stands for a well-formed instruction, and is its only word, except that
`{rx_resend, is_response}` = 11 and 10 are both DISPATCH.RESEND (30_encoding.md R99). -/
def Obligations.DecodedWordIsItsEncoding : Prop :=
  ∀ (mc : Byte) (w : TableWord) (i : Instr), decode mc w = .ok i →
    i.wf mc = true ∧ (encode i = w ∨ (i = .dispatchResend ∧ w = ⟨.dispatch, 0b11, .none⟩))

/-! ## The step -/

/-- A step whose next event offers a word that decodes to i is `exec` of i. -/
def Obligations.StepRunsDecodedInstruction : Prop :=
  ∀ (s u : State) (w : TableWord) (i : Instr), s.offer = .run w u → decode s.params.maxCode w = .ok i →
    step s = exec i u

/-- 30_encoding.md R103 and 10_state.md R24: which row each event runs, the event itself taken off, and the events that
find nothing enabled and leave all else as it was. Two events have statements of their own: a taken EDGE
(`TakenEdgeRunsSelectedRow`) and RESET (`ResetEventRestoresPowerOn`). The model's own choices here: `direct` (log entry
5), that a step with nothing offered changes nothing (entry 6), that a frame and TXCLK run a row (entry 11), and that
`XL*` stays at the head and runs one step per step (entry 22). -/
def Obligations.EventsRunTheirRows : Prop :=
  (∀ s : State, s.stimulus = [] → step s = .next s) ∧
  ∀ (s : State) (e : Event) (rest : List Event), s.stimulus = e :: rest →
    (e = .init → step s = exec .init { s with stimulus := rest }) ∧
    (∀ m, e = .led m → step s = exec (.changeLed m) { s with stimulus := rest }) ∧
    (∀ d, e = .edge d → s.edgeTaken = false → step s = .next { s with stimulus := rest }) ∧
    (∀ i, e = .xl → s.taskRuns = true → xlRow s.tPhase = some i → step s = exec i { s with stimulus := rest }) ∧
    (e = .xl → s.taskRuns = false ∨ s.tPhase = .idle → step s = .next { s with stimulus := rest }) ∧
    (∀ i, e = .xlAll → s.xlEnabled = true → xlRow s.tPhase = some i → step s = exec i s) ∧
    (e = .xlAll → s.xlEnabled = false → step s = .next { s with stimulus := rest }) ∧
    (∀ f, e = .frame f → step s = exec
      (.frameD2H (f.getLsbD 0) (f.extractLsb' 1 8) (f.getLsbD 9) (f.getLsbD 10)) { s with stimulus := rest }) ∧
    (e = .txclk → step s = exec (.frameH2D 0xFF true true true) { s with stimulus := rest }) ∧
    (∀ w i, e = .direct w → decode s.params.maxCode w = .ok i → step s = exec i { s with stimulus := rest })

/-- 30_encoding.md R98: a taken edge runs the row that `{mode, cnt}` selects; counters 11 to 15 are refused. -/
def Obligations.TakenEdgeRunsSelectedRow : Prop :=
  ∀ (s : State) (d : Bool) (rest : List Event), s.stimulus = .edge d :: rest → s.edgeTaken = true →
    (s.cnt.toNat ≤ 10 → step s = exec (edgeRow s.mode s.cnt.toNat d) { s with stimulus := rest }) ∧
    (11 ≤ s.cnt.toNat → step s = .refused (.badWord .reservedSelector))

/-- 00_scope.md R10, "enabled when": an edge row or a translator row whose guard is false changes no state. -/
def Obligations.DisabledRowChangesNothing : Prop :=
  ∀ s : State,
    (∀ (k : Nat) (d : Bool), k ≤ 10 → ¬Selects s (BitVec.ofNat 5 k) → exec (edgeRow .receiving k d) s = .next s) ∧
    (∀ (k : Nat) (d : Bool), k ≤ 10 → ¬Selects s (BitVec.ofNat 5 (16 + k)) →
      exec (edgeRow .transmitting k d) s = .next s) ∧
    (∀ (ph : TPhase) (i : Instr), xlRow ph = some i → ¬InPhase s ph → exec i s = .next s)

/-! ## Reset -/

/-- 10_state.md R52: every piece of state at its power-on reset value, for every setting of the parameters and every
draw of the status LED; `status_led` and the bytes of `ring_mem` are unspecified there, so nothing is said of them. -/
def Obligations.PowerOnResetValues : Prop :=
  ∀ (p : Params) (led : LedState), (fun s : State =>
    s.inited = false ∧ s.fatal = false ∧ s.mode = .receiving ∧ s.irqEn = false ∧ s.clkDrv = .z ∧ s.dataDrv = .z ∧
    s.rxCnt = 0 ∧ s.rxAcc = 0x00 ∧ s.rxPar = true ∧ s.rxResend = false ∧ s.txCnt = 0 ∧ s.txByte = 0x00 ∧
    s.txPar = true ∧ s.seqOp = .none ∧ s.seqStep = false ∧ s.seqPayload = 0x00 ∧ s.ledPending = false ∧
    s.ledReq = 0x00 ∧ s.ringWr = 0 ∧ s.ringRd = 0 ∧ s.wake = 0 ∧ s.tPhase = .idle ∧ s.tExt = false ∧
    s.tBrk = false) (State.powerOn p led)

/-- 70_reset_and_hazards.md R250: the event RESET puts the block in its power-on state, whatever it was doing, with
some state of the status LED: `inited`, `fatal` and a recorded `RingOverrun` are cleared. That `params`, `stimulus` and
`outputs` outlive it is the model's choice (log entry 19). -/
def Obligations.ResetEventRestoresPowerOn : Prop :=
  ∀ (s : State) (rest : List Event), s.stimulus = .reset :: rest →
    ∃ (led : LedState) (t : State), step s = .next t ∧
      t = { State.powerOn s.params led with stimulus := rest, outputs := s.outputs, draws := s.draws + 1 } ∧
      t.inited = false ∧ t.fatal = false ∧ t.overrun = false

/-- 10_state.md R26, 70_reset_and_hazards.md R251: before `init` no edge is taken, the translator takes no step and
`changeLedState` is refused; `init` is the one call that runs. -/
def Obligations.NothingButInitRunsBeforeInit : Prop :=
  ∀ (s : State) (e : Event) (rest : List Event), s.inited = false → s.stimulus = e :: rest →
    ((∃ d, e = .edge d) ∨ e = .xl ∨ e = .xlAll → step s = .next { s with stimulus := rest }) ∧
    (∀ m, e = .led m → step s = .refused .ledBeforeInit) ∧
    (e = .init → ∃ t, step s = .next t ∧ t.inited = true)

/-- 70_reset_and_hazards.md R250: no event but RESET clears a recorded `RingOverrun`, `inited` or `fatal`, and, of the
events the spec has, none but RESET ends a stall (60_exceptions.md R226); the parameters never change (20_memory.md R74).
A step that itself overruns leaves `inited` and `fatal` without a specified value (43_ring_buffer.md R184, log entry
12). -/
def Obligations.OnlyResetUndoes : Prop :=
  ∀ s t : State, step s = .next t →
    t.params = s.params ∧
    ((∀ rest, s.stimulus ≠ .reset :: rest) →
      (s.overrun = true → t.overrun = true) ∧
      (¬Overran s t → (s.inited = true → t.inited = true) ∧ (s.fatal = true → t.fatal = true)) ∧
      (Stalled s → (∀ w rest, s.stimulus ≠ .direct w :: rest) → Stalled t))

/-! ## The RX decoder -/

/-- 40_rx_decoder.md R111. `rxCauses` is the bookkeeping of 60_exceptions.md R221. -/
def Obligations.RxStartResult : Prop :=
  ∀ (s : State) (d : Bool), Selects s 0b00000 →
    exec (.rxStart d) s = .next { s with
      rxCnt := 1
      rxResend := if d = true then true else s.rxResend
      rxCauses := if d = true then { s.rxCauses with startBit := true } else s.rxCauses }

/-- 40_rx_decoder.md R112, the accumulator bit by bit. -/
def Obligations.RxDataResult : Prop :=
  ∀ (s : State) (k : Nat) (d : Bool), 1 ≤ k → k ≤ 8 → Selects s (BitVec.ofNat 5 k) →
    ∃ acc : Byte,
      (∀ i, i < 8 → acc.getLsbD i = if i = k - 1 then s.rxAcc.getLsbD i || d else s.rxAcc.getLsbD i) ∧
      exec (rxDataRow k d) s = .next { s with rxAcc := acc, rxPar := s.rxPar ^^ d, rxCnt := BitVec.ofNat 4 (k + 1) }

/-- 40_rx_decoder.md R113: the parity checker and the range checker. `rxCauses` is the bookkeeping of
60_exceptions.md R221. -/
def Obligations.RxParityResult : Prop :=
  ∀ (s : State) (d : Bool), Selects s 0b01001 →
    ∃ (resend : Bool) (causes : Causes),
      (resend = true ↔ s.rxResend = true ∨ d ≠ s.rxPar ∨ RangeError s.params s.rxAcc) ∧
      causes.startBit = s.rxCauses.startBit ∧
      (causes.parity = true ↔ s.rxCauses.parity = true ∨ d ≠ s.rxPar) ∧
      (causes.range = true ↔ s.rxCauses.range = true ∨ RangeError s.params s.rxAcc) ∧
      exec (.rxParity d) s = .next { s with rxResend := resend, rxCauses := causes, rxCnt := 10 }

/-- 40_rx_decoder.md R114, 30_encoding.md R99: the interrupt masked and CLK driven low, then the branch by priority,
then, unless it was fatal, the receive registers cleared; the stop level plays no part. Where the branch would queue into
the full buffer, the event `RingOverrun` (43_ring_buffer.md R184). -/
def Obligations.RxStopRunsItsBranch : Prop :=
  ∀ (s : State) (d : Bool), Selects s 0b01010 →
    (¬(dispatchRow s = .dispatchQueue ∧ RingFull s) →
      exec (.rxStop d) s = andThen (exec (dispatchRow s) { s with irqEn := false, clkDrv := .low }) fun u =>
        .next (if u.fatal = true then u else rxCleared u)) ∧
    (dispatchRow s = .dispatchQueue → RingFull s → ∃ t, exec (.rxStop d) s = .next t ∧ t.overrun = true)

/-- Where the stop slot completes: always, but for an overrun and for the (seq_op, seq_step) that no rule reaches. What
it leaves alone: the task's state, the caller's mask, and all memory but the byte at the write cursor. -/
def Obligations.RxStopCompletes : Prop :=
  ∀ (s : State) (d : Bool), Selects s 0b01010 → (dispatchRow s = .dispatchQueue → RingRoom s) →
    (s.seqOp = .none ∨ s.seqOp = .resend → s.seqStep = false) →
    ∃ t, exec (.rxStop d) s = .next t ∧ ((t.fatal = true ∧ SameRx s t) ∨ (t.fatal = false ∧ RxClean t)) ∧
      SameTask s t ∧ t.ledReq = s.ledReq ∧ t.inited = s.inited ∧ t.params = s.params ∧ t.overrun = s.overrun ∧
      (∀ a, a ≠ s.ringWr → t.ringByte a = s.ringByte a) ∧
      (dispatchRow s ≠ .dispatchQueue →
        (∀ a, t.ringByte a = s.ringByte a) ∧ t.ringWr = s.ringWr ∧ t.wake = s.wake)

/-- 40_rx_decoder.md R115, 60_exceptions.md R233: the framing error is recorded and one Resend begun, whatever sequence
was in progress; nothing is queued. -/
def Obligations.DispatchResendResult : Prop :=
  ∀ s : State,
    exec .dispatchResend s = .next { s with
      outputs := s.outputs ++ [.raised (.framingError s.rxCauses)]
      seqOp := .resend, seqStep := false
      txByte := 0xFE, txCnt := 0, txPar := true
      mode := .transmitting, irqEn := true, clkDrv := .z, dataDrv := .low }

/-- 40_rx_decoder.md R117: the byte is queued, the consumer signalled unless it is a prefix, the idle opportunity taken;
of the memory the byte at the write cursor changes and no other. -/
def Obligations.DispatchQueueResult : Prop :=
  ∀ s : State, RingRoom s →
    exec .dispatchQueue s = .next (queued s s.rxAcc) ∧
    ∀ a : Nat, (queued s s.rxAcc).ringByte a = if a = s.ringWr then s.rxAcc else s.ringByte a

/-- 40_rx_decoder.md R116, 30_encoding.md R100: SeqResponse and DISPATCH.RESPONSE run the transition that the selector
`{seq_op, seq_step, b}` names, and are refused where it names none. -/
def Obligations.ResponseRunsSelectedTransition : Prop :=
  ∀ (s : State) (b : Byte),
    (s.rxAcc = b → exec .dispatchResponse s = exec (.seqResponse b) s) ∧
    match decode s.params.maxCode ⟨.response, (s.responseSelector b).setWidth 16, .none⟩ with
    | .ok i => exec (.seqResponse b) s = exec i s
    | .error _ => exec (.seqResponse b) s = .refused (.noTransition s.seqOp s.seqStep b)

/-- A response always completes where `seq_step` is legal (10_state.md R36); it is never queued and never signalled, it
leaves the receive registers, the task and the latched mask alone, and it changes `seq_op` only to end the operation
or by the idle opportunity (42_control_sequencer.md R154). Read from the spec by inference: that BYTE.ACK and BYTE.BAT
(30_encoding.md R86), run as rows, feed their byte to the sequencer (log entry 11, DEDUCED, no operation the hardware
offers by itself), and that DISPATCH.RESPONSE takes its byte from `rx_acc` (log entry 20, DEDUCED). -/
def Obligations.ResponseCompletes : Prop :=
  ∀ (s : State) (b : Byte), b = 0xFA ∨ b = 0xAA →
    (s.seqOp = .none ∨ s.seqOp = .resend → s.seqStep = false) →
    ∃ t, exec (.seqResponse b) s = .next t ∧
      (s.rxAcc = b → exec .dispatchResponse s = .next t) ∧
      (b = 0xFA → exec .byteAck s = .next t) ∧ (b = 0xAA → exec .byteBat s = .next t) ∧
      SameRx s t ∧ SameTask s t ∧ t.ledReq = s.ledReq ∧ t.inited = s.inited ∧ t.params = s.params ∧
      t.overrun = s.overrun ∧ t.ringWr = s.ringWr ∧ t.wake = s.wake ∧ (∀ a, t.ringByte a = s.ringByte a) ∧
      (t.seqOp = s.seqOp ∨ t.seqOp = .none ∨ (t.seqOp = .ledChange ∧ s.ledPending = true))

/-! ## The Control Sequencer -/

/-- 42_control_sequencer.md R156, R157: the three transitions of the Reset sequence. -/
def Obligations.SeqResetTransitions : Prop :=
  ∀ s : State,
    exec .seqResetAck s = .next { s with
      seqStep := true, mode := .receiving, dataDrv := .z, clkDrv := .z, irqEn := true } ∧
    exec .seqResetBat s = .next (idles { s with
      statusLed := .off, outputs := s.outputs ++ [.statusLed .off], seqOp := .none, seqStep := false }) ∧
    exec .seqResetFatal s = .next { s with
      fatal := true, outputs := s.outputs ++ [.raised (.fatalProtocolFailure 0xFA)] }

/-- 42_control_sequencer.md R158, R159: the two transitions of the LedChange sequence. -/
def Obligations.SeqLedTransitions : Prop :=
  ∀ s : State,
    exec .seqLedAck1 s = .next (transmits { s with seqStep := true } s.seqPayload) ∧
    exec .seqLedAck2 s = .next (idles { s with seqOp := .none, seqStep := false })

/-- 42_control_sequencer.md R160, R161: every dropped response, under both values of `DROP_POLICY`. -/
def Obligations.SeqDropTransitions : Prop :=
  ∀ (s : State) (i : Instr) (b : Byte),
    (i, b) ∈ [(Instr.seqDropReset0, (0xAA : Byte)), (.seqDropLed0, 0xAA), (.seqDropLed1, 0xAA), (.seqDropIdleAck, 0xFA),
      (.seqDropIdleBat, 0xAA), (.seqDropResend b, b)] →
    (s.params.dropPolicy = .stall →
      exec i s = .next { s with outputs := s.outputs ++ [.raised (.droppedResponse s.seqOp s.seqStep b)] }) ∧
    (s.params.dropPolicy = .abandon →
      exec i s = .next { s with
        outputs := s.outputs ++ [.raised (.droppedResponse s.seqOp s.seqStep b)]
        seqOp := .none, seqStep := false, mode := .receiving, dataDrv := .z, clkDrv := .z, irqEn := true })

/-- 42_control_sequencer.md R151. -/
def Obligations.ReleaseToReceiveResult : Prop :=
  ∀ s : State, exec .releaseToReceive s = .next { s with
    mode := .receiving, dataDrv := .z, clkDrv := .z, irqEn := true }

/-- 42_control_sequencer.md R152: the three operations, each overriding whatever is in progress. -/
def Obligations.SeqStartResult : Prop :=
  ∀ s : State,
    exec (.seqStart .resend) s = .next (transmits { s with seqOp := .resend, seqStep := false } 0xFE) ∧
    exec (.seqStart .reset) s = .next (transmits { s with seqOp := .reset, seqStep := false } s.params.cmdReset) ∧
    exec (.seqStart .ledChange) s = .next (transmits
      { s with seqOp := .ledChange, seqStep := false, seqPayload := ledXlate s.ledReq } s.params.cmdSetLed)

/-- 42_control_sequencer.md R153: the latch is claimed with no sequence active and a request latched, and only then. -/
def Obligations.IdleOpportunityResult : Prop :=
  ∀ s : State,
    (s.seqOp = .none ∧ s.ledPending = true →
      exec .idleOpportunity s = .next (transmits
        { s with ledPending := false, seqOp := .ledChange, seqStep := false, seqPayload := ledXlate s.ledReq }
        s.params.cmdSetLed)) ∧
    (s.seqOp ≠ .none ∨ s.ledPending = false → exec .idleOpportunity s = .next (released s))

/-! ## The TX encoder -/

/-- 41_tx_encoder.md R130, the observable result of `TxStart`. -/
def Obligations.TxStartResult : Prop :=
  ∀ (s : State) (b : Byte), exec (.txStart b) s = .next { s with
    txByte := b, txCnt := 0, txPar := true, mode := .transmitting, irqEn := true, clkDrv := .z, dataDrv := .low }

/-- 41_tx_encoder.md R132. -/
def Obligations.TxDataResult : Prop :=
  ∀ (s : State) (k : Nat) (d : Bool), k ≤ 7 → Selects s (BitVec.ofNat 5 (16 + k)) →
    exec (txDataRow k d) s = .next { s with
      dataDrv := if s.txByte.getLsbD k = true then .high else .low
      txPar := s.txPar ^^ s.txByte.getLsbD k
      txCnt := BitVec.ofNat 4 (k + 1) }

/-- 41_tx_encoder.md R133, R134, R135. -/
def Obligations.TxTailResult : Prop :=
  ∀ (s : State) (d : Bool),
    (Selects s 0b11000 → exec (.txParity d) s = .next { s with
      dataDrv := if s.txPar = true then .high else .low, txCnt := 9 }) ∧
    (Selects s 0b11001 → exec (.txStop d) s = .next { s with dataDrv := .z, txCnt := 10 }) ∧
    (Selects s 0b11010 → exec (.txDone d) s = .next { s with
      txCnt := 0, txPar := true, mode := .receiving, seqOp := if s.seqOp = .resend then .none else s.seqOp })

/-- 41_tx_encoder.md R136: in transmit mode the level on DATA makes no difference to what a step does. -/
def Obligations.TxIgnoresData : Prop :=
  ∀ (s : State) (d d' : Bool) (rest : List Event), s.mode = .transmitting →
    step { s with stimulus := .edge d :: rest } = step { s with stimulus := .edge d' :: rest }

/-- 41_tx_encoder.md R137, R131: from `TxStart(b)` on, whatever the device drives, the drive of DATA after each of the 11
edges is the spec's sequence, and the 11th returns the block to receive mode. -/
def Obligations.TxDriveSequence : Prop :=
  ∀ (s : State) (b : Byte) (ds : List Bool) (rest : List Event), s.inited = true → s.fatal = false → ds.length ≤ 11 →
    ∃ t, runSteps ds.length { transmits s b with stimulus := ds.map .edge ++ rest } = .next t ∧
      t.dataDrv = txDriveAfter b ds.length ∧ t.txByte = b ∧ t.clkDrv = .z ∧ t.irqEn = true ∧ t.stimulus = rest ∧
      (ds.length < 11 → t.mode = .transmitting ∧ t.txCnt.toNat = ds.length ∧ t.seqOp = s.seqOp) ∧
      (ds.length = 11 → t = { s with
        txByte := b, txCnt := 0, txPar := true, mode := .receiving, irqEn := true, clkDrv := .z, dataDrv := .z
        seqOp := if s.seqOp = .resend then .none else s.seqOp, stimulus := rest })

/-! ## The ring buffer -/

/-- 43_ring_buffer.md R181: the byte stored, then the cursor moved; in the case of R184 the event `RingOverrun` recorded
and no value given to the rest of the block. -/
def Obligations.RingWriteResult : Prop :=
  ∀ (s : State) (b : Byte),
    ((s.ringWr + 1) % s.params.cap = s.ringRd → ∃ t, exec (.ringWrite b) s = .next t ∧
      t.overrun = true ∧ t.outputs = s.outputs ++ [.raised .ringOverrun]) ∧
    ((s.ringWr + 1) % s.params.cap ≠ s.ringRd → s.ringWr < s.params.cap →
      ∃ t, exec (.ringWrite b) s = .next t ∧
        t = { s with ringMem := t.ringMem, ringWr := (s.ringWr + 1) % s.params.cap } ∧
        t.ringByte s.ringWr = b ∧ ∀ a, a ≠ s.ringWr → t.ringByte a = s.ringByte a)

/-- 43_ring_buffer.md R184: with CAP-1 bytes unread every row that queues answers a state in which `RingOverrun` is
recorded. Read from the spec by inference: that BYTE.BREAK, BYTE.EXT and BYTE.SCAN (30_encoding.md R86), run as rows,
queue their byte (log entry 11, DEDUCED, no operation the hardware offers by itself), and that the parameters and the
environment's events outlive the overrun (log entry 12). -/
def Obligations.FullBufferOverruns : Prop :=
  ∀ (s : State) (i : Instr), CursorsIn s → unreadCount s = s.params.cap - 1 → queueing i →
    (∀ d, i = .rxStop d → Selects s 0b01010 ∧ dispatchRow s = .dispatchQueue) →
    ∃ t, exec i s = .next t ∧ Overran s t ∧ t.stimulus = s.stimulus

/-- 43_ring_buffer.md R182: the byte at the read cursor, and the cursor moved, whatever has been written there (10_state.md
R42); on an empty buffer the caller waits. That the byte lands in `ret` is the model's choice (log entry 9), and that a
read cursor outside the buffer, where 20_memory.md R61 has no address, stops the row (log entry 12). -/
def Obligations.RingReadResult : Prop :=
  ∀ s : State,
    (s.ringWr = s.ringRd → exec .ringRead s = .next s) ∧
    (s.ringWr ≠ s.ringRd → s.ringRd < s.params.cap →
      exec .ringRead s = .next { s with ret := s.ringByte s.ringRd, ringRd := (s.ringRd + 1) % s.params.cap }) ∧
    (s.ringWr ≠ s.ringRd → s.params.cap ≤ s.ringRd → exec .ringRead s = .fault (.ringAddress s.ringRd))

/-- 43_ring_buffer.md R180, R182: the buffer is empty exactly when the cursors meet and holds at most CAP-1 bytes; a write
appends to the unread bytes, a read takes the oldest. That it lands in `ret` is the model's choice (log entry 9). -/
def Obligations.RingIsFirstInFirstOut : Prop :=
  ∀ s : State, CursorsIn s →
    (unread s = [] ↔ s.ringWr = s.ringRd) ∧ (unread s).length ≤ s.params.cap - 1 ∧
    (∀ b, RingRoom s → ∃ t, exec (.ringWrite b) s = .next t ∧ unread t = unread s ++ [b]) ∧
    (∀ b q, unread s = b :: q → ∃ t, exec .ringRead s = .next t ∧ t.ret = b ∧ unread t = q)

/-- 20_memory.md R61: no row writes a byte of the ring buffer but at the write cursor, none but the queueing rows writes
one at all, and only they move the write cursor, by one place. That BYTE.BREAK, BYTE.EXT and BYTE.SCAN, run as rows, are
among them is read from 30_encoding.md R86 by inference (log entry 11, DEDUCED). Of a row that overruns nothing is said
(43_ring_buffer.md R184), and only a queueing row can. -/
def Obligations.OnlyQueueingWritesMemory : Prop :=
  ∀ (i : Instr) (s t : State), exec i s = .next t →
    (¬queueing i → (∀ a, t.ringByte a = s.ringByte a) ∧ t.ringWr = s.ringWr ∧ t.overrun = s.overrun) ∧
    (Overran s t ∨ (∀ a, a ≠ s.ringWr → t.ringByte a = s.ringByte a) ∧
      (t.ringWr = s.ringWr ∨ t.ringWr = (s.ringWr + 1) % s.params.cap))

/-! ## The translator -/

/-- 44_translator.md R191. -/
def Obligations.XlWaitResult : Prop :=
  ∀ s : State, InPhase s .waitEvent →
    (0 < s.wake → exec .xlWait s = .next { s with
      wake := s.wake - 1, tExt := false, tBrk := false, tPhase := .readFirst }) ∧
    (s.wake = 0 → exec .xlWait s = .next s)

/-- 44_translator.md R192, R193, R194: the three read steps on a buffer that holds b, and on an empty one. -/
def Obligations.XlReadResults : Prop :=
  ∀ s : State,
    (s.ringWr = s.ringRd → exec .xlRead1 s = .next s ∧ exec .xlRead2 s = .next s ∧ exec .xlRead3 s = .next s) ∧
    ∀ (b : Byte) (u : State), RingHolds s b → u = { s with ringRd := (s.ringRd + 1) % s.params.cap } →
      (InPhase s .readFirst → exec .xlRead1 s = .next
        (if b = 0xE0 then { u with tExt := true, tPhase := .readAfterExt }
        else if b = 0xF0 then { u with tBrk := true, tPhase := .readAfterBreak }
        else emitted u b)) ∧
      (InPhase s .readAfterExt → exec .xlRead2 s = .next
        (if b = 0xF0 then { u with tBrk := true, tPhase := .readAfterBreak } else emitted u b)) ∧
      (InPhase s .readAfterBreak → exec .xlRead3 s = .next (emitted u b))

/-- 44_translator.md R195: one key event for a mapped key, the event UnmappedKey for any other, and back to waiting. -/
def Obligations.EmitResult : Prop :=
  ∀ (s : State) (code : Byte),
    ∃ o, exec (.emit code) s = .next { s with outputs := s.outputs ++ [o], tPhase := .waitEvent } ∧
      (hidLookup s.params code s.tExt = 0 → o = .raised (.unmappedKey code s.tExt)) ∧
      (hidLookup s.params code s.tExt ≠ 0 → ∃ f : Byte, o = .keyEvent f (hidLookup s.params code s.tExt) ∧
        (f.getLsbD 0 = true ↔ (code, s.tExt) ∉ s.params.modifierSet) ∧
        (f.getLsbD 1 = true ↔ (code, s.tExt) ∈ s.params.modifierSet) ∧ f.getLsbD 2 = s.tBrk ∧ f.toNat < 8)

/-- 20_memory.md R63, R65, 30_encoding.md R90 (and R92 for EVENTFLAGS): the pure functions as rows. The model's choices
here: that their value lands in `ret` (log entry 9), and that `HID_TABLE` is held at address code + 256 for an extended
code and reads 0 where it lists nothing (log entry 21). -/
def Obligations.LookupResults : Prop :=
  ∀ s : State,
    (∀ (code : Byte) (ext : Bool), exec (.hidLookup code ext) s = .next { s with
      ret := (memRead s.params.hidTable (if ext = true then code.toNat + 256 else code.toNat)).getD 0 }) ∧
    (∀ (code : Byte) (ext : Bool), exec (.isModifier code ext) s = .next { s with
      ret := if (code, ext) ∈ s.params.modifierSet then 1 else 0 }) ∧
    (∀ m : Byte, exec (.ledXlate m) s = .next { s with
      ret := ((m &&& 0x01) <<< 1) ||| ((m &&& 0x02) <<< 1) ||| ((m &&& 0x04) >>> 2) }) ∧
    (∀ b m k : Bool, ∃ f : Byte, exec (.eventFlags b m k) s = .next { s with ret := f } ∧
      f.getLsbD 2 = b ∧ f.getLsbD 1 = m ∧ f.getLsbD 0 = k ∧ f.toNat < 8)

/-- 44_translator.md R196 with R94 of 30_encoding.md: each of the four forms of a logical key event, queued and signalled,
takes one step per byte and one to wait, and puts out what the table says, once. -/
def Obligations.KeySequenceForms : Prop :=
  ∀ (s : State) (ext brk : Bool) (c : Byte) (q : List Byte) (rest : List Event),
    InPhase s .waitEvent → 1 ≤ s.wake → CursorsIn s →
    unread s = keyBytes ext brk c ++ q →
    (brk = false → c ≠ 0xF0) → (ext = false → brk = false → c ≠ 0xE0) →
    s.stimulus = List.replicate ((keyBytes ext brk c).length + 1) .xl ++ rest →
    ∃ t, runSteps ((keyBytes ext brk c).length + 1) s = .next t ∧ unread t = q ∧
      t = { s with
        wake := s.wake - 1, tExt := ext, tBrk := brk, tPhase := .waitEvent, stimulus := rest
        ringRd := (s.ringRd + (keyBytes ext brk c).length) % s.params.cap
        outputs := s.outputs ++ [keyOutput s.params c ext brk] }

/-- 44_translator.md R192 (corner case), 10_state.md R42: where the ring invariant holds and no `RingOverrun` is recorded, a
read step of the task finds its byte, and never one that nothing has written. -/
def Obligations.ReadStepNeverWaits : Prop :=
  ∀ (s : State) (rest : List Event), RingInv s → s.overrun = false → s.taskRuns = true → inPass s = 1 →
    s.stimulus = .xl :: rest →
    ∃ (t : State) (b : Byte), memRead s.ringMem s.ringRd = some b ∧ step s = .next t ∧ t.ringRd = (s.ringRd + 1) % s.params.cap

/-! ## The host calls and the data rows -/

/-- 45_host_operations.md R210, R213. -/
def Obligations.InitResult : Prop :=
  ∀ s : State,
    (s.inited = false → exec .init s = .next { s with
      inited := true, mode := .transmitting, irqEn := true, clkDrv := .z, dataDrv := .low, txByte := s.params.cmdReset
      txCnt := 0, txPar := true, seqOp := .reset, seqStep := false, tPhase := .waitEvent }) ∧
    (s.inited = true → exec .init s = .refused .initAgain)

/-- 45_host_operations.md R211, R212. -/
def Obligations.ChangeLedResult : Prop :=
  ∀ (s : State) (m : Byte),
    (s.inited = true → s.fatal = false → exec (.changeLed m) s = .next { s with ledReq := m, ledPending := true }) ∧
    (s.inited = false → exec (.changeLed m) s = .refused .ledBeforeInit) ∧
    (s.inited = true → s.fatal = true → exec (.changeLed m) s = .next s)

/-- The rows of 30_encoding.md R86 to R89 that name a datum: each has the effect the spec gives the datum where the block
meets it. That a datum has this effect as a row is the model's choice (log entries 11 and 27). -/
def Obligations.DataRowResults : Prop :=
  ∀ s : State,
    exec .byteAck s = exec (.seqResponse 0xFA) s ∧ exec .byteBat s = exec (.seqResponse 0xAA) s ∧
    (RingRoom s → exec .byteBreak s = .next (queued s 0xF0) ∧ exec .byteExt s = .next (queued s 0xE0) ∧
      ∀ b, exec (.byteScan b) s = .next (queued s b)) ∧
    (∀ b, exec (.byteOutOfRange b) s = .next (resends s ⟨false, false, true⟩)) ∧
    exec .cmdResend s = .next (transmits s 0xFE) ∧
    exec .cmdReset s = .next (transmits s s.params.cmdReset) ∧
    exec .cmdSetLed s = .next (transmits s s.params.cmdSetLed) ∧
    (∀ m : Byte, exec (.ledMaskHid m) s = exec (.changeLed m) s ∧
      (s.inited = true → s.fatal = false → exec (.ledMaskHid m) s = .next { s with ledReq := m, ledPending := true })) ∧
    ∀ c n sc : Bool, ∃ m : Byte, exec (.ledMaskPs2 c n sc) s = .next (transmits s m) ∧
      m.getLsbD 2 = c ∧ m.getLsbD 1 = n ∧ m.getLsbD 0 = sc ∧ m.toNat < 8

/-- 30_encoding.md R80, R84, R103: a frame is 11 edges in slot order, slot 0 first (log entry 11). -/
def Obligations.FrameRowsAreElevenEdges : Prop :=
  ∀ (s : State) (b : Byte) (x y z : Bool),
    exec (.frameD2H x b y z) s = .next { s with
      stimulus := [.edge x, .edge (b.getLsbD 0), .edge (b.getLsbD 1), .edge (b.getLsbD 2), .edge (b.getLsbD 3),
        .edge (b.getLsbD 4), .edge (b.getLsbD 5), .edge (b.getLsbD 6), .edge (b.getLsbD 7), .edge y, .edge z] ++
          s.stimulus } ∧
    exec (.frameH2D b x y z) s = .next { s with
      stimulus := [.edge (b.getLsbD 0), .edge (b.getLsbD 1), .edge (b.getLsbD 2), .edge (b.getLsbD 3),
        .edge (b.getLsbD 4), .edge (b.getLsbD 5), .edge (b.getLsbD 6), .edge (b.getLsbD 7), .edge x, .edge y,
          .edge z] ++ s.stimulus }

/-! ## Whole frames and sequences -/

/-- 30_encoding.md R82, R83: of a frame received from a clean start, ten edges assemble the data byte from slots 1 to 8
and flag a resend unless slot 0 is low, slot 9 is the parity of the byte and the byte is in range or excepted. -/
def Obligations.FrameIsAcceptedExactlyWhenWellFormed : Prop :=
  ∀ (s : State) (f : BitVec 11) (rest : List Event), RxReady s → s.stimulus = frameEdges f ++ rest →
    ∃ t, runSteps 10 s = .next t ∧ t.rxCnt = 10 ∧ t.mode = .receiving ∧
      (∀ k, k < 8 → t.rxAcc.getLsbD k = f.getLsbD (k + 1)) ∧
      (t.rxResend = false ↔ f.getLsbD 0 = false ∧ f.getLsbD 9 = oddParity t.rxAcc ∧
        (t.rxAcc ≤ s.params.maxCode ∨ t.rxAcc = 0xFA ∨ t.rxAcc = 0xAA ∨ t.rxAcc = 0xF0 ∨ t.rxAcc = 0xE0))

/-- 40_rx_decoder.md R118 with R114: what a whole frame of any 11 levels does from a clean start. Flagged: one framing
error with its causes, one Resend, nothing queued. Not flagged and no response: the byte queued. Not flagged and a
response: the sequencer's transition from the stop slot. -/
def Obligations.FrameOutcome : Prop :=
  ∀ (s : State) (start stop p : Bool) (b : Byte) (rest : List Event) (range : Bool) (u : State), RxReady s →
    s.stimulus = .frame (frameD2HBits start b p stop) :: rest → (range = true ↔ RangeError s.params b) →
    u = { s with stimulus := rest } →
    (start = true ∨ p ≠ oddParity b ∨ range = true →
      runSteps 12 s = .next (rxCleared (resends u ⟨start, p != oddParity b, range⟩))) ∧
    (start = false → p = oddParity b → range = false → b ≠ 0xFA → b ≠ 0xAA → RingRoom s →
      runSteps 12 s = .next (rxCleared (queued u b))) ∧
    (start = false → p = oddParity b → range = false → b = 0xFA ∨ b = 0xAA →
      runSteps 12 s = andThen (exec (.seqResponse b)
          { u with irqEn := false, clkDrv := .low, rxCnt := 10, rxAcc := b, rxPar := oddParity b }) fun v =>
        .next (if v.fatal = true then v else rxCleared v))

/-- 40_rx_decoder.md R119: the parity check finds every change of an odd number of slots 1 to 9 of a frame with right
parity and misses every change of an even number. -/
def Obligations.ParityFindsOddChanges : Prop :=
  ∀ (s : State) (f g : BitVec 11) (rest : List Event), RxReady s → s.stimulus = frameEdges g ++ rest →
    f.getLsbD 9 = oddParity (f.extractLsb' 1 8) →
    ∃ t, runSteps 10 s = .next t ∧
      (t.rxCauses.parity = true ↔
        ((List.range 9).countP fun i => f.getLsbD (i + 1) != g.getLsbD (i + 1)) % 2 = 1)

/-- 42_control_sequencer.md R165 (reset), 70_reset_and_hazards.md R253: the bring-up from power-on, the reset command
clocked out and answered by ACK and self-test-passed: one LED deactivation, and the block idle. -/
def Obligations.BringUpEndToEnd : Prop :=
  ∀ (p : Params) (led : LedState) (rest : List Event) (s : State),
    s = { State.powerOn p led with
      stimulus := [.init, .txclk, Event.rx 0xFA, Event.rx 0xAA] ++ rest } →
    (∃ t, runSteps 1 s = .next t ∧ t.mode = .transmitting ∧ t.txByte = p.cmdReset) ∧
    (∃ t, runSteps 25 s = .next t ∧ t.seqOp = .reset ∧ t.seqStep = true ∧ t.mode = .receiving) ∧
    runSteps 37 s = .next { State.powerOn p .off with
      inited := true, irqEn := true, tPhase := .waitEvent, txByte := p.cmdReset, outputs := [.statusLed .off]
      stimulus := rest }

/-- 42_control_sequencer.md R165 (LED): a request at idle, a scan code, and the exchange that follows: the LED command,
then the translated mask; the sequence is still in progress at the step before the second ACK's stop slot, and over after
it. -/
def Obligations.LedChangeEndToEnd : Prop :=
  ∀ (s : State) (m c : Byte) (rest : List Event), RxReady s → RingRoom s → s.seqOp = .none → c ≤ s.params.maxCode →
    c ≠ 0xFA → c ≠ 0xAA →
    s.stimulus = [.led m, Event.rx c, .txclk, Event.rx 0xFA, .txclk, Event.rx 0xFA] ++ rest →
    (∃ t, runSteps 13 s = .next t ∧ t.mode = .transmitting ∧ t.txByte = s.params.cmdSetLed) ∧
    (∃ t, runSteps 37 s = .next t ∧ t.mode = .transmitting ∧ t.txByte = ledXlate m) ∧
    (∃ t, runSteps 60 s = .next t ∧ t.seqOp = .ledChange) ∧
    ∃ t, runSteps 61 s = .next t ∧ RxReady t ∧ t.seqOp = .none ∧ t.ledPending = false ∧ t.outputs = s.outputs ∧
      t.ringWr = (s.ringWr + 1) % s.params.cap ∧ t.ringByte s.ringWr = c ∧ t.stimulus = rest

/-! ## Exceptional events and the whole machine -/

/-- 60_exceptions.md R224: of the spec's events none but the stop slot of a sound frame with 0xFA at (`Reset`, 1) makes
the block fail for ever, and it leaves CLK low. (A step that overruns has no specified outcome, 43_ring_buffer.md
R184.) -/
def Obligations.FatalOnlyAtSelfTest : Prop :=
  ∀ (s t : State) (e : Event) (rest : List Event), s.stimulus = e :: rest → e.isSpec = true → step s = .next t →
    ¬Overran s t → s.fatal = false → t.fatal = true →
    (∃ d, e = .edge d) ∧ s.mode = .receiving ∧ s.rxCnt = 10 ∧ s.rxResend = false ∧ s.rxAcc = 0xFA ∧
      s.seqOp = .reset ∧ s.seqStep = true ∧
      t = { s with
        stimulus := rest, irqEn := false, clkDrv := .low, fatal := true
        outputs := s.outputs ++ [.raised (.fatalProtocolFailure 0xFA)] }

/-- 10_state.md R40: after a fatal failure no event of the spec but RESET changes anything of the block: what it offers is
lost, or stands as edges that will be lost. -/
def Obligations.FatalIsForEver : Prop :=
  ∀ (s t : State) (e : Event) (rest : List Event), s.stimulus = e :: rest → e.isSpec = true → e ≠ .reset →
    s.inited = true → s.fatal = true → step s = .next t → t = { s with stimulus := t.stimulus }

/-- 60_exceptions.md R226: of the spec's events only a dropped response under `DROP_POLICY` = `Stall` makes a stall. (A step
that overruns has no specified outcome, 43_ring_buffer.md R184.) -/
def Obligations.StallOnlyByDrop : Prop :=
  ∀ (s t : State) (e : Event) (rest : List Event), s.stimulus = e :: rest → e.isSpec = true → step s = .next t →
    ¬Overran s t → ¬Stalled s → Stalled t →
    s.params.dropPolicy = .stall ∧
      t.outputs = s.outputs ++ [.raised (.droppedResponse s.seqOp s.seqStep s.rxAcc)]

/-- 42_control_sequencer.md R153, R163: a latched LED request is not lost: no event but RESET takes it from the latch
without beginning the sequence that sends it. (A step that overruns has no specified outcome, 43_ring_buffer.md
R184.) -/
def Obligations.LatchedRequestIsKeptOrSent : Prop :=
  ∀ s t : State, (∀ rest, s.stimulus ≠ .reset :: rest) → step s = .next t → ¬Overran s t →
    s.ledPending = true →
    (t.ledPending = true) ∨
    (t.ledPending = false ∧ t.seqOp = .ledChange ∧ t.seqStep = false ∧ t.seqPayload = ledXlate s.ledReq ∧
      t.mode = .transmitting ∧ t.txByte = s.params.cmdSetLed ∧ t.dataDrv = .low ∧ t.clkDrv = .z)

/-- 30_encoding.md R92, R93, 10_state.md R48, 44_translator.md R195, 60_exceptions.md R237: a step puts out at most one
thing; a key event carries one of the four flag bytes and a non-zero code, and comes from the task: the event is XL or
XL*, the task runs and stands at one of its three read steps, and it waits afterwards. The event `direct` is the model's
own (log entry 5). -/
def Obligations.KeyEventsAreWellFormed : Prop :=
  ∀ s t : State, step s = .next t →
    t.outputs = s.outputs ∨ ∃ o, t.outputs = s.outputs ++ [o] ∧ ∀ f h, o = .keyEvent f h →
      h ≠ 0 ∧ (f = 0x01 ∨ f = 0x05 ∨ f = 0x02 ∨ f = 0x06) ∧
        ((∀ w rest, s.stimulus ≠ .direct w :: rest) →
          (∃ rest, s.stimulus = .xl :: rest ∨ s.stimulus = .xlAll :: rest) ∧ s.taskRuns = true ∧
          (s.tPhase = .readFirst ∨ s.tPhase = .readAfterExt ∨ s.tPhase = .readAfterBreak) ∧ t.tPhase = .waitEvent)

/-- 10_state.md R20, 60_exceptions.md R233, R237: an edge that does not overrun (43_ring_buffer.md R184) leaves the task's
state and the caller's mask alone; a task step
leaves everything of the interrupt context alone; `changeLedState` writes the request and nothing else. -/
def Obligations.ContextsKeepToTheirState : Prop :=
  ∀ (s t : State) (e : Event) (rest : List Event), s.stimulus = e :: rest → step s = .next t →
    ((∃ d, e = .edge d) → ¬Overran s t → SameTask s t ∧ s.wake ≤ t.wake ∧ t.ledReq = s.ledReq ∧ t.inited = s.inited) ∧
    (e = .xl ∨ e = .xlAll →
      SameInterrupt s t ∧ t.wake ≤ s.wake ∧ t.ledPending = s.ledPending ∧ t.ledReq = s.ledReq) ∧
    (∀ m, e = .led m → t = { s with stimulus := rest, ledReq := t.ledReq, ledPending := t.ledPending })

/-! ## Invariants -/

/-- Both invariants hold after power-on reset, for all admissible parameters and every draw of the status LED. -/
def Obligations.InvariantsHoldAtPowerOn : Prop :=
  ∀ (p : Params) (led : LedState), Admissible p → BusInv (State.powerOn p led) ∧ RingInv (State.powerOn p led)

/-- Every step from a state in which the bus invariant holds keeps it. -/
def Obligations.EveryStepKeepsBusInv : Prop := ∀ s t : State, BusInv s → step s = .next t → BusInv t

/-- Every step from a state in which the ring invariant holds keeps it. -/
def Obligations.EveryStepKeepsRingInv : Prop := ∀ s t : State, RingInv s → step s = .next t → RingInv t
end

