-- ==== Sys2Proof/Laws/Decode.lean ====
section
/-! SUPPORT. The fields of the words: frames, bytes, and the response selector. -/

namespace Sys2Proof

/-! ### Frames -/

theorem frameD2HBits_start (st : Bool) (b : Byte) (p sp : Bool) : (frameD2HBits st b p sp).getLsbD 0 = st := by
  simp only [frameD2HBits, BitVec.getLsbD_append, BitVec.getLsbD_ofBool]; simp

theorem frameD2HBits_data (st : Bool) (b : Byte) (p sp : Bool) {k : Nat} (hk : k < 8) :
    (frameD2HBits st b p sp).getLsbD (k + 1) = b.getLsbD k := by
  simp only [frameD2HBits, BitVec.getLsbD_append, BitVec.getLsbD_ofBool]; simp [hk]

theorem frameD2HBits_parity (st : Bool) (b : Byte) (p sp : Bool) : (frameD2HBits st b p sp).getLsbD 9 = p := by
  simp only [frameD2HBits, BitVec.getLsbD_append, BitVec.getLsbD_ofBool]; simp

theorem frameD2HBits_stop (st : Bool) (b : Byte) (p sp : Bool) : (frameD2HBits st b p sp).getLsbD 10 = sp := by
  simp only [frameD2HBits, BitVec.getLsbD_append, BitVec.getLsbD_ofBool]; simp

theorem frameD2HBits_byte (st : Bool) (b : Byte) (p sp : Bool) :
    (frameD2HBits st b p sp).extractLsb' 1 8 = b := by
  apply BitVec.eq_of_getLsbD_eq
  intro i hi
  rw [BitVec.getLsbD_extractLsb', Nat.add_comm, frameD2HBits_data st b p sp hi]
  simp [hi]

/-- A frame is made of its fields. -/
theorem frameD2HBits_fields (f : BitVec 11) :
    frameD2HBits (f.getLsbD 0) (f.extractLsb' 1 8) (f.getLsbD 9) (f.getLsbD 10) = f := by
  apply BitVec.eq_of_getLsbD_eq
  intro i hi
  simp only [frameD2HBits, BitVec.getLsbD_append, BitVec.getLsbD_ofBool, BitVec.getLsbD_extractLsb']
  interval_cases i <;> simp

theorem frameH2DBits_data (b : Byte) (p r a : Bool) {k : Nat} (hk : k < 8) :
    (frameH2DBits b p r a).getLsbD k = b.getLsbD k := by
  simp only [frameH2DBits, BitVec.getLsbD_append, BitVec.getLsbD_ofBool]; simp [hk]

theorem frameH2DBits_parity (b : Byte) (p r a : Bool) : (frameH2DBits b p r a).getLsbD 8 = p := by
  simp only [frameH2DBits, BitVec.getLsbD_append, BitVec.getLsbD_ofBool]; simp

theorem frameH2DBits_release (b : Byte) (p r a : Bool) : (frameH2DBits b p r a).getLsbD 9 = r := by
  simp only [frameH2DBits, BitVec.getLsbD_append, BitVec.getLsbD_ofBool]; simp

theorem frameH2DBits_ack (b : Byte) (p r a : Bool) : (frameH2DBits b p r a).getLsbD 10 = a := by
  simp only [frameH2DBits, BitVec.getLsbD_append, BitVec.getLsbD_ofBool]; simp

theorem frameH2DBits_byte (b : Byte) (p r a : Bool) : (frameH2DBits b p r a).extractLsb' 0 8 = b := by
  apply BitVec.eq_of_getLsbD_eq
  intro i hi
  rw [BitVec.getLsbD_extractLsb', Nat.zero_add, frameH2DBits_data b p r a hi]
  simp [hi]

theorem frameH2DBits_fields (f : BitVec 11) :
    frameH2DBits (f.extractLsb' 0 8) (f.getLsbD 8) (f.getLsbD 9) (f.getLsbD 10) = f := by
  apply BitVec.eq_of_getLsbD_eq
  intro i hi
  simp only [frameH2DBits, BitVec.getLsbD_append, BitVec.getLsbD_ofBool, BitVec.getLsbD_extractLsb']
  interval_cases i <;> simp

/-! ### An 11-bit word or a byte in the 16 bits of a table word -/

theorem word11_high (f : BitVec 11) : (f.setWidth 16).extractLsb' 11 5 = 0 := by
  apply BitVec.eq_of_getLsbD_eq
  intro i hi
  simp

theorem word11_field (f : BitVec 11) (a n : Nat) (h : a + n ≤ 11) :
    (f.setWidth 16).extractLsb' a n = f.extractLsb' a n := by
  apply BitVec.eq_of_getLsbD_eq
  intro i hi
  simp [hi]; omega

theorem word11_bit (f : BitVec 11) {i : Nat} (hi : i < 16) : (f.setWidth 16).getLsbD i = f.getLsbD i := by
  simp [hi]

theorem byteWord_low (b : Byte) : (b.setWidth 16).extractLsb' 0 8 = b := by revert b; decide

theorem byteWord_high (b : Byte) : (b.setWidth 16).extractLsb' 8 8 = 0 := by revert b; decide

/-! ### The response selector -/

theorem responseWord_toNat (o : BitVec 2) (st : BitVec 1) (b : Byte) :
    ((o ++ st ++ b).setWidth 16).toNat = (o.toNat * 2 + st.toNat) * 256 + b.toNat := by
  rw [BitVec.toNat_setWidth, BitVec.toNat_append, BitVec.toNat_append,
    ← Nat.shiftLeft_add_eq_or_of_lt b.isLt, ← Nat.shiftLeft_add_eq_or_of_lt st.isLt]
  simp only [Nat.shiftLeft_eq]
  have := b.isLt; have := o.isLt; have := st.isLt
  omega

theorem responseWord_eq_iff (o x : BitVec 2) (st y : BitVec 1) (b z : Byte) {n : BitVec 16}
    (h : n.toNat = (x.toNat * 2 + y.toNat) * 256 + z.toNat) :
    (o ++ st ++ b).setWidth 16 = n ↔ o = x ∧ st = y ∧ b = z := by
  rw [← BitVec.toNat_inj, responseWord_toNat, h, ← BitVec.toNat_inj, ← BitVec.toNat_inj, ← BitVec.toNat_inj]
  have := b.isLt; have := o.isLt; have := st.isLt
  have := z.isLt; have := x.isLt; have := y.isLt
  omega

theorem responseWord_byte (o : BitVec 2) (st : BitVec 1) (b : Byte) :
    ((o ++ st ++ b).setWidth 16).extractLsb' 0 8 = b := by
  apply BitVec.eq_of_toNat_eq
  rw [BitVec.extractLsb'_toNat, responseWord_toNat]
  have := b.isLt
  simp; omega

theorem responseWord_state (o : BitVec 2) (st : BitVec 1) (b : Byte) :
    ((o ++ st ++ b).setWidth 16).extractLsb' 8 8 = 0x06 ↔ o = 3 ∧ st = 0 := by
  rw [← BitVec.toNat_inj, BitVec.extractLsb'_toNat, responseWord_toNat, Nat.shiftRight_eq_div_pow,
    ← BitVec.toNat_inj, ← BitVec.toNat_inj]
  have := b.isLt; have := o.isLt; have := st.isLt
  simp; omega

/-- The response table by the parts of its selector. -/
theorem decodeResponse_parts (o : BitVec 2) (st : BitVec 1) (b : Byte) :
    decodeResponse ((o ++ st ++ b).setWidth 16) =
      (if o = 2 ∧ st = 0 ∧ b = 0xFA then .ok .seqResetAck
      else if o = 2 ∧ st = 0 ∧ b = 0xAA then .ok .seqDropReset0
      else if o = 2 ∧ st = 1 ∧ b = 0xAA then .ok .seqResetBat
      else if o = 2 ∧ st = 1 ∧ b = 0xFA then .ok .seqResetFatal
      else if o = 1 ∧ st = 0 ∧ b = 0xFA then .ok .seqLedAck1
      else if o = 1 ∧ st = 0 ∧ b = 0xAA then .ok .seqDropLed0
      else if o = 1 ∧ st = 1 ∧ b = 0xFA then .ok .seqLedAck2
      else if o = 1 ∧ st = 1 ∧ b = 0xAA then .ok .seqDropLed1
      else if o = 0 ∧ st = 0 ∧ b = 0xFA then .ok .seqDropIdleAck
      else if o = 0 ∧ st = 0 ∧ b = 0xAA then .ok .seqDropIdleBat
      else if o = 3 ∧ st = 0 then .ok (.seqDropResend b)
      else .error .reservedSelector) := by
  unfold decodeResponse
  simp only [responseWord_eq_iff o 2 st 0 b 0xFA (n := 0x4FA) rfl, responseWord_eq_iff o 2 st 0 b 0xAA (n := 0x4AA) rfl,
    responseWord_eq_iff o 2 st 1 b 0xAA (n := 0x5AA) rfl, responseWord_eq_iff o 2 st 1 b 0xFA (n := 0x5FA) rfl,
    responseWord_eq_iff o 1 st 0 b 0xFA (n := 0x2FA) rfl, responseWord_eq_iff o 1 st 0 b 0xAA (n := 0x2AA) rfl,
    responseWord_eq_iff o 1 st 1 b 0xFA (n := 0x3FA) rfl, responseWord_eq_iff o 1 st 1 b 0xAA (n := 0x3AA) rfl,
    responseWord_eq_iff o 0 st 0 b 0xFA (n := 0x0FA) rfl, responseWord_eq_iff o 0 st 0 b 0xAA (n := 0x0AA) rfl,
    responseWord_state, responseWord_byte]

end Sys2Proof
end

