-- ==== Sys2Proof/Laws/Memory.lean ====
section
/-! SUPPORT. The laws of byte memory: read after write, what a write leaves alone, and the canonical form. -/

namespace Sys2Proof.Machine

theorem memRead_memWrite_self (m : List Host.Cell) (a : Nat) (b : Byte) : memRead (memWrite m a b) a = some b := by
  induction m with
  | nil => simp [memWrite, memRead]
  | cons c m ih =>
    obtain ⟨k, v⟩ := c
    simp only [memWrite]
    split_ifs with h1 h2
    · simp [memRead]
    · simp [memRead]
    · have : ¬k = a := fun h => h2 h.symm
      simp [memRead, this, ih]

theorem memRead_memWrite_other (m : List Host.Cell) {a a' : Nat} (b : Byte) (h : a' ≠ a) :
    memRead (memWrite m a b) a' = memRead m a' := by
  induction m with
  | nil => simp [memWrite, memRead, h.symm]
  | cons c m ih =>
    obtain ⟨k, v⟩ := c
    simp only [memWrite]
    split_ifs with h1 h2
    · simp [memRead, h.symm]
    · subst h2; simp [memRead, h.symm]
    · simp [memRead, ih]

theorem memRead_memWrite (m : List Host.Cell) (a a' : Nat) (b : Byte) :
    memRead (memWrite m a b) a' = if a' = a then some b else memRead m a' := by
  split_ifs with h
  · rw [h, memRead_memWrite_self]
  · exact memRead_memWrite_other m b h

theorem memAbove_of_le {lo lo' : Nat} (h : lo ≤ lo') {m : List Host.Cell} (hm : memAbove lo' m = true) :
    memAbove lo m = true := by
  cases m with
  | nil => rfl
  | cons c m => simp [memAbove] at *; exact ⟨by omega, hm.2⟩

theorem memAbove_memWrite {lo a : Nat} (b : Byte) (h : lo < a) {m : List Host.Cell} (hm : memAbove lo m = true) :
    memAbove lo (memWrite m a b) = true := by
  induction m generalizing lo with
  | nil => simp [memWrite, memAbove, h]
  | cons c m ih =>
    obtain ⟨k, v⟩ := c
    simp only [memAbove, Bool.and_eq_true, decide_eq_true_eq] at hm
    simp only [memWrite]
    split_ifs with h1 h2
    · simp [memAbove, h, h1, hm.2]
    · subst h2; simp [memAbove, h, hm.2]
    · simp [memAbove, hm.1, ih (by omega : k < a) hm.2]

/-- Every memory operation keeps the canonical form: the one operation that changes a memory is `memWrite`. -/
theorem memWrite_wf {m : List Host.Cell} (a : Nat) (b : Byte) (h : Memory.wf m = true) :
    Memory.wf (memWrite m a b) = true := by
  cases m with
  | nil => rfl
  | cons c m =>
    obtain ⟨k, v⟩ := c
    simp only [Memory.wf] at h
    simp only [memWrite]
    split_ifs with h1 h2
    · simp [Memory.wf, memAbove, h1, h]
    · subst h2; exact h
    · exact memAbove_memWrite b (by omega) h

/-- A write lists no address but its own that was not listed before. -/
theorem mem_memWrite {m : List Host.Cell} {a : Nat} {b : Byte} {c : Host.Cell} (h : c ∈ memWrite m a b) :
    c.1 = a ∨ c ∈ m := by
  induction m with
  | nil => simp [memWrite] at h; simp [h]
  | cons d m ih =>
    obtain ⟨k, v⟩ := d
    simp only [memWrite] at h
    split_ifs at h with h1 h2
    · rcases List.mem_cons.1 h with h | h
      · simp [h]
      · exact .inr h
    · rcases List.mem_cons.1 h with h | h
      · simp [h]
      · exact .inr (List.mem_cons_of_mem _ h)
    · rcases List.mem_cons.1 h with h | h
      · simp [h]
      · rcases ih h with h | h
        · exact .inl h
        · exact .inr (List.mem_cons_of_mem _ h)

theorem reset_memory_wf : Memory.wf State.reset.ringMem = true := rfl

theorem powerOn_memory_wf (p : Params) (led : LedState) : Memory.wf (State.powerOn p led).ringMem = true := rfl

end Sys2Proof.Machine
end

