-- ==== Sys2Proof/Laws/State.lean ====
section
/-! SUPPORT. For each named update of the state, what every field holds afterwards. -/

namespace Sys2Proof.Machine

variable (s : State)

/-! ### `output` -/

@[simp] theorem State.output_params (o : Output) : (s.output o).params = s.params := rfl
@[simp] theorem State.output_mode (o : Output) : (s.output o).mode = s.mode := rfl
@[simp] theorem State.output_irqEn (o : Output) : (s.output o).irqEn = s.irqEn := rfl
@[simp] theorem State.output_clkDrv (o : Output) : (s.output o).clkDrv = s.clkDrv := rfl
@[simp] theorem State.output_dataDrv (o : Output) : (s.output o).dataDrv = s.dataDrv := rfl
@[simp] theorem State.output_rxCnt (o : Output) : (s.output o).rxCnt = s.rxCnt := rfl
@[simp] theorem State.output_rxAcc (o : Output) : (s.output o).rxAcc = s.rxAcc := rfl
@[simp] theorem State.output_rxPar (o : Output) : (s.output o).rxPar = s.rxPar := rfl
@[simp] theorem State.output_rxResend (o : Output) : (s.output o).rxResend = s.rxResend := rfl
@[simp] theorem State.output_rxCauses (o : Output) : (s.output o).rxCauses = s.rxCauses := rfl
@[simp] theorem State.output_txCnt (o : Output) : (s.output o).txCnt = s.txCnt := rfl
@[simp] theorem State.output_txByte (o : Output) : (s.output o).txByte = s.txByte := rfl
@[simp] theorem State.output_txPar (o : Output) : (s.output o).txPar = s.txPar := rfl
@[simp] theorem State.output_seqOp (o : Output) : (s.output o).seqOp = s.seqOp := rfl
@[simp] theorem State.output_seqStep (o : Output) : (s.output o).seqStep = s.seqStep := rfl
@[simp] theorem State.output_seqPayload (o : Output) : (s.output o).seqPayload = s.seqPayload := rfl
@[simp] theorem State.output_ledPending (o : Output) : (s.output o).ledPending = s.ledPending := rfl
@[simp] theorem State.output_ledReq (o : Output) : (s.output o).ledReq = s.ledReq := rfl
@[simp] theorem State.output_fatal (o : Output) : (s.output o).fatal = s.fatal := rfl
@[simp] theorem State.output_inited (o : Output) : (s.output o).inited = s.inited := rfl
@[simp] theorem State.output_statusLed (o : Output) : (s.output o).statusLed = s.statusLed := rfl
@[simp] theorem State.output_ringMem (o : Output) : (s.output o).ringMem = s.ringMem := rfl
@[simp] theorem State.output_ringWr (o : Output) : (s.output o).ringWr = s.ringWr := rfl
@[simp] theorem State.output_ringRd (o : Output) : (s.output o).ringRd = s.ringRd := rfl
@[simp] theorem State.output_wake (o : Output) : (s.output o).wake = s.wake := rfl
@[simp] theorem State.output_tPhase (o : Output) : (s.output o).tPhase = s.tPhase := rfl
@[simp] theorem State.output_tExt (o : Output) : (s.output o).tExt = s.tExt := rfl
@[simp] theorem State.output_tBrk (o : Output) : (s.output o).tBrk = s.tBrk := rfl
@[simp] theorem State.output_overrun (o : Output) : (s.output o).overrun = s.overrun := rfl
@[simp] theorem State.output_ret (o : Output) : (s.output o).ret = s.ret := rfl
@[simp] theorem State.output_stimulus (o : Output) : (s.output o).stimulus = s.stimulus := rfl
@[simp] theorem State.output_outputs (o : Output) : (s.output o).outputs = s.outputs ++ [o] := rfl
@[simp] theorem State.output_draws (o : Output) : (s.output o).draws = s.draws := rfl

/-! ### `inhibit` -/

@[simp] theorem State.inhibit_params : (s.inhibit).params = s.params := rfl
@[simp] theorem State.inhibit_mode : (s.inhibit).mode = s.mode := rfl
@[simp] theorem State.inhibit_irqEn : (s.inhibit).irqEn = false := rfl
@[simp] theorem State.inhibit_clkDrv : (s.inhibit).clkDrv = .low := rfl
@[simp] theorem State.inhibit_dataDrv : (s.inhibit).dataDrv = s.dataDrv := rfl
@[simp] theorem State.inhibit_rxCnt : (s.inhibit).rxCnt = s.rxCnt := rfl
@[simp] theorem State.inhibit_rxAcc : (s.inhibit).rxAcc = s.rxAcc := rfl
@[simp] theorem State.inhibit_rxPar : (s.inhibit).rxPar = s.rxPar := rfl
@[simp] theorem State.inhibit_rxResend : (s.inhibit).rxResend = s.rxResend := rfl
@[simp] theorem State.inhibit_rxCauses : (s.inhibit).rxCauses = s.rxCauses := rfl
@[simp] theorem State.inhibit_txCnt : (s.inhibit).txCnt = s.txCnt := rfl
@[simp] theorem State.inhibit_txByte : (s.inhibit).txByte = s.txByte := rfl
@[simp] theorem State.inhibit_txPar : (s.inhibit).txPar = s.txPar := rfl
@[simp] theorem State.inhibit_seqOp : (s.inhibit).seqOp = s.seqOp := rfl
@[simp] theorem State.inhibit_seqStep : (s.inhibit).seqStep = s.seqStep := rfl
@[simp] theorem State.inhibit_seqPayload : (s.inhibit).seqPayload = s.seqPayload := rfl
@[simp] theorem State.inhibit_ledPending : (s.inhibit).ledPending = s.ledPending := rfl
@[simp] theorem State.inhibit_ledReq : (s.inhibit).ledReq = s.ledReq := rfl
@[simp] theorem State.inhibit_fatal : (s.inhibit).fatal = s.fatal := rfl
@[simp] theorem State.inhibit_inited : (s.inhibit).inited = s.inited := rfl
@[simp] theorem State.inhibit_statusLed : (s.inhibit).statusLed = s.statusLed := rfl
@[simp] theorem State.inhibit_ringMem : (s.inhibit).ringMem = s.ringMem := rfl
@[simp] theorem State.inhibit_ringWr : (s.inhibit).ringWr = s.ringWr := rfl
@[simp] theorem State.inhibit_ringRd : (s.inhibit).ringRd = s.ringRd := rfl
@[simp] theorem State.inhibit_wake : (s.inhibit).wake = s.wake := rfl
@[simp] theorem State.inhibit_tPhase : (s.inhibit).tPhase = s.tPhase := rfl
@[simp] theorem State.inhibit_tExt : (s.inhibit).tExt = s.tExt := rfl
@[simp] theorem State.inhibit_tBrk : (s.inhibit).tBrk = s.tBrk := rfl
@[simp] theorem State.inhibit_overrun : (s.inhibit).overrun = s.overrun := rfl
@[simp] theorem State.inhibit_ret : (s.inhibit).ret = s.ret := rfl
@[simp] theorem State.inhibit_stimulus : (s.inhibit).stimulus = s.stimulus := rfl
@[simp] theorem State.inhibit_outputs : (s.inhibit).outputs = s.outputs := rfl
@[simp] theorem State.inhibit_draws : (s.inhibit).draws = s.draws := rfl

/-! ### `releaseToReceive` -/

@[simp] theorem State.releaseToReceive_params : (s.releaseToReceive).params = s.params := rfl
@[simp] theorem State.releaseToReceive_mode : (s.releaseToReceive).mode = .receiving := rfl
@[simp] theorem State.releaseToReceive_irqEn : (s.releaseToReceive).irqEn = true := rfl
@[simp] theorem State.releaseToReceive_clkDrv : (s.releaseToReceive).clkDrv = .z := rfl
@[simp] theorem State.releaseToReceive_dataDrv : (s.releaseToReceive).dataDrv = .z := rfl
@[simp] theorem State.releaseToReceive_rxCnt : (s.releaseToReceive).rxCnt = s.rxCnt := rfl
@[simp] theorem State.releaseToReceive_rxAcc : (s.releaseToReceive).rxAcc = s.rxAcc := rfl
@[simp] theorem State.releaseToReceive_rxPar : (s.releaseToReceive).rxPar = s.rxPar := rfl
@[simp] theorem State.releaseToReceive_rxResend : (s.releaseToReceive).rxResend = s.rxResend := rfl
@[simp] theorem State.releaseToReceive_rxCauses : (s.releaseToReceive).rxCauses = s.rxCauses := rfl
@[simp] theorem State.releaseToReceive_txCnt : (s.releaseToReceive).txCnt = s.txCnt := rfl
@[simp] theorem State.releaseToReceive_txByte : (s.releaseToReceive).txByte = s.txByte := rfl
@[simp] theorem State.releaseToReceive_txPar : (s.releaseToReceive).txPar = s.txPar := rfl
@[simp] theorem State.releaseToReceive_seqOp : (s.releaseToReceive).seqOp = s.seqOp := rfl
@[simp] theorem State.releaseToReceive_seqStep : (s.releaseToReceive).seqStep = s.seqStep := rfl
@[simp] theorem State.releaseToReceive_seqPayload : (s.releaseToReceive).seqPayload = s.seqPayload := rfl
@[simp] theorem State.releaseToReceive_ledPending : (s.releaseToReceive).ledPending = s.ledPending := rfl
@[simp] theorem State.releaseToReceive_ledReq : (s.releaseToReceive).ledReq = s.ledReq := rfl
@[simp] theorem State.releaseToReceive_fatal : (s.releaseToReceive).fatal = s.fatal := rfl
@[simp] theorem State.releaseToReceive_inited : (s.releaseToReceive).inited = s.inited := rfl
@[simp] theorem State.releaseToReceive_statusLed : (s.releaseToReceive).statusLed = s.statusLed := rfl
@[simp] theorem State.releaseToReceive_ringMem : (s.releaseToReceive).ringMem = s.ringMem := rfl
@[simp] theorem State.releaseToReceive_ringWr : (s.releaseToReceive).ringWr = s.ringWr := rfl
@[simp] theorem State.releaseToReceive_ringRd : (s.releaseToReceive).ringRd = s.ringRd := rfl
@[simp] theorem State.releaseToReceive_wake : (s.releaseToReceive).wake = s.wake := rfl
@[simp] theorem State.releaseToReceive_tPhase : (s.releaseToReceive).tPhase = s.tPhase := rfl
@[simp] theorem State.releaseToReceive_tExt : (s.releaseToReceive).tExt = s.tExt := rfl
@[simp] theorem State.releaseToReceive_tBrk : (s.releaseToReceive).tBrk = s.tBrk := rfl
@[simp] theorem State.releaseToReceive_overrun : (s.releaseToReceive).overrun = s.overrun := rfl
@[simp] theorem State.releaseToReceive_ret : (s.releaseToReceive).ret = s.ret := rfl
@[simp] theorem State.releaseToReceive_stimulus : (s.releaseToReceive).stimulus = s.stimulus := rfl
@[simp] theorem State.releaseToReceive_outputs : (s.releaseToReceive).outputs = s.outputs := rfl
@[simp] theorem State.releaseToReceive_draws : (s.releaseToReceive).draws = s.draws := rfl

/-! ### `txStart` -/

@[simp] theorem State.txStart_params (b : Byte) : (s.txStart b).params = s.params := rfl
@[simp] theorem State.txStart_mode (b : Byte) : (s.txStart b).mode = .transmitting := rfl
@[simp] theorem State.txStart_irqEn (b : Byte) : (s.txStart b).irqEn = true := rfl
@[simp] theorem State.txStart_clkDrv (b : Byte) : (s.txStart b).clkDrv = .z := rfl
@[simp] theorem State.txStart_dataDrv (b : Byte) : (s.txStart b).dataDrv = .low := rfl
@[simp] theorem State.txStart_rxCnt (b : Byte) : (s.txStart b).rxCnt = s.rxCnt := rfl
@[simp] theorem State.txStart_rxAcc (b : Byte) : (s.txStart b).rxAcc = s.rxAcc := rfl
@[simp] theorem State.txStart_rxPar (b : Byte) : (s.txStart b).rxPar = s.rxPar := rfl
@[simp] theorem State.txStart_rxResend (b : Byte) : (s.txStart b).rxResend = s.rxResend := rfl
@[simp] theorem State.txStart_rxCauses (b : Byte) : (s.txStart b).rxCauses = s.rxCauses := rfl
@[simp] theorem State.txStart_txCnt (b : Byte) : (s.txStart b).txCnt = 0 := rfl
@[simp] theorem State.txStart_txByte (b : Byte) : (s.txStart b).txByte = b := rfl
@[simp] theorem State.txStart_txPar (b : Byte) : (s.txStart b).txPar = true := rfl
@[simp] theorem State.txStart_seqOp (b : Byte) : (s.txStart b).seqOp = s.seqOp := rfl
@[simp] theorem State.txStart_seqStep (b : Byte) : (s.txStart b).seqStep = s.seqStep := rfl
@[simp] theorem State.txStart_seqPayload (b : Byte) : (s.txStart b).seqPayload = s.seqPayload := rfl
@[simp] theorem State.txStart_ledPending (b : Byte) : (s.txStart b).ledPending = s.ledPending := rfl
@[simp] theorem State.txStart_ledReq (b : Byte) : (s.txStart b).ledReq = s.ledReq := rfl
@[simp] theorem State.txStart_fatal (b : Byte) : (s.txStart b).fatal = s.fatal := rfl
@[simp] theorem State.txStart_inited (b : Byte) : (s.txStart b).inited = s.inited := rfl
@[simp] theorem State.txStart_statusLed (b : Byte) : (s.txStart b).statusLed = s.statusLed := rfl
@[simp] theorem State.txStart_ringMem (b : Byte) : (s.txStart b).ringMem = s.ringMem := rfl
@[simp] theorem State.txStart_ringWr (b : Byte) : (s.txStart b).ringWr = s.ringWr := rfl
@[simp] theorem State.txStart_ringRd (b : Byte) : (s.txStart b).ringRd = s.ringRd := rfl
@[simp] theorem State.txStart_wake (b : Byte) : (s.txStart b).wake = s.wake := rfl
@[simp] theorem State.txStart_tPhase (b : Byte) : (s.txStart b).tPhase = s.tPhase := rfl
@[simp] theorem State.txStart_tExt (b : Byte) : (s.txStart b).tExt = s.tExt := rfl
@[simp] theorem State.txStart_tBrk (b : Byte) : (s.txStart b).tBrk = s.tBrk := rfl
@[simp] theorem State.txStart_overrun (b : Byte) : (s.txStart b).overrun = s.overrun := rfl
@[simp] theorem State.txStart_ret (b : Byte) : (s.txStart b).ret = s.ret := rfl
@[simp] theorem State.txStart_stimulus (b : Byte) : (s.txStart b).stimulus = s.stimulus := rfl
@[simp] theorem State.txStart_outputs (b : Byte) : (s.txStart b).outputs = s.outputs := rfl
@[simp] theorem State.txStart_draws (b : Byte) : (s.txStart b).draws = s.draws := rfl

/-! ### `seqIdle` -/

@[simp] theorem State.seqIdle_params : (s.seqIdle).params = s.params := rfl
@[simp] theorem State.seqIdle_mode : (s.seqIdle).mode = s.mode := rfl
@[simp] theorem State.seqIdle_irqEn : (s.seqIdle).irqEn = s.irqEn := rfl
@[simp] theorem State.seqIdle_clkDrv : (s.seqIdle).clkDrv = s.clkDrv := rfl
@[simp] theorem State.seqIdle_dataDrv : (s.seqIdle).dataDrv = s.dataDrv := rfl
@[simp] theorem State.seqIdle_rxCnt : (s.seqIdle).rxCnt = s.rxCnt := rfl
@[simp] theorem State.seqIdle_rxAcc : (s.seqIdle).rxAcc = s.rxAcc := rfl
@[simp] theorem State.seqIdle_rxPar : (s.seqIdle).rxPar = s.rxPar := rfl
@[simp] theorem State.seqIdle_rxResend : (s.seqIdle).rxResend = s.rxResend := rfl
@[simp] theorem State.seqIdle_rxCauses : (s.seqIdle).rxCauses = s.rxCauses := rfl
@[simp] theorem State.seqIdle_txCnt : (s.seqIdle).txCnt = s.txCnt := rfl
@[simp] theorem State.seqIdle_txByte : (s.seqIdle).txByte = s.txByte := rfl
@[simp] theorem State.seqIdle_txPar : (s.seqIdle).txPar = s.txPar := rfl
@[simp] theorem State.seqIdle_seqOp : (s.seqIdle).seqOp = .none := rfl
@[simp] theorem State.seqIdle_seqStep : (s.seqIdle).seqStep = false := rfl
@[simp] theorem State.seqIdle_seqPayload : (s.seqIdle).seqPayload = s.seqPayload := rfl
@[simp] theorem State.seqIdle_ledPending : (s.seqIdle).ledPending = s.ledPending := rfl
@[simp] theorem State.seqIdle_ledReq : (s.seqIdle).ledReq = s.ledReq := rfl
@[simp] theorem State.seqIdle_fatal : (s.seqIdle).fatal = s.fatal := rfl
@[simp] theorem State.seqIdle_inited : (s.seqIdle).inited = s.inited := rfl
@[simp] theorem State.seqIdle_statusLed : (s.seqIdle).statusLed = s.statusLed := rfl
@[simp] theorem State.seqIdle_ringMem : (s.seqIdle).ringMem = s.ringMem := rfl
@[simp] theorem State.seqIdle_ringWr : (s.seqIdle).ringWr = s.ringWr := rfl
@[simp] theorem State.seqIdle_ringRd : (s.seqIdle).ringRd = s.ringRd := rfl
@[simp] theorem State.seqIdle_wake : (s.seqIdle).wake = s.wake := rfl
@[simp] theorem State.seqIdle_tPhase : (s.seqIdle).tPhase = s.tPhase := rfl
@[simp] theorem State.seqIdle_tExt : (s.seqIdle).tExt = s.tExt := rfl
@[simp] theorem State.seqIdle_tBrk : (s.seqIdle).tBrk = s.tBrk := rfl
@[simp] theorem State.seqIdle_overrun : (s.seqIdle).overrun = s.overrun := rfl
@[simp] theorem State.seqIdle_ret : (s.seqIdle).ret = s.ret := rfl
@[simp] theorem State.seqIdle_stimulus : (s.seqIdle).stimulus = s.stimulus := rfl
@[simp] theorem State.seqIdle_outputs : (s.seqIdle).outputs = s.outputs := rfl
@[simp] theorem State.seqIdle_draws : (s.seqIdle).draws = s.draws := rfl

/-! ### `clearRx` -/

@[simp] theorem State.clearRx_params : (s.clearRx).params = s.params := rfl
@[simp] theorem State.clearRx_mode : (s.clearRx).mode = s.mode := rfl
@[simp] theorem State.clearRx_irqEn : (s.clearRx).irqEn = s.irqEn := rfl
@[simp] theorem State.clearRx_clkDrv : (s.clearRx).clkDrv = s.clkDrv := rfl
@[simp] theorem State.clearRx_dataDrv : (s.clearRx).dataDrv = s.dataDrv := rfl
@[simp] theorem State.clearRx_rxCnt : (s.clearRx).rxCnt = 0 := rfl
@[simp] theorem State.clearRx_rxAcc : (s.clearRx).rxAcc = 0x00 := rfl
@[simp] theorem State.clearRx_rxPar : (s.clearRx).rxPar = true := rfl
@[simp] theorem State.clearRx_rxResend : (s.clearRx).rxResend = false := rfl
@[simp] theorem State.clearRx_rxCauses : (s.clearRx).rxCauses = .none := rfl
@[simp] theorem State.clearRx_txCnt : (s.clearRx).txCnt = s.txCnt := rfl
@[simp] theorem State.clearRx_txByte : (s.clearRx).txByte = s.txByte := rfl
@[simp] theorem State.clearRx_txPar : (s.clearRx).txPar = s.txPar := rfl
@[simp] theorem State.clearRx_seqOp : (s.clearRx).seqOp = s.seqOp := rfl
@[simp] theorem State.clearRx_seqStep : (s.clearRx).seqStep = s.seqStep := rfl
@[simp] theorem State.clearRx_seqPayload : (s.clearRx).seqPayload = s.seqPayload := rfl
@[simp] theorem State.clearRx_ledPending : (s.clearRx).ledPending = s.ledPending := rfl
@[simp] theorem State.clearRx_ledReq : (s.clearRx).ledReq = s.ledReq := rfl
@[simp] theorem State.clearRx_fatal : (s.clearRx).fatal = s.fatal := rfl
@[simp] theorem State.clearRx_inited : (s.clearRx).inited = s.inited := rfl
@[simp] theorem State.clearRx_statusLed : (s.clearRx).statusLed = s.statusLed := rfl
@[simp] theorem State.clearRx_ringMem : (s.clearRx).ringMem = s.ringMem := rfl
@[simp] theorem State.clearRx_ringWr : (s.clearRx).ringWr = s.ringWr := rfl
@[simp] theorem State.clearRx_ringRd : (s.clearRx).ringRd = s.ringRd := rfl
@[simp] theorem State.clearRx_wake : (s.clearRx).wake = s.wake := rfl
@[simp] theorem State.clearRx_tPhase : (s.clearRx).tPhase = s.tPhase := rfl
@[simp] theorem State.clearRx_tExt : (s.clearRx).tExt = s.tExt := rfl
@[simp] theorem State.clearRx_tBrk : (s.clearRx).tBrk = s.tBrk := rfl
@[simp] theorem State.clearRx_overrun : (s.clearRx).overrun = s.overrun := rfl
@[simp] theorem State.clearRx_ret : (s.clearRx).ret = s.ret := rfl
@[simp] theorem State.clearRx_stimulus : (s.clearRx).stimulus = s.stimulus := rfl
@[simp] theorem State.clearRx_outputs : (s.clearRx).outputs = s.outputs := rfl
@[simp] theorem State.clearRx_draws : (s.clearRx).draws = s.draws := rfl

/-! ### `seqStart` -/

@[simp] theorem State.seqStart_params (op : StartOp) : (s.seqStart op).params = s.params := by cases op <;> rfl
@[simp] theorem State.seqStart_mode (op : StartOp) : (s.seqStart op).mode = .transmitting := by cases op <;> rfl
@[simp] theorem State.seqStart_irqEn (op : StartOp) : (s.seqStart op).irqEn = true := by cases op <;> rfl
@[simp] theorem State.seqStart_clkDrv (op : StartOp) : (s.seqStart op).clkDrv = .z := by cases op <;> rfl
@[simp] theorem State.seqStart_dataDrv (op : StartOp) : (s.seqStart op).dataDrv = .low := by cases op <;> rfl
@[simp] theorem State.seqStart_rxCnt (op : StartOp) : (s.seqStart op).rxCnt = s.rxCnt := by cases op <;> rfl
@[simp] theorem State.seqStart_rxAcc (op : StartOp) : (s.seqStart op).rxAcc = s.rxAcc := by cases op <;> rfl
@[simp] theorem State.seqStart_rxPar (op : StartOp) : (s.seqStart op).rxPar = s.rxPar := by cases op <;> rfl
@[simp] theorem State.seqStart_rxResend (op : StartOp) : (s.seqStart op).rxResend = s.rxResend := by cases op <;> rfl
@[simp] theorem State.seqStart_rxCauses (op : StartOp) : (s.seqStart op).rxCauses = s.rxCauses := by cases op <;> rfl
@[simp] theorem State.seqStart_txCnt (op : StartOp) : (s.seqStart op).txCnt = 0 := by cases op <;> rfl
@[simp] theorem State.seqStart_txPar (op : StartOp) : (s.seqStart op).txPar = true := by cases op <;> rfl
@[simp] theorem State.seqStart_seqStep (op : StartOp) : (s.seqStart op).seqStep = false := by cases op <;> rfl
@[simp] theorem State.seqStart_ledPending (op : StartOp) : (s.seqStart op).ledPending = s.ledPending := by cases op <;> rfl
@[simp] theorem State.seqStart_ledReq (op : StartOp) : (s.seqStart op).ledReq = s.ledReq := by cases op <;> rfl
@[simp] theorem State.seqStart_fatal (op : StartOp) : (s.seqStart op).fatal = s.fatal := by cases op <;> rfl
@[simp] theorem State.seqStart_inited (op : StartOp) : (s.seqStart op).inited = s.inited := by cases op <;> rfl
@[simp] theorem State.seqStart_statusLed (op : StartOp) : (s.seqStart op).statusLed = s.statusLed := by cases op <;> rfl
@[simp] theorem State.seqStart_ringMem (op : StartOp) : (s.seqStart op).ringMem = s.ringMem := by cases op <;> rfl
@[simp] theorem State.seqStart_ringWr (op : StartOp) : (s.seqStart op).ringWr = s.ringWr := by cases op <;> rfl
@[simp] theorem State.seqStart_ringRd (op : StartOp) : (s.seqStart op).ringRd = s.ringRd := by cases op <;> rfl
@[simp] theorem State.seqStart_wake (op : StartOp) : (s.seqStart op).wake = s.wake := by cases op <;> rfl
@[simp] theorem State.seqStart_tPhase (op : StartOp) : (s.seqStart op).tPhase = s.tPhase := by cases op <;> rfl
@[simp] theorem State.seqStart_tExt (op : StartOp) : (s.seqStart op).tExt = s.tExt := by cases op <;> rfl
@[simp] theorem State.seqStart_tBrk (op : StartOp) : (s.seqStart op).tBrk = s.tBrk := by cases op <;> rfl
@[simp] theorem State.seqStart_overrun (op : StartOp) : (s.seqStart op).overrun = s.overrun := by cases op <;> rfl
@[simp] theorem State.seqStart_ret (op : StartOp) : (s.seqStart op).ret = s.ret := by cases op <;> rfl
@[simp] theorem State.seqStart_stimulus (op : StartOp) : (s.seqStart op).stimulus = s.stimulus := by cases op <;> rfl
@[simp] theorem State.seqStart_outputs (op : StartOp) : (s.seqStart op).outputs = s.outputs := by cases op <;> rfl
@[simp] theorem State.seqStart_draws (op : StartOp) : (s.seqStart op).draws = s.draws := by cases op <;> rfl
@[simp] theorem State.seqStart_resend_seqOp : (s.seqStart .resend).seqOp = .resend := rfl
@[simp] theorem State.seqStart_resend_txByte : (s.seqStart .resend).txByte = Config.cmdResend := rfl
@[simp] theorem State.seqStart_resend_seqPayload : (s.seqStart .resend).seqPayload = s.seqPayload := rfl
@[simp] theorem State.seqStart_reset_seqOp : (s.seqStart .reset).seqOp = .reset := rfl
@[simp] theorem State.seqStart_reset_txByte : (s.seqStart .reset).txByte = s.params.cmdReset := rfl
@[simp] theorem State.seqStart_reset_seqPayload : (s.seqStart .reset).seqPayload = s.seqPayload := rfl
@[simp] theorem State.seqStart_ledChange_seqOp : (s.seqStart .ledChange).seqOp = .ledChange := rfl
@[simp] theorem State.seqStart_ledChange_txByte : (s.seqStart .ledChange).txByte = s.params.cmdSetLed := rfl
@[simp] theorem State.seqStart_ledChange_seqPayload : (s.seqStart .ledChange).seqPayload = ledXlate s.ledReq := rfl

/-! ### `afterOverrun`: of the fields not named here nothing is known -/

@[simp] theorem State.afterOverrun_params : s.afterOverrun.params = s.params := rfl
@[simp] theorem State.afterOverrun_ringMem : s.afterOverrun.ringMem = [] := rfl
@[simp] theorem State.afterOverrun_overrun : s.afterOverrun.overrun = true := rfl
@[simp] theorem State.afterOverrun_stimulus : s.afterOverrun.stimulus = s.stimulus := rfl
@[simp] theorem State.afterOverrun_outputs : s.afterOverrun.outputs = s.outputs ++ [.raised .ringOverrun] := rfl
@[simp] theorem State.afterOverrun_draws : s.afterOverrun.draws = s.draws + 1 := rfl

/-! ### `ringByte` -/

/-- The byte at an address depends on the memory and the draws alone. -/
theorem State.ringByte_congr {s t : State} (hm : t.ringMem = s.ringMem) (hd : t.draws = s.draws) (a : Nat) :
    t.ringByte a = s.ringByte a := by rw [State.ringByte, State.ringByte, hm, hd]

theorem State.ringByte_listed {s : State} {a : Nat} {b : Byte} (h : memRead s.ringMem a = some b) : s.ringByte a = b := by
  rw [State.ringByte, h]; rfl

end Sys2Proof.Machine
end

