-- ==== Sys2Proof/Laws/Ops.lean ====
section
/-! SUPPORT. For each shared operation, everything it can do, said once. -/

namespace Sys2Proof.Machine

/-! ### Composition and guards -/

@[simp] theorem andThen_next (s : State) (f : State → Result) : andThen (.next s) f = f s := rfl
@[simp] theorem andThen_fault (e : Fault) (f : State → Result) : andThen (.fault e) f = .fault e := rfl
@[simp] theorem andThen_refused (e : Refusal) (f : State → Result) : andThen (.refused e) f = .refused e := rfl

theorem andThen_eq_next {r : Result} {f : State → Result} {t : State} (h : andThen r f = .next t) :
    ∃ s, r = .next s ∧ f s = .next t := by
  cases r with
  | next s => exact ⟨s, rfl, h⟩
  | fault e => cases h
  | refused e => cases h

theorem onEdge_selected {s : State} {sel : BitVec 5} (f : State → Result) (h : Selects s sel) : onEdge sel f s = f s :=
  if_pos h

theorem onEdge_other {s : State} {sel : BitVec 5} (f : State → Result) (h : ¬Selects s sel) :
    onEdge sel f s = .next s := if_neg h

theorem onEdge_eq_next {s t : State} {sel : BitVec 5} {f : State → Result} (h : onEdge sel f s = .next t) :
    (Selects s sel ∧ f s = .next t) ∨ (¬Selects s sel ∧ t = s) := by
  by_cases hs : Selects s sel
  · exact .inl ⟨hs, by rwa [onEdge_selected f hs] at h⟩
  · rw [onEdge_other f hs] at h
    cases h
    exact .inr ⟨hs, rfl⟩

theorem onPhase_enabled {s : State} {ph : TPhase} (f : State → Result) (h : InPhase s ph) : onPhase ph f s = f s :=
  if_pos h

theorem onPhase_other {s : State} {ph : TPhase} (f : State → Result) (h : ¬InPhase s ph) : onPhase ph f s = .next s :=
  if_neg h

theorem onPhase_eq_next {s t : State} {ph : TPhase} {f : State → Result} (h : onPhase ph f s = .next t) :
    (InPhase s ph ∧ f s = .next t) ∨ (¬InPhase s ph ∧ t = s) := by
  by_cases hs : InPhase s ph
  · exact .inl ⟨hs, by rwa [onPhase_enabled f hs] at h⟩
  · rw [onPhase_other f hs] at h
    cases h
    exact .inr ⟨hs, rfl⟩

/-- A taken edge means: initialised, interrupt enabled, no fatal failure, CLK released. -/
theorem edgeTaken_iff {s : State} :
    s.edgeTaken = true ↔ s.inited = true ∧ s.irqEn = true ∧ s.fatal = false ∧ s.clkDrv = .z := by
  simp [State.edgeTaken, and_assoc]

theorem taskRuns_iff {s : State} : s.taskRuns = true ↔ s.inited = true ∧ s.fatal = false := by
  simp [State.taskRuns]

theorem edgeSelector_receiving {s : State} (h : s.mode = .receiving) : s.edgeSelector = 0#1 ++ s.rxCnt := by
  simp [State.edgeSelector, State.cnt, h, Mode.code]

theorem edgeSelector_transmitting {s : State} (h : s.mode = .transmitting) : s.edgeSelector = 1#1 ++ s.txCnt := by
  simp [State.edgeSelector, State.cnt, h, Mode.code]

theorem edgeSelector_lt_16 {s : State} {sel : BitVec 5} (h : s.edgeSelector = sel) (hs : sel.toNat < 16) :
    s.mode = .receiving ∧ s.rxCnt.toNat = sel.toNat := by
  cases hm : s.mode with
  | receiving =>
    rw [edgeSelector_receiving hm] at h
    subst h
    exact ⟨rfl, by rw [BitVec.toNat_append]; simp⟩
  | transmitting =>
    rw [edgeSelector_transmitting hm] at h
    subst h
    rw [BitVec.toNat_append, ← Nat.shiftLeft_add_eq_or_of_lt s.txCnt.isLt] at hs
    simp [Nat.shiftLeft_eq] at hs

theorem edgeSelector_ge_16 {s : State} {sel : BitVec 5} (h : s.edgeSelector = sel) (hs : 16 ≤ sel.toNat) :
    s.mode = .transmitting ∧ s.txCnt.toNat = sel.toNat - 16 := by
  cases hm : s.mode with
  | receiving =>
    rw [edgeSelector_receiving hm] at h
    subst h
    have := s.rxCnt.isLt
    rw [BitVec.toNat_append] at hs
    simp at hs
    omega
  | transmitting =>
    rw [edgeSelector_transmitting hm] at h
    subst h
    rw [BitVec.toNat_append, ← Nat.shiftLeft_add_eq_or_of_lt s.txCnt.isLt]
    simp [Nat.shiftLeft_eq]

/-! ### The ring buffer -/

theorem ringWrite_room {s : State} (b : Byte) (h : RingRoom s) :
    ringWrite b s =
      .next { s with ringMem := memWrite s.ringMem s.ringWr b, ringWr := (s.ringWr + 1) % s.params.cap } := by
  rw [ringWrite, if_neg h.1, if_pos h.2]

theorem ringWrite_eq_next {s t : State} {b : Byte} (h : ringWrite b s = .next t) :
    RingRoom s ∧
      t = { s with ringMem := memWrite s.ringMem s.ringWr b, ringWr := (s.ringWr + 1) % s.params.cap } := by
  unfold ringWrite at h
  split_ifs at h with h1 h2
  cases h
  exact ⟨⟨h1, h2⟩, rfl⟩

theorem ringWrite_full {s : State} (b : Byte) (h : RingFull s) : ringWrite b s = .fault .ringOverrun := if_pos h

theorem ringWrite_eq_overrun {s : State} {b : Byte} (h : ringWrite b s = .fault .ringOverrun) : RingFull s := by
  unfold ringWrite at h
  split_ifs at h with h1 h2
  · exact h1
  · cases h

theorem ringRead_holds {s : State} {b : Byte} (h : RingHolds s b) :
    ringRead s = .ok (b, { s with ringRd := (s.ringRd + 1) % s.params.cap }) := by
  obtain ⟨-, hc, rfl⟩ := h
  exact if_pos hc

theorem withRingByte_holds {s : State} {b : Byte} (f : Byte → State → State) (h : RingHolds s b) :
    withRingByte s f = .next (f b { s with ringRd := (s.ringRd + 1) % s.params.cap }) := by
  rw [withRingByte, if_neg h.1, ringRead_holds h]

theorem withRingByte_empty {s : State} (f : Byte → State → State) (h : s.ringWr = s.ringRd) :
    withRingByte s f = .next s := if_pos h

theorem withRingByte_eq_next {s t : State} {f : Byte → State → State} (h : withRingByte s f = .next t) :
    (s.ringWr = s.ringRd ∧ t = s) ∨
      ∃ b, RingHolds s b ∧ t = f b { s with ringRd := (s.ringRd + 1) % s.params.cap } := by
  by_cases he : s.ringWr = s.ringRd
  · rw [withRingByte_empty f he] at h
    cases h
    exact .inl ⟨he, rfl⟩
  · right
    by_cases hc : s.ringRd < s.params.cap
    · have hb : RingHolds s (s.ringByte s.ringRd) := ⟨he, hc, rfl⟩
      rw [withRingByte_holds f hb] at h
      cases h
      exact ⟨_, hb, rfl⟩
    · simp [withRingByte, he, ringRead, hc] at h

/-! ### `RingOverrun` -/

/-- The event is recorded, the parameters kept. -/
theorem afterOverrun_overran {s : State} (h : RingFull s) : Overran s s.afterOverrun := ⟨h, rfl, rfl, rfl⟩

theorem recordOverrun_next {f : State → Result} {s t : State} (h : f s = .next t) : recordOverrun f s = .next t := by
  rw [recordOverrun, h]

theorem recordOverrun_full {f : State → Result} {s : State} (h : f s = .fault .ringOverrun) :
    recordOverrun f s = .next s.afterOverrun := by rw [recordOverrun, h]; rfl

/-- An operation that cannot overrun is not touched. -/
theorem recordOverrun_eq {f : State → Result} {s : State} (h : f s ≠ .fault .ringOverrun) : recordOverrun f s = f s := by
  unfold recordOverrun
  cases hf : f s with
  | next t => rfl
  | refused e => rfl
  | fault e =>
    cases e with
    | ringOverrun => exact absurd hf h
    | ringAddress a => rfl

/-- Everything an operation run under `recordOverrun` can do: what it does alone, or the event. -/
theorem recordOverrun_eq_next {f : State → Result} {s t : State} (h : recordOverrun f s = .next t) :
    f s = .next t ∨ (f s = .fault .ringOverrun ∧ t = s.afterOverrun) := by
  by_cases hf : f s = .fault .ringOverrun
  · rw [recordOverrun_full hf] at h
    cases h
    exact .inr ⟨hf, rfl⟩
  · rw [recordOverrun_eq hf] at h
    exact .inl h

/-! ### Exceptional events, responses, the stop slot -/

/-- The state after an idle opportunity: the latched request claimed, or CLK released. -/
theorem idleOpportunity_cases (s : State) :
    (s.seqOp = .none ∧ s.ledPending = true ∧
      s.idleOpportunity = ({ s with ledPending := false } : State).seqStart .ledChange) ∨
    (¬(s.seqOp = .none ∧ s.ledPending = true) ∧ s.idleOpportunity = s.releaseToReceive) := by
  by_cases h : s.seqOp = .none ∧ s.ledPending = true
  · exact .inl ⟨h.1, h.2, if_pos h⟩
  · exact .inr ⟨h, if_neg h⟩

/-- What a dropped response leaves, by `DROP_POLICY`. -/
theorem drop_cases (s : State) (b : Byte) :
    (s.params.dropPolicy = .stall ∧ s.drop b = s.output (.raised (.droppedResponse s.seqOp s.seqStep b))) ∨
    (s.params.dropPolicy = .abandon ∧
      s.drop b = (s.output (.raised (.droppedResponse s.seqOp s.seqStep b))).seqIdle.releaseToReceive) := by
  cases h : s.params.dropPolicy with
  | stall => exact .inl ⟨rfl, by simp [State.drop, State.takeException, h]⟩
  | abandon => exact .inr ⟨rfl, by simp [State.drop, State.takeException, h]⟩

/-- Everything a response can do (30_encoding.md R100). -/
theorem seqResponse_eq_next {s t : State} {b : Byte} (h : seqResponse b s = .next t) :
    (s.seqOp = .reset ∧ s.seqStep = false ∧ b = Config.byteAck ∧ t = s.seqResetAck) ∨
    (s.seqOp = .reset ∧ s.seqStep = true ∧ b = Config.byteBat ∧ t = s.seqResetBat) ∨
    (s.seqOp = .reset ∧ s.seqStep = true ∧ b = Config.byteAck ∧ t = s.seqResetFatal b) ∨
    (s.seqOp = .ledChange ∧ s.seqStep = false ∧ b = Config.byteAck ∧ t = s.seqLedAck1) ∨
    (s.seqOp = .ledChange ∧ s.seqStep = true ∧ b = Config.byteAck ∧ t = s.seqLedAck2) ∨
    (((s.seqOp = .none ∨ s.seqOp = .resend) ∧ s.seqStep = false ∨
      (s.seqOp = .reset ∧ s.seqStep = false ∨ s.seqOp = .ledChange) ∧ b = Config.byteBat) ∧ t = s.drop b) := by
  unfold seqResponse at h
  cases ho : s.seqOp <;> cases hs : s.seqStep <;> simp only [ho, hs] at h <;>
    (try split_ifs at h) <;> cases h <;> simp_all [Config.byteAck, Config.byteBat]

/-- A response completes wherever R100 has a row for it. -/
theorem seqResponse_completes {s : State} {b : Byte} (hb : b.isResponse = true)
    (hs : s.seqOp = .none ∨ s.seqOp = .resend → s.seqStep = false) : ∃ t, seqResponse b s = .next t := by
  have hb' : b = Config.byteAck ∨ b = Config.byteBat := by simpa using hb
  unfold seqResponse
  cases ho : s.seqOp <;> cases hst : s.seqStep <;> simp_all <;> rcases hb' with rfl | rfl <;>
    simp [Config.byteAck, Config.byteBat]

/-- Everything the queue branch can do (40_rx_decoder.md R117). -/
theorem dispatchQueue_eq_next {s t : State} {b : Byte} (h : dispatchQueue b s = .next t) :
    RingRoom s ∧
      t = ({ s with
        ringMem := memWrite s.ringMem s.ringWr b
        ringWr := (s.ringWr + 1) % s.params.cap
        wake := s.wake + (if b.isPrefix then 0 else 1) } : State).idleOpportunity := by
  obtain ⟨s1, h1, h2⟩ := andThen_eq_next h
  obtain ⟨hr, rfl⟩ := ringWrite_eq_next h1
  refine ⟨hr, ?_⟩
  cases h2
  split_ifs <;> simp_all

theorem dispatchQueue_room {s : State} (b : Byte) (h : RingRoom s) :
    dispatchQueue b s = .next ({ s with
      ringMem := memWrite s.ringMem s.ringWr b
      ringWr := (s.ringWr + 1) % s.params.cap
      wake := s.wake + (if b.isPrefix then 0 else 1) } : State).idleOpportunity := by
  simp only [dispatchQueue, ringWrite_room b h, andThen_next]
  split_ifs <;> simp_all

theorem dispatchQueue_full {s : State} (b : Byte) (h : RingFull s) : dispatchQueue b s = .fault .ringOverrun := by
  rw [dispatchQueue, ringWrite_full b h]; rfl

theorem dispatchQueue_eq_overrun {s : State} {b : Byte} (h : dispatchQueue b s = .fault .ringOverrun) : RingFull s := by
  by_cases hf : RingFull s
  · exact hf
  · unfold dispatchQueue at h
    cases hw : ringWrite b s with
    | next t => rw [hw] at h; cases h
    | refused e => rw [hw] at h; cases h
    | fault e =>
      rw [hw] at h
      cases h
      exact ringWrite_eq_overrun hw

theorem seqResponse_ne_fault {s : State} {b : Byte} {e : Fault} : seqResponse b s ≠ .fault e := by
  unfold seqResponse
  cases s.seqOp <;> cases s.seqStep <;> simp only <;> (try split_ifs) <;> exact nofun

/-- Everything the stop slot's branch can do, by priority (R99). -/
theorem stopDispatch_eq_next {s t : State} (h : stopDispatch s = .next t) :
    (s.rxResend = true ∧ t = s.dispatchResend) ∨
    (s.rxResend = false ∧ s.rxAcc.isResponse = true ∧ seqResponse s.rxAcc s = .next t) ∨
    (s.rxResend = false ∧ s.rxAcc.isResponse = false ∧ dispatchQueue s.rxAcc s = .next t) := by
  unfold stopDispatch at h
  split_ifs at h with h1 h2
  · cases h; exact .inl ⟨h1, rfl⟩
  · exact .inr (.inl ⟨by simpa using h1, h2, h⟩)
  · exact .inr (.inr ⟨by simpa using h1, by simpa using h2, h⟩)

/-- The stop slot overruns exactly where it queues into the full buffer. -/
theorem stopDispatch_eq_overrun {s : State} :
    stopDispatch s = .fault .ringOverrun ↔ dispatchRow s = .dispatchQueue ∧ RingFull s := by
  unfold stopDispatch dispatchRow
  by_cases h1 : s.rxResend = true
  · simp [h1]
  · by_cases h2 : s.rxAcc.isResponse = true
    · have h3 : s.rxAcc = 0xFA ∨ s.rxAcc = 0xAA := by simpa [Config.byteAck, Config.byteBat] using h2
      rw [if_neg h1, if_pos h2, if_neg h1, if_pos h3]
      exact ⟨fun h => absurd h seqResponse_ne_fault, fun h => by cases h.1⟩
    · have h3 : ¬(s.rxAcc = 0xFA ∨ s.rxAcc = 0xAA) := by simpa [Config.byteAck, Config.byteBat] using h2
      rw [if_neg h1, if_neg h2, if_neg h1, if_neg h3]
      exact ⟨fun h => ⟨rfl, dispatchQueue_eq_overrun h⟩, fun h => dispatchQueue_full _ h.2⟩

theorem rxStop_eq_overrun {s : State} :
    rxStop s = .fault .ringOverrun ↔ dispatchRow s = .dispatchQueue ∧ RingFull s := by
  refine Iff.trans ?_ (stopDispatch_eq_overrun (s := s.inhibit))
  unfold rxStop
  cases stopDispatch s.inhibit with
  | next t =>
    rw [andThen_next]
    unfold finishStop
    split_ifs <;> simp
  | fault e => rfl
  | refused e => rfl

/-- Everything RX.STOP can do (R114). -/
theorem rxStop_eq_next {s t : State} (h : rxStop s = .next t) :
    ∃ u, stopDispatch s.inhibit = .next u ∧ ((u.fatal = true ∧ t = u) ∨ (u.fatal = false ∧ t = u.clearRx)) := by
  obtain ⟨u, h1, h2⟩ := andThen_eq_next h
  refine ⟨u, h1, ?_⟩
  unfold finishStop at h2
  split_ifs at h2 with hf
  · cases h2; exact .inl ⟨hf, rfl⟩
  · cases h2; exact .inr ⟨by simpa using hf, rfl⟩

/-- The output of `Emit`: one key event if the pair is mapped, else one `UnmappedKey`. -/
def emitOutput (s : State) (code : Byte) : Output :=
  if hidLookup s.params code s.tExt ≠ 0 then
    .keyEvent (eventFlagsOf (isModifier s.params code s.tExt) s.tBrk) (hidLookup s.params code s.tExt)
  else .raised (.unmappedKey code s.tExt)

/-- `Emit` writes one output and the phase, and nothing else (44_translator.md R195). -/
theorem emit_eq (s : State) (code : Byte) :
    s.emit code = { s with outputs := s.outputs ++ [emitOutput s code], tPhase := .waitEvent } := by
  by_cases h : hidLookup s.params code s.tExt ≠ 0
  · simp only [State.emit, emitOutput, if_pos h]; rfl
  · simp only [State.emit, emitOutput, if_neg h]; rfl

end Sys2Proof.Machine
end

