-- ==== Sys2Proof/Laws/Flat.lean ====
section
/-! SUPPORT. Each shared operation equals the flat form the statements use. -/

namespace Sys2Proof.Machine

theorem isPrefix_iff (b : Byte) : b.isPrefix = true ↔ b = 0xF0 ∨ b = 0xE0 := by
  simp [Config.byteBreak, Config.byteExt]

theorem isResponse_iff (b : Byte) : b.isResponse = true ↔ b = 0xFA ∨ b = 0xAA := by
  simp [Config.byteAck, Config.byteBat]

theorem txStart_eq (s : State) (b : Byte) : s.txStart b = transmits s b := rfl

theorem releaseToReceive_eq (s : State) : s.releaseToReceive = released s := rfl

theorem idleOpportunity_eq (s : State) : s.idleOpportunity = idles s := by
  unfold State.idleOpportunity idles
  split_ifs <;> rfl

theorem dispatchResend_eq (s : State) : s.dispatchResend = resends s s.rxCauses := rfl

theorem drop_eq (s : State) (b : Byte) : s.drop b = dropped s b := by
  unfold State.drop State.takeException dropped
  cases s.params.dropPolicy <;> rfl

theorem clearRx_eq (s : State) : s.clearRx = rxCleared s := rfl

theorem dispatchQueue_eq {s : State} (b : Byte) (h : RingRoom s) : dispatchQueue b s = .next (queued s b) := by
  rw [dispatchQueue_room b h, idleOpportunity_eq]
  have hw : (s.wake + if b.isPrefix then 0 else 1) = if b = 0xF0 ∨ b = 0xE0 then s.wake else s.wake + 1 := by
    by_cases hp : b.isPrefix = true
    · rw [if_pos hp, if_pos ((isPrefix_iff b).1 hp), Nat.add_zero]
    · rw [if_neg hp, if_neg (fun h => hp ((isPrefix_iff b).2 h))]
  rw [hw, queued]

theorem finishStop_eq (s : State) : finishStop s = .next (if s.fatal = true then s else rxCleared s) := by
  unfold finishStop
  split_ifs <;> rfl

theorem exec_dispatchQueue_eq {s : State} (h : ¬RingFull s) : exec .dispatchQueue s = dispatchQueue s.rxAcc s :=
  recordOverrun_eq fun hf => h (dispatchQueue_eq_overrun hf)

/-- The stop slot's branch is the row the priority selects, where it does not overrun. -/
theorem stopDispatch_eq {s : State} (h : ¬(dispatchRow s = .dispatchQueue ∧ RingFull s)) :
    stopDispatch s = exec (dispatchRow s) s := by
  unfold dispatchRow at h ⊢
  unfold stopDispatch
  by_cases h1 : s.rxResend = true
  · rw [if_pos h1, if_pos h1]; rfl
  · rw [if_neg h1, if_neg h1]
    rw [if_neg h1] at h
    by_cases h2 : s.rxAcc.isResponse = true
    · rw [if_pos h2, if_pos ((isResponse_iff _).1 h2)]; rfl
    · have h3 : ¬(s.rxAcc = 0xFA ∨ s.rxAcc = 0xAA) := fun h => h2 ((isResponse_iff _).2 h)
      rw [if_neg h3] at h
      rw [if_neg h2, if_neg h3, exec_dispatchQueue_eq fun hf => h ⟨rfl, hf⟩]

theorem rxStop_eq {s : State} (h : ¬(dispatchRow s = .dispatchQueue ∧ RingFull s)) : rxStop s =
    andThen (exec (dispatchRow s) { s with irqEn := false, clkDrv := .low }) fun u =>
      .next (if u.fatal = true then u else rxCleared u) := by
  have hd : dispatchRow s.inhibit = dispatchRow s := rfl
  unfold rxStop
  rw [stopDispatch_eq (s := s.inhibit) h, hd]
  congr 1
  funext u
  exact finishStop_eq u

/-- The row RX.STOP where it does not overrun, and where it does. -/
theorem exec_rxStop {s : State} (d : Bool) (hs : Selects s 0b01010)
    (h : ¬(dispatchRow s = .dispatchQueue ∧ RingFull s)) : exec (.rxStop d) s = rxStop s := by
  rw [show exec (.rxStop d) s = recordOverrun rxStop s from onEdge_selected _ hs]
  exact recordOverrun_eq fun hf => h (rxStop_eq_overrun.1 hf)

theorem exec_rxStop_overrun {s : State} (d : Bool) (hs : Selects s 0b01010)
    (h : dispatchRow s = .dispatchQueue ∧ RingFull s) : exec (.rxStop d) s = .next s.afterOverrun := by
  rw [show exec (.rxStop d) s = recordOverrun rxStop s from onEdge_selected _ hs]
  exact recordOverrun_full (rxStop_eq_overrun.2 h)

theorem emit_eq_emitted (s : State) (code : Byte) : s.emit code = emitted s code := by
  rw [emit_eq]
  unfold emitted keyOutput emitOutput eventFlagsOf
  by_cases h : hidLookup s.params code s.tExt = 0 <;> simp [h, flagMod, flagKey, flagBreak]

theorem outOfRange_iff (p : Params) (b : Byte) : outOfRange p b = true ↔ RangeError p b := by
  unfold outOfRange RangeError
  simp [Config.byteAck, Config.byteBat, Config.byteBreak, Config.byteExt, and_assoc]

end Sys2Proof.Machine
end

