-- ==== Sys2Proof/Laws/Effect.lean ====
section
/-! SUPPORT. Everything a row can do to the state, said once for all rows: a later proof about all rows is one case per way
of ending, not one per row. -/

namespace Sys2Proof.Machine

/-- What the branches of the stop slot and the transitions of the sequencer do. -/
inductive Branch (s : State) : State → Prop
  | resend (c : Causes) : Branch s (resends s c)
  | drop (b : Byte) : Branch s (dropped s b)
  | resetAck : Branch s (released { s with seqStep := true })
  | resetBat : Branch s (idles { s with
      statusLed := .off, outputs := s.outputs ++ [.statusLed .off], seqOp := .none, seqStep := false })
  | fatal (b : Byte) : Branch s { raises s (.fatalProtocolFailure b) with fatal := true }
  | ledAck1 : Branch s (transmits { s with seqStep := true } s.seqPayload)
  | ledAck2 : Branch s (idles { s with seqOp := .none, seqStep := false })
  | queue (b : Byte) (h : RingRoom s) : Branch s (queued s b)

/-- What the rows do. -/
inductive Effect (s : State) : State → Prop
  | same : Effect s s
  | rx (cnt : BitVec 4) (acc : Byte) (par resend : Bool) (causes : Causes) (h : s.edgeTaken = true) : Effect s
      { s with rxCnt := cnt, rxAcc := acc, rxPar := par, rxResend := resend, rxCauses := causes }
  | tx (drive : DataDrive) (par : Bool) (cnt : BitVec 4) (h : s.edgeTaken = true) :
      Effect s { s with dataDrv := drive, txPar := par, txCnt := cnt }
  | txDone (h : s.edgeTaken = true) : Effect s (txDone s)
  | branch {t : State} (h : Branch s t) : Effect s t
  | stop {u : State} (hs : Selects s 0b01010) (h : Branch { s with irqEn := false, clkDrv := .low } u) :
      Effect s (if u.fatal = true then u else rxCleared u)
  | release : Effect s (released s)
  | transmit (b : Byte) : Effect s (transmits s b)
  | start (op : SeqOp) (payload b : Byte) :
      Effect s (transmits { s with seqOp := op, seqStep := false, seqPayload := payload } b)
  | idle : Effect s (idles s)
  | init (h : s.inited = false) : Effect s { s with
      inited := true, mode := .transmitting, irqEn := true, clkDrv := .z, dataDrv := .low, txByte := s.params.cmdReset
      txCnt := 0, txPar := true, seqOp := .reset, seqStep := false, tPhase := .waitEvent }
  | led (m : Byte) (h : s.inited = true) (h' : s.fatal = false) : Effect s { s with ledReq := m, ledPending := true }
  | ringWrite (b : Byte) (h : RingRoom s) : Effect s
      { s with ringMem := memWrite s.ringMem s.ringWr b, ringWr := (s.ringWr + 1) % s.params.cap }
  | ret (v : Byte) : Effect s { s with ret := v }
  | ringRead (b : Byte) (h : RingHolds s b) : Effect s { s with ringRd := (s.ringRd + 1) % s.params.cap, ret := b }
  | wait (h : s.taskRuns = true) (h' : 0 < s.wake) : Effect s (xlWait s)
  | readExt (b : Byte) (h : s.taskRuns = true) (hb : RingHolds s b) : Effect s
      { s with ringRd := (s.ringRd + 1) % s.params.cap, tExt := true, tPhase := .readAfterExt }
  | readBreak (b : Byte) (h : s.taskRuns = true) (hb : RingHolds s b) : Effect s
      { s with ringRd := (s.ringRd + 1) % s.params.cap, tBrk := true, tPhase := .readAfterBreak }
  | readEmit (b : Byte) (h : s.taskRuns = true) (hb : RingHolds s b) : Effect s
      (emitted { s with ringRd := (s.ringRd + 1) % s.params.cap } b)
  | emit (code : Byte) : Effect s (emitted s code)
  | frame (es : List Event) (h : ∃ f, es = frameEdges f) : Effect s { s with stimulus := es ++ s.stimulus }
  | overrun (h : RingFull s) : Effect s s.afterOverrun

theorem seqResponse_branch {s t : State} {b : Byte} (h : seqResponse b s = .next t) : Branch s t := by
  rcases seqResponse_eq_next h with ⟨-, -, -, rfl⟩ | ⟨-, -, -, rfl⟩ | ⟨-, -, -, rfl⟩ | ⟨-, -, -, rfl⟩ |
    ⟨-, -, -, rfl⟩ | ⟨-, rfl⟩
  · exact .resetAck
  · rw [State.seqResetBat, idleOpportunity_eq]; exact .resetBat
  · exact .fatal b
  · exact .ledAck1
  · rw [State.seqLedAck2, idleOpportunity_eq]; exact .ledAck2
  · rw [drop_eq]; exact .drop b

theorem dispatchQueue_branch {s t : State} {b : Byte} (h : dispatchQueue b s = .next t) : Branch s t := by
  have hr := (dispatchQueue_eq_next h).1
  rw [dispatchQueue_eq b hr] at h
  cases h
  exact .queue b hr

theorem stopDispatch_branch {s t : State} (h : stopDispatch s = .next t) : Branch s t := by
  rcases stopDispatch_eq_next h with ⟨-, rfl⟩ | ⟨-, -, h⟩ | ⟨-, -, h⟩
  · exact .resend s.rxCauses
  · exact seqResponse_branch h
  · exact dispatchQueue_branch h

theorem rxStop_effect {s t : State} (hs : Selects s 0b01010) (h : rxStop s = .next t) : Effect s t := by
  obtain ⟨u, hu, ⟨hf, rfl⟩ | ⟨hf, rfl⟩⟩ := rxStop_eq_next h
  · have := Effect.stop hs (stopDispatch_branch hu)
    rwa [if_pos hf] at this
  · have := Effect.stop hs (stopDispatch_branch hu)
    rwa [if_neg (by simp [hf])] at this

theorem withRingByte_effect {s t : State} {f : Byte → State → State} (h : withRingByte s f = .next t)
    (hf : ∀ b, RingHolds s b → Effect s (f b { s with ringRd := (s.ringRd + 1) % s.params.cap })) : Effect s t := by
  rcases withRingByte_eq_next h with ⟨-, rfl⟩ | ⟨b, hb, rfl⟩
  · exact .same
  · exact hf b hb

/-- A queueing row: what it does, or the overrun. -/
theorem recordOverrun_effect {s t : State} {f : State → Result} (h : recordOverrun f s = .next t)
    (hn : f s = .next t → Effect s t) (hf : f s = .fault .ringOverrun → RingFull s) : Effect s t := by
  rcases recordOverrun_eq_next h with h | ⟨ho, rfl⟩
  · exact hn h
  · exact .overrun (hf ho)

theorem recordQueue_effect {s t : State} {b : Byte} (h : recordOverrun (dispatchQueue b) s = .next t) : Effect s t :=
  recordOverrun_effect h (fun h => .branch (dispatchQueue_branch h)) dispatchQueue_eq_overrun

/-- An edge row: nothing if it is not selected, else what it does. -/
theorem onEdge_effect {s t : State} {sel : BitVec 5} {f : State → Result} (h : onEdge sel f s = .next t)
    (hf : Selects s sel → f s = .next t → Effect s t) : Effect s t := by
  rcases onEdge_eq_next h with ⟨hs, h⟩ | ⟨-, rfl⟩
  · exact hf hs h
  · exact .same

theorem onPhase_effect {s t : State} {ph : TPhase} {f : State → Result} (h : onPhase ph f s = .next t)
    (hf : InPhase s ph → f s = .next t → Effect s t) : Effect s t := by
  rcases onPhase_eq_next h with ⟨hs, h⟩ | ⟨-, rfl⟩
  · exact hf hs h
  · exact .same

theorem rxData_effect {s t : State} {sel : BitVec 5} {k : Nat} {d : Bool}
    (h : onEdge sel (fun s => .next (rxData k d s)) s = .next t) : Effect s t :=
  onEdge_effect h fun hs h => by cases h; exact .rx _ _ _ _ _ hs.1

theorem txData_effect {s t : State} {sel : BitVec 5} {k : Nat}
    (h : onEdge sel (fun s => .next (txData k s)) s = .next t) : Effect s t :=
  onEdge_effect h fun hs h => by cases h; exact .tx _ _ _ hs.1

theorem changeLedState_effect {s t : State} {m : Byte} (h : changeLedState m s = .next t) : Effect s t := by
  unfold changeLedState at h
  split_ifs at h with h1 h2
  · cases h; exact .same
  · cases h; exact .led m (by simpa using h1) (by simpa using h2)

theorem execInit_effect {s t : State} (h : execInit s = .next t) : Effect s t := by
  unfold execInit at h
  split_ifs at h with h1
  cases h
  exact .init (by simpa using h1)

/-- Everything a row can do. -/
theorem exec_effect {i : Instr} {s t : State} (h : exec i s = .next t) : Effect s t := by
  cases i with
  | rxStart d => exact onEdge_effect (f := fun s => .next (rxStart d s)) h fun hs h => by cases h; exact .rx _ _ _ _ _ hs.1
  | rxData1 d => exact rxData_effect h
  | rxData2 d => exact rxData_effect h
  | rxData3 d => exact rxData_effect h
  | rxData4 d => exact rxData_effect h
  | rxData5 d => exact rxData_effect h
  | rxData6 d => exact rxData_effect h
  | rxData7 d => exact rxData_effect h
  | rxData8 d => exact rxData_effect h
  | rxParity d => exact onEdge_effect (f := fun s => .next (rxParity d s)) h fun hs h => by cases h; exact .rx _ _ _ _ _ hs.1
  | rxStop d => exact onEdge_effect h fun hs h => recordOverrun_effect h (rxStop_effect hs) fun hf => (rxStop_eq_overrun.1 hf).2
  | txData0 d => exact txData_effect h
  | txData1 d => exact txData_effect h
  | txData2 d => exact txData_effect h
  | txData3 d => exact txData_effect h
  | txData4 d => exact txData_effect h
  | txData5 d => exact txData_effect h
  | txData6 d => exact txData_effect h
  | txData7 d => exact txData_effect h
  | txParity d => exact onEdge_effect (f := fun s => .next (txParity s)) h fun hs h => by cases h; exact .tx _ _ _ hs.1
  | txStop d => exact onEdge_effect (f := fun s => .next (txStop s)) h fun hs h => by cases h; exact .tx _ _ _ hs.1
  | txDone d => exact onEdge_effect (f := fun s => .next (txDone s)) h fun hs h => by cases h; exact .txDone hs.1
  | dispatchResend => cases h; exact .branch (.resend s.rxCauses)
  | dispatchResponse => exact .branch (seqResponse_branch h)
  | dispatchQueue => exact recordQueue_effect h
  | seqResetAck => cases h; exact .branch .resetAck
  | seqDropReset0 => cases h; rw [drop_eq]; exact .branch (.drop _)
  | seqResetBat =>
    cases h
    rw [State.seqResetBat, idleOpportunity_eq]
    exact .branch .resetBat
  | seqResetFatal => cases h; exact .branch (.fatal _)
  | seqLedAck1 => cases h; exact .branch .ledAck1
  | seqDropLed0 => cases h; rw [drop_eq]; exact .branch (.drop _)
  | seqLedAck2 =>
    cases h
    rw [State.seqLedAck2, idleOpportunity_eq]
    exact .branch .ledAck2
  | seqDropLed1 => cases h; rw [drop_eq]; exact .branch (.drop _)
  | seqDropIdleAck => cases h; rw [drop_eq]; exact .branch (.drop _)
  | seqDropIdleBat => cases h; rw [drop_eq]; exact .branch (.drop _)
  | seqDropResend b => cases h; rw [drop_eq]; exact .branch (.drop _)
  | xlWait =>
    refine onPhase_effect (f := fun s => .next (if 0 < s.wake then xlWait s else s)) h fun hp h => ?_
    split_ifs at h with hw
    · cases h; exact .wait hp.1 hw
    · cases h; exact .same
  | xlRead1 =>
    refine onPhase_effect (f := fun s => withRingByte s xlFirst) h fun hp h => withRingByte_effect h fun b hb => ?_
    unfold xlFirst
    split_ifs
    · exact .readExt b hp.1 hb
    · exact .readBreak b hp.1 hb
    · rw [emit_eq_emitted]; exact .readEmit b hp.1 hb
  | xlRead2 =>
    refine onPhase_effect (f := fun s => withRingByte s xlSecond) h fun hp h => withRingByte_effect h fun b hb => ?_
    unfold xlSecond
    split_ifs
    · exact .readBreak b hp.1 hb
    · rw [emit_eq_emitted]; exact .readEmit b hp.1 hb
  | xlRead3 =>
    refine onPhase_effect (f := fun s => withRingByte s fun b s => s.emit b) h fun hp h => withRingByte_effect h fun b hb => ?_
    rw [emit_eq_emitted]
    exact .readEmit b hp.1 hb
  | init => exact execInit_effect h
  | changeLed m => exact changeLedState_effect h
  | txStart b => cases h; exact .transmit b
  | releaseToReceive => cases h; exact .release
  | seqStart op => cases h; cases op <;> exact .start _ _ _
  | idleOpportunity => cases h; rw [idleOpportunity_eq]; exact .idle
  | seqResponse b => exact .branch (seqResponse_branch h)
  | ringWrite b =>
    refine recordOverrun_effect h (fun h => ?_) ringWrite_eq_overrun
    obtain ⟨hr, rfl⟩ := ringWrite_eq_next h
    exact .ringWrite b hr
  | ringRead => exact withRingByte_effect h fun b hb => .ringRead b hb
  | emit c => cases h; rw [emit_eq_emitted]; exact .emit c
  | hidLookup c e => cases h; exact .ret _
  | isModifier c e => cases h; exact .ret _
  | ledXlate m => cases h; exact .ret _
  | frameD2H a b c d => cases h; exact .frame _ ⟨_, rfl⟩
  | frameH2D a b c d => cases h; exact .frame _ ⟨_, rfl⟩
  | byteAck => exact .branch (seqResponse_branch h)
  | byteBat => exact .branch (seqResponse_branch h)
  | byteBreak => exact recordQueue_effect h
  | byteExt => exact recordQueue_effect h
  | cmdResend => cases h; exact .transmit _
  | cmdReset => cases h; exact .transmit _
  | cmdSetLed => cases h; exact .transmit _
  | byteScan b => exact recordQueue_effect h
  | byteOutOfRange b => cases h; exact .branch (.resend _)
  | ledMaskHid m => exact changeLedState_effect h
  | ledMaskPs2 a b c => cases h; exact .transmit _
  | eventFlags a b c => cases h; exact .ret _

/-! ### What the flat forms leave alone -/

/-- What an idle opportunity does to each part of the state but the sequencer, the transmit registers and the mode. -/
theorem idles_keeps (s : State) :
    (idles s).params = s.params ∧ (idles s).inited = s.inited ∧ (idles s).fatal = s.fatal ∧
      (idles s).ringMem = s.ringMem ∧ (idles s).ringWr = s.ringWr ∧ (idles s).ringRd = s.ringRd ∧
      (idles s).wake = s.wake ∧ (idles s).outputs = s.outputs ∧ SameTask s (idles s) ∧ (idles s).ledReq = s.ledReq ∧
      (idles s).clkDrv = .z ∧ (idles s).irqEn = true ∧ SameRx s (idles s) ∧ (idles s).stimulus = s.stimulus ∧
      (idles s).statusLed = s.statusLed ∧ (idles s).overrun = s.overrun ∧ (idles s).draws = s.draws := by
  unfold idles
  split_ifs <;> simp [transmits, released, SameRx, SameTask]

/-- What a dropped response leaves alone under both policies. -/
theorem dropped_keeps (s : State) (b : Byte) :
    (dropped s b).params = s.params ∧ (dropped s b).inited = s.inited ∧ (dropped s b).fatal = s.fatal ∧
      (dropped s b).ringMem = s.ringMem ∧ (dropped s b).ringWr = s.ringWr ∧ (dropped s b).ringRd = s.ringRd ∧
      (dropped s b).wake = s.wake ∧
      (dropped s b).outputs = s.outputs ++ [.raised (.droppedResponse s.seqOp s.seqStep b)] ∧
      SameTask s (dropped s b) ∧ (dropped s b).ledReq = s.ledReq ∧ (dropped s b).ledPending = s.ledPending ∧
      SameRx s (dropped s b) ∧ (dropped s b).stimulus = s.stimulus ∧ (dropped s b).statusLed = s.statusLed ∧
      (dropped s b).overrun = s.overrun ∧ (dropped s b).draws = s.draws := by
  unfold dropped
  split <;> simp [raises, released, SameRx, SameTask]

/-- What every branch of the stop slot leaves alone. -/
theorem branch_keeps {s t : State} (h : Branch s t) :
    t.params = s.params ∧ t.inited = s.inited ∧ (s.fatal = true → t.fatal = true) ∧ t.ringRd = s.ringRd ∧
      SameTask s t ∧ t.ledReq = s.ledReq ∧ s.wake ≤ t.wake ∧ SameRx s t ∧ t.stimulus = s.stimulus ∧
      t.overrun = s.overrun ∧ t.draws = s.draws := by
  cases h with
  | drop b =>
    obtain ⟨h1, h2, h3, h4, h5, h6, h7, h8, h9, h10, h11, h12, h13, h14, h15, h16⟩ := dropped_keeps s b
    exact ⟨h1, h2, fun h => by rw [h3]; exact h, h6, h9, h10, by rw [h7], h12, h13, h15, h16⟩
  | resetBat =>
    obtain ⟨h1, h2, h3, h4, h5, h6, h7, h8, h9, h10, h11, h12, h13, h14, h15, h16, h17⟩ := idles_keeps { s with
      statusLed := .off, outputs := s.outputs ++ [.statusLed .off], seqOp := .none, seqStep := false }
    exact ⟨h1, h2, fun h => by rw [h3]; exact h, h6, h9, h10, by rw [h7], h13, h14, h16, h17⟩
  | ledAck2 =>
    obtain ⟨h1, h2, h3, h4, h5, h6, h7, h8, h9, h10, h11, h12, h13, h14, h15, h16, h17⟩ :=
      idles_keeps { s with seqOp := .none, seqStep := false }
    exact ⟨h1, h2, fun h => by rw [h3]; exact h, h6, h9, h10, by rw [h7], h13, h14, h16, h17⟩
  | queue b hr =>
    obtain ⟨h1, h2, h3, h4, h5, h6, h7, h8, h9, h10, h11, h12, h13, h14, h15, h16, h17⟩ := idles_keeps { s with
      ringMem := memWrite s.ringMem s.ringWr b
      ringWr := (s.ringWr + 1) % s.params.cap
      wake := if b = 0xF0 ∨ b = 0xE0 then s.wake else s.wake + 1 }
    refine ⟨h1, h2, fun h => by rw [queued, h3]; exact h, h6, h9, h10, ?_, h13, h14, h16, h17⟩
    rw [queued, h7]
    show s.wake ≤ if b = 0xF0 ∨ b = 0xE0 then s.wake else s.wake + 1
    split_ifs <;> omega
  | _ => simp [resends, transmits, raises, released, SameRx, SameTask]

/-- What every row leaves alone: the parameters; and no row undoes an overrun or, itself not overrunning, `init` or a
fatal failure, or draws a free value. -/
theorem effect_keeps {s t : State} (h : Effect s t) :
    t.params = s.params ∧ (s.overrun = true → t.overrun = true) ∧
      (Overran s t ∨ t.overrun = s.overrun ∧ t.draws = s.draws ∧ (s.inited = true → t.inited = true) ∧
        (s.fatal = true → t.fatal = true)) := by
  cases h with
  | branch h =>
    obtain ⟨h1, h2, h3, -, -, -, -, -, -, h10, h11⟩ := branch_keeps h
    exact ⟨h1, fun h => by rw [h10, h], .inr ⟨h10, h11, fun h => by rw [h2, h], h3⟩⟩
  | stop hs h =>
    obtain ⟨h1, h2, h3, -, -, -, -, -, -, h10, h11⟩ := branch_keeps h
    split_ifs with hf
    · exact ⟨h1, fun h => by rw [h10]; exact h, .inr ⟨h10, h11, fun h => by rw [h2]; exact h, h3⟩⟩
    · exact ⟨h1, fun h => by rw [rxCleared, h10]; exact h,
        .inr ⟨h10, h11, fun h => by rw [rxCleared, h2]; exact h, fun h => absurd (h3 h) hf⟩⟩
  | txDone ht =>
    unfold Machine.txDone State.returnFromException
    split_ifs <;> exact ⟨rfl, id, .inr ⟨rfl, rfl, id, id⟩⟩
  | idle =>
    obtain ⟨h1, h2, h3, -, -, -, -, -, -, -, -, -, -, -, -, h16, h17⟩ := idles_keeps s
    exact ⟨h1, fun h => by rw [h16, h], .inr ⟨h16, h17, fun h => by rw [h2, h], fun h => by rw [h3, h]⟩⟩
  | init hi => exact ⟨rfl, id, .inr ⟨rfl, rfl, fun _ => rfl, id⟩⟩
  | overrun hf => exact ⟨rfl, fun _ => rfl, .inl (afterOverrun_overran hf)⟩
  | _ => exact ⟨rfl, id, .inr ⟨rfl, rfl, id, id⟩⟩

end Sys2Proof.Machine
end

