-- ==== Sys2Proof/Laws/PerInstr.lean ====
section
/-! SUPPORT. One statement per row of spec/opcode_table.json: the encoder's word lies in the row's format, agrees with the row's
"match" under its "mask", and has no bit above the row's width. -/

namespace Sys2Proof

/-- A row's format, mask, match and width, as the opcode table gives them. -/
structure TableRow where
  space : Space
  mask : BitVec 16
  val : BitVec 16
  width : Nat

/-- The row of spec/opcode_table.json for each instruction. FRAME.D2H's row is the well-formed frame, start slot 0. -/
def tableRow : Instr → TableRow
  | .rxStart _ => ⟨.edge, 0x1f, 0x0, 5⟩
  | .rxData1 _ => ⟨.edge, 0x1f, 0x1, 5⟩
  | .rxData2 _ => ⟨.edge, 0x1f, 0x2, 5⟩
  | .rxData3 _ => ⟨.edge, 0x1f, 0x3, 5⟩
  | .rxData4 _ => ⟨.edge, 0x1f, 0x4, 5⟩
  | .rxData5 _ => ⟨.edge, 0x1f, 0x5, 5⟩
  | .rxData6 _ => ⟨.edge, 0x1f, 0x6, 5⟩
  | .rxData7 _ => ⟨.edge, 0x1f, 0x7, 5⟩
  | .rxData8 _ => ⟨.edge, 0x1f, 0x8, 5⟩
  | .rxParity _ => ⟨.edge, 0x1f, 0x9, 5⟩
  | .rxStop _ => ⟨.edge, 0x1f, 0xa, 5⟩
  | .txData0 _ => ⟨.edge, 0x1f, 0x10, 5⟩
  | .txData1 _ => ⟨.edge, 0x1f, 0x11, 5⟩
  | .txData2 _ => ⟨.edge, 0x1f, 0x12, 5⟩
  | .txData3 _ => ⟨.edge, 0x1f, 0x13, 5⟩
  | .txData4 _ => ⟨.edge, 0x1f, 0x14, 5⟩
  | .txData5 _ => ⟨.edge, 0x1f, 0x15, 5⟩
  | .txData6 _ => ⟨.edge, 0x1f, 0x16, 5⟩
  | .txData7 _ => ⟨.edge, 0x1f, 0x17, 5⟩
  | .txParity _ => ⟨.edge, 0x1f, 0x18, 5⟩
  | .txStop _ => ⟨.edge, 0x1f, 0x19, 5⟩
  | .txDone _ => ⟨.edge, 0x1f, 0x1a, 5⟩
  | .dispatchResend => ⟨.dispatch, 0x2, 0x2, 2⟩
  | .dispatchResponse => ⟨.dispatch, 0x3, 0x1, 2⟩
  | .dispatchQueue => ⟨.dispatch, 0x3, 0x0, 2⟩
  | .seqResetAck => ⟨.response, 0x7ff, 0x4fa, 11⟩
  | .seqDropReset0 => ⟨.response, 0x7ff, 0x4aa, 11⟩
  | .seqResetBat => ⟨.response, 0x7ff, 0x5aa, 11⟩
  | .seqResetFatal => ⟨.response, 0x7ff, 0x5fa, 11⟩
  | .seqLedAck1 => ⟨.response, 0x7ff, 0x2fa, 11⟩
  | .seqDropLed0 => ⟨.response, 0x7ff, 0x2aa, 11⟩
  | .seqLedAck2 => ⟨.response, 0x7ff, 0x3fa, 11⟩
  | .seqDropLed1 => ⟨.response, 0x7ff, 0x3aa, 11⟩
  | .seqDropIdleAck => ⟨.response, 0x7ff, 0xfa, 11⟩
  | .seqDropIdleBat => ⟨.response, 0x7ff, 0xaa, 11⟩
  | .seqDropResend _ => ⟨.response, 0x700, 0x600, 11⟩
  | .xlWait => ⟨.translator, 0x7, 0x1, 3⟩
  | .xlRead1 => ⟨.translator, 0x7, 0x2, 3⟩
  | .xlRead2 => ⟨.translator, 0x7, 0x3, 3⟩
  | .xlRead3 => ⟨.translator, 0x7, 0x4, 3⟩
  | .init => ⟨.proc .init, 0x0, 0x0, 0⟩
  | .changeLed _ => ⟨.proc .changeLed, 0x0, 0x0, 0⟩
  | .txStart _ => ⟨.proc .txStart, 0x0, 0x0, 0⟩
  | .releaseToReceive => ⟨.proc .releaseToReceive, 0x0, 0x0, 0⟩
  | .seqStart _ => ⟨.proc .seqStart, 0x0, 0x0, 0⟩
  | .idleOpportunity => ⟨.proc .idleOpportunity, 0x0, 0x0, 0⟩
  | .seqResponse _ => ⟨.proc .seqResponse, 0x0, 0x0, 0⟩
  | .ringWrite _ => ⟨.proc .ringWrite, 0x0, 0x0, 0⟩
  | .ringRead => ⟨.proc .ringRead, 0x0, 0x0, 0⟩
  | .emit _ => ⟨.proc .emit, 0x0, 0x0, 0⟩
  | .hidLookup _ _ => ⟨.proc .hidLookup, 0x0, 0x0, 0⟩
  | .isModifier _ _ => ⟨.proc .isModifier, 0x0, 0x0, 0⟩
  | .ledXlate _ => ⟨.proc .ledXlate, 0x0, 0x0, 0⟩
  | .frameD2H _ _ _ _ => ⟨.frameD2H, 0x1, 0x0, 11⟩
  | .frameH2D _ _ _ _ => ⟨.frameH2D, 0x0, 0x0, 11⟩
  | .byteAck => ⟨.byteValue, 0xff, 0xfa, 8⟩
  | .byteBat => ⟨.byteValue, 0xff, 0xaa, 8⟩
  | .byteBreak => ⟨.byteValue, 0xff, 0xf0, 8⟩
  | .byteExt => ⟨.byteValue, 0xff, 0xe0, 8⟩
  | .cmdResend => ⟨.byteValue, 0xff, 0xfe, 8⟩
  | .cmdReset => ⟨.byteValue, 0xff, 0xff, 8⟩
  | .cmdSetLed => ⟨.byteValue, 0xff, 0xed, 8⟩
  | .byteScan _ => ⟨.byteClass, 0x0, 0x0, 8⟩
  | .byteOutOfRange _ => ⟨.byteClass, 0x0, 0x0, 8⟩
  | .ledMaskHid _ => ⟨.ledMaskHid, 0x0, 0x0, 8⟩
  | .ledMaskPs2 _ _ _ => ⟨.ledMaskPs2, 0xf8, 0x0, 8⟩
  | .eventFlags _ _ _ => ⟨.eventFlags, 0xf8, 0x0, 8⟩

/-- The start slot of a device-to-host frame is low; every other row has no such slot (30_encoding.md R80, R95 (c)). -/
def startSlotLow : Instr → Prop
  | .frameD2H start _ _ _ => start = false
  | _ => True

/-- The family's statement about one instruction. -/
def Laws.TableRow.Statement (i : Instr) : Prop :=
  startSlotLow i →
    (encode i).space = (tableRow i).space ∧ (encode i).bits &&& (tableRow i).mask = (tableRow i).val ∧
      (encode i).bits.toNat < 2 ^ (tableRow i).width

theorem threeBits_row (x y z : Bool) : threeBits x y z &&& 0xf8 = 0 ∧ (threeBits x y z).toNat < 2 ^ 8 := by
  revert x y z; decide

theorem byteBits_row (b : Byte) : (b.setWidth 16).toNat < 2 ^ 8 := by
  have := b.isLt
  simp only [BitVec.toNat_setWidth]
  omega

theorem frameBits_row (f : BitVec 11) : (f.setWidth 16).toNat < 2 ^ 11 := by
  have := f.isLt
  simp only [BitVec.toNat_setWidth]
  omega

theorem Laws.TableRow.rxStart (d : Bool) : Laws.TableRow.Statement (.rxStart d) :=
  fun _ =>
    ⟨rfl, (by decide : (0x0#16) &&& 0x1f#16 = 0x0#16), (by decide : (0x0#16).toNat < 2 ^ 5)⟩

theorem Laws.TableRow.rxData1 (d : Bool) : Laws.TableRow.Statement (.rxData1 d) :=
  fun _ =>
    ⟨rfl, (by decide : (0x1#16) &&& 0x1f#16 = 0x1#16), (by decide : (0x1#16).toNat < 2 ^ 5)⟩

theorem Laws.TableRow.rxData2 (d : Bool) : Laws.TableRow.Statement (.rxData2 d) :=
  fun _ =>
    ⟨rfl, (by decide : (0x2#16) &&& 0x1f#16 = 0x2#16), (by decide : (0x2#16).toNat < 2 ^ 5)⟩

theorem Laws.TableRow.rxData3 (d : Bool) : Laws.TableRow.Statement (.rxData3 d) :=
  fun _ =>
    ⟨rfl, (by decide : (0x3#16) &&& 0x1f#16 = 0x3#16), (by decide : (0x3#16).toNat < 2 ^ 5)⟩

theorem Laws.TableRow.rxData4 (d : Bool) : Laws.TableRow.Statement (.rxData4 d) :=
  fun _ =>
    ⟨rfl, (by decide : (0x4#16) &&& 0x1f#16 = 0x4#16), (by decide : (0x4#16).toNat < 2 ^ 5)⟩

theorem Laws.TableRow.rxData5 (d : Bool) : Laws.TableRow.Statement (.rxData5 d) :=
  fun _ =>
    ⟨rfl, (by decide : (0x5#16) &&& 0x1f#16 = 0x5#16), (by decide : (0x5#16).toNat < 2 ^ 5)⟩

theorem Laws.TableRow.rxData6 (d : Bool) : Laws.TableRow.Statement (.rxData6 d) :=
  fun _ =>
    ⟨rfl, (by decide : (0x6#16) &&& 0x1f#16 = 0x6#16), (by decide : (0x6#16).toNat < 2 ^ 5)⟩

theorem Laws.TableRow.rxData7 (d : Bool) : Laws.TableRow.Statement (.rxData7 d) :=
  fun _ =>
    ⟨rfl, (by decide : (0x7#16) &&& 0x1f#16 = 0x7#16), (by decide : (0x7#16).toNat < 2 ^ 5)⟩

theorem Laws.TableRow.rxData8 (d : Bool) : Laws.TableRow.Statement (.rxData8 d) :=
  fun _ =>
    ⟨rfl, (by decide : (0x8#16) &&& 0x1f#16 = 0x8#16), (by decide : (0x8#16).toNat < 2 ^ 5)⟩

theorem Laws.TableRow.rxParity (d : Bool) : Laws.TableRow.Statement (.rxParity d) :=
  fun _ =>
    ⟨rfl, (by decide : (0x9#16) &&& 0x1f#16 = 0x9#16), (by decide : (0x9#16).toNat < 2 ^ 5)⟩

theorem Laws.TableRow.rxStop (d : Bool) : Laws.TableRow.Statement (.rxStop d) :=
  fun _ =>
    ⟨rfl, (by decide : (0xa#16) &&& 0x1f#16 = 0xa#16), (by decide : (0xa#16).toNat < 2 ^ 5)⟩

theorem Laws.TableRow.txData0 (d : Bool) : Laws.TableRow.Statement (.txData0 d) :=
  fun _ =>
    ⟨rfl, (by decide : (0x10#16) &&& 0x1f#16 = 0x10#16), (by decide : (0x10#16).toNat < 2 ^ 5)⟩

theorem Laws.TableRow.txData1 (d : Bool) : Laws.TableRow.Statement (.txData1 d) :=
  fun _ =>
    ⟨rfl, (by decide : (0x11#16) &&& 0x1f#16 = 0x11#16), (by decide : (0x11#16).toNat < 2 ^ 5)⟩

theorem Laws.TableRow.txData2 (d : Bool) : Laws.TableRow.Statement (.txData2 d) :=
  fun _ =>
    ⟨rfl, (by decide : (0x12#16) &&& 0x1f#16 = 0x12#16), (by decide : (0x12#16).toNat < 2 ^ 5)⟩

theorem Laws.TableRow.txData3 (d : Bool) : Laws.TableRow.Statement (.txData3 d) :=
  fun _ =>
    ⟨rfl, (by decide : (0x13#16) &&& 0x1f#16 = 0x13#16), (by decide : (0x13#16).toNat < 2 ^ 5)⟩

theorem Laws.TableRow.txData4 (d : Bool) : Laws.TableRow.Statement (.txData4 d) :=
  fun _ =>
    ⟨rfl, (by decide : (0x14#16) &&& 0x1f#16 = 0x14#16), (by decide : (0x14#16).toNat < 2 ^ 5)⟩

theorem Laws.TableRow.txData5 (d : Bool) : Laws.TableRow.Statement (.txData5 d) :=
  fun _ =>
    ⟨rfl, (by decide : (0x15#16) &&& 0x1f#16 = 0x15#16), (by decide : (0x15#16).toNat < 2 ^ 5)⟩

theorem Laws.TableRow.txData6 (d : Bool) : Laws.TableRow.Statement (.txData6 d) :=
  fun _ =>
    ⟨rfl, (by decide : (0x16#16) &&& 0x1f#16 = 0x16#16), (by decide : (0x16#16).toNat < 2 ^ 5)⟩

theorem Laws.TableRow.txData7 (d : Bool) : Laws.TableRow.Statement (.txData7 d) :=
  fun _ =>
    ⟨rfl, (by decide : (0x17#16) &&& 0x1f#16 = 0x17#16), (by decide : (0x17#16).toNat < 2 ^ 5)⟩

theorem Laws.TableRow.txParity (d : Bool) : Laws.TableRow.Statement (.txParity d) :=
  fun _ =>
    ⟨rfl, (by decide : (0x18#16) &&& 0x1f#16 = 0x18#16), (by decide : (0x18#16).toNat < 2 ^ 5)⟩

theorem Laws.TableRow.txStop (d : Bool) : Laws.TableRow.Statement (.txStop d) :=
  fun _ =>
    ⟨rfl, (by decide : (0x19#16) &&& 0x1f#16 = 0x19#16), (by decide : (0x19#16).toNat < 2 ^ 5)⟩

theorem Laws.TableRow.txDone (d : Bool) : Laws.TableRow.Statement (.txDone d) :=
  fun _ =>
    ⟨rfl, (by decide : (0x1a#16) &&& 0x1f#16 = 0x1a#16), (by decide : (0x1a#16).toNat < 2 ^ 5)⟩

theorem Laws.TableRow.dispatchResend : Laws.TableRow.Statement .dispatchResend :=
  fun _ =>
    ⟨rfl, (by decide : (0x2#16) &&& 0x2#16 = 0x2#16), (by decide : (0x2#16).toNat < 2 ^ 2)⟩

theorem Laws.TableRow.dispatchResponse : Laws.TableRow.Statement .dispatchResponse :=
  fun _ =>
    ⟨rfl, (by decide : (0x1#16) &&& 0x3#16 = 0x1#16), (by decide : (0x1#16).toNat < 2 ^ 2)⟩

theorem Laws.TableRow.dispatchQueue : Laws.TableRow.Statement .dispatchQueue :=
  fun _ =>
    ⟨rfl, (by decide : (0x0#16) &&& 0x3#16 = 0x0#16), (by decide : (0x0#16).toNat < 2 ^ 2)⟩

theorem Laws.TableRow.seqResetAck : Laws.TableRow.Statement .seqResetAck :=
  fun _ =>
    ⟨rfl, (by decide : (0x4fa#16) &&& 0x7ff#16 = 0x4fa#16), (by decide : (0x4fa#16).toNat < 2 ^ 11)⟩

theorem Laws.TableRow.seqDropReset0 : Laws.TableRow.Statement .seqDropReset0 :=
  fun _ =>
    ⟨rfl, (by decide : (0x4aa#16) &&& 0x7ff#16 = 0x4aa#16), (by decide : (0x4aa#16).toNat < 2 ^ 11)⟩

theorem Laws.TableRow.seqResetBat : Laws.TableRow.Statement .seqResetBat :=
  fun _ =>
    ⟨rfl, (by decide : (0x5aa#16) &&& 0x7ff#16 = 0x5aa#16), (by decide : (0x5aa#16).toNat < 2 ^ 11)⟩

theorem Laws.TableRow.seqResetFatal : Laws.TableRow.Statement .seqResetFatal :=
  fun _ =>
    ⟨rfl, (by decide : (0x5fa#16) &&& 0x7ff#16 = 0x5fa#16), (by decide : (0x5fa#16).toNat < 2 ^ 11)⟩

theorem Laws.TableRow.seqLedAck1 : Laws.TableRow.Statement .seqLedAck1 :=
  fun _ =>
    ⟨rfl, (by decide : (0x2fa#16) &&& 0x7ff#16 = 0x2fa#16), (by decide : (0x2fa#16).toNat < 2 ^ 11)⟩

theorem Laws.TableRow.seqDropLed0 : Laws.TableRow.Statement .seqDropLed0 :=
  fun _ =>
    ⟨rfl, (by decide : (0x2aa#16) &&& 0x7ff#16 = 0x2aa#16), (by decide : (0x2aa#16).toNat < 2 ^ 11)⟩

theorem Laws.TableRow.seqLedAck2 : Laws.TableRow.Statement .seqLedAck2 :=
  fun _ =>
    ⟨rfl, (by decide : (0x3fa#16) &&& 0x7ff#16 = 0x3fa#16), (by decide : (0x3fa#16).toNat < 2 ^ 11)⟩

theorem Laws.TableRow.seqDropLed1 : Laws.TableRow.Statement .seqDropLed1 :=
  fun _ =>
    ⟨rfl, (by decide : (0x3aa#16) &&& 0x7ff#16 = 0x3aa#16), (by decide : (0x3aa#16).toNat < 2 ^ 11)⟩

theorem Laws.TableRow.seqDropIdleAck : Laws.TableRow.Statement .seqDropIdleAck :=
  fun _ =>
    ⟨rfl, (by decide : (0xfa#16) &&& 0x7ff#16 = 0xfa#16), (by decide : (0xfa#16).toNat < 2 ^ 11)⟩

theorem Laws.TableRow.seqDropIdleBat : Laws.TableRow.Statement .seqDropIdleBat :=
  fun _ =>
    ⟨rfl, (by decide : (0xaa#16) &&& 0x7ff#16 = 0xaa#16), (by decide : (0xaa#16).toNat < 2 ^ 11)⟩

theorem Laws.TableRow.seqDropResend (b : Byte) : Laws.TableRow.Statement (.seqDropResend b) :=
  fun _ =>
    ⟨rfl, (by decide : ∀ b : Byte, ((0x06 : Byte) ++ b) &&& 0x700#16 = 0x600#16) b,
      (by decide : ∀ b : Byte, ((0x06 : Byte) ++ b).toNat < 2 ^ 11) b⟩

theorem Laws.TableRow.xlWait : Laws.TableRow.Statement .xlWait :=
  fun _ =>
    ⟨rfl, (by decide : (0x1#16) &&& 0x7#16 = 0x1#16), (by decide : (0x1#16).toNat < 2 ^ 3)⟩

theorem Laws.TableRow.xlRead1 : Laws.TableRow.Statement .xlRead1 :=
  fun _ =>
    ⟨rfl, (by decide : (0x2#16) &&& 0x7#16 = 0x2#16), (by decide : (0x2#16).toNat < 2 ^ 3)⟩

theorem Laws.TableRow.xlRead2 : Laws.TableRow.Statement .xlRead2 :=
  fun _ =>
    ⟨rfl, (by decide : (0x3#16) &&& 0x7#16 = 0x3#16), (by decide : (0x3#16).toNat < 2 ^ 3)⟩

theorem Laws.TableRow.xlRead3 : Laws.TableRow.Statement .xlRead3 :=
  fun _ =>
    ⟨rfl, (by decide : (0x4#16) &&& 0x7#16 = 0x4#16), (by decide : (0x4#16).toNat < 2 ^ 3)⟩

theorem Laws.TableRow.init : Laws.TableRow.Statement .init :=
  fun _ =>
    ⟨rfl, (by decide : (0x0#16) &&& 0x0#16 = 0x0#16), (by decide : (0x0#16).toNat < 2 ^ 0)⟩

theorem Laws.TableRow.changeLed (m : Byte) : Laws.TableRow.Statement (.changeLed m) :=
  fun _ =>
    ⟨rfl, (by decide : (0x0#16) &&& 0x0#16 = 0x0#16), (by decide : (0x0#16).toNat < 2 ^ 0)⟩

theorem Laws.TableRow.txStart (b : Byte) : Laws.TableRow.Statement (.txStart b) :=
  fun _ =>
    ⟨rfl, (by decide : (0x0#16) &&& 0x0#16 = 0x0#16), (by decide : (0x0#16).toNat < 2 ^ 0)⟩

theorem Laws.TableRow.releaseToReceive : Laws.TableRow.Statement .releaseToReceive :=
  fun _ =>
    ⟨rfl, (by decide : (0x0#16) &&& 0x0#16 = 0x0#16), (by decide : (0x0#16).toNat < 2 ^ 0)⟩

theorem Laws.TableRow.seqStart (op : StartOp) : Laws.TableRow.Statement (.seqStart op) :=
  fun _ =>
    ⟨rfl, (by decide : (0x0#16) &&& 0x0#16 = 0x0#16), (by decide : (0x0#16).toNat < 2 ^ 0)⟩

theorem Laws.TableRow.idleOpportunity : Laws.TableRow.Statement .idleOpportunity :=
  fun _ =>
    ⟨rfl, (by decide : (0x0#16) &&& 0x0#16 = 0x0#16), (by decide : (0x0#16).toNat < 2 ^ 0)⟩

theorem Laws.TableRow.seqResponse (b : Byte) : Laws.TableRow.Statement (.seqResponse b) :=
  fun _ =>
    ⟨rfl, (by decide : (0x0#16) &&& 0x0#16 = 0x0#16), (by decide : (0x0#16).toNat < 2 ^ 0)⟩

theorem Laws.TableRow.ringWrite (b : Byte) : Laws.TableRow.Statement (.ringWrite b) :=
  fun _ =>
    ⟨rfl, (by decide : (0x0#16) &&& 0x0#16 = 0x0#16), (by decide : (0x0#16).toNat < 2 ^ 0)⟩

theorem Laws.TableRow.ringRead : Laws.TableRow.Statement .ringRead :=
  fun _ =>
    ⟨rfl, (by decide : (0x0#16) &&& 0x0#16 = 0x0#16), (by decide : (0x0#16).toNat < 2 ^ 0)⟩

theorem Laws.TableRow.emit (code : Byte) : Laws.TableRow.Statement (.emit code) :=
  fun _ =>
    ⟨rfl, (by decide : (0x0#16) &&& 0x0#16 = 0x0#16), (by decide : (0x0#16).toNat < 2 ^ 0)⟩

theorem Laws.TableRow.hidLookup (code : Byte) (ext : Bool) : Laws.TableRow.Statement (.hidLookup code ext) :=
  fun _ =>
    ⟨rfl, (by decide : (0x0#16) &&& 0x0#16 = 0x0#16), (by decide : (0x0#16).toNat < 2 ^ 0)⟩

theorem Laws.TableRow.isModifier (code : Byte) (ext : Bool) : Laws.TableRow.Statement (.isModifier code ext) :=
  fun _ =>
    ⟨rfl, (by decide : (0x0#16) &&& 0x0#16 = 0x0#16), (by decide : (0x0#16).toNat < 2 ^ 0)⟩

theorem Laws.TableRow.ledXlate (m : Byte) : Laws.TableRow.Statement (.ledXlate m) :=
  fun _ =>
    ⟨rfl, (by decide : (0x0#16) &&& 0x0#16 = 0x0#16), (by decide : (0x0#16).toNat < 2 ^ 0)⟩

theorem Laws.TableRow.frameD2H (start : Bool) (data : Byte) (parity : Bool) (stop : Bool) : Laws.TableRow.Statement (.frameD2H start data parity stop) := by
  rintro (rfl : start = false)
  refine ⟨rfl, ?_, frameBits_row _⟩
  apply BitVec.eq_of_getLsbD_eq
  intro i hi
  cases i with
  | zero => rw [BitVec.getLsbD_and]; simp only [encode, tableRow, frameD2HBits, BitVec.getLsbD_setWidth, BitVec.getLsbD_append]; simp
  | succ n => simp [encode, tableRow, BitVec.getLsbD_one]

theorem Laws.TableRow.frameH2D (data : Byte) (parity : Bool) (release : Bool) (ack : Bool) : Laws.TableRow.Statement (.frameH2D data parity release ack) :=
  fun _ => ⟨rfl, BitVec.and_zero, frameBits_row _⟩

theorem Laws.TableRow.byteAck : Laws.TableRow.Statement .byteAck :=
  fun _ =>
    ⟨rfl, (by decide : (0xfa#16) &&& 0xff#16 = 0xfa#16), (by decide : (0xfa#16).toNat < 2 ^ 8)⟩

theorem Laws.TableRow.byteBat : Laws.TableRow.Statement .byteBat :=
  fun _ =>
    ⟨rfl, (by decide : (0xaa#16) &&& 0xff#16 = 0xaa#16), (by decide : (0xaa#16).toNat < 2 ^ 8)⟩

theorem Laws.TableRow.byteBreak : Laws.TableRow.Statement .byteBreak :=
  fun _ =>
    ⟨rfl, (by decide : (0xf0#16) &&& 0xff#16 = 0xf0#16), (by decide : (0xf0#16).toNat < 2 ^ 8)⟩

theorem Laws.TableRow.byteExt : Laws.TableRow.Statement .byteExt :=
  fun _ =>
    ⟨rfl, (by decide : (0xe0#16) &&& 0xff#16 = 0xe0#16), (by decide : (0xe0#16).toNat < 2 ^ 8)⟩

theorem Laws.TableRow.cmdResend : Laws.TableRow.Statement .cmdResend :=
  fun _ =>
    ⟨rfl, (by decide : (0xfe#16) &&& 0xff#16 = 0xfe#16), (by decide : (0xfe#16).toNat < 2 ^ 8)⟩

theorem Laws.TableRow.cmdReset : Laws.TableRow.Statement .cmdReset :=
  fun _ =>
    ⟨rfl, (by decide : (0xff#16) &&& 0xff#16 = 0xff#16), (by decide : (0xff#16).toNat < 2 ^ 8)⟩

theorem Laws.TableRow.cmdSetLed : Laws.TableRow.Statement .cmdSetLed :=
  fun _ =>
    ⟨rfl, (by decide : (0xed#16) &&& 0xff#16 = 0xed#16), (by decide : (0xed#16).toNat < 2 ^ 8)⟩

theorem Laws.TableRow.byteScan (b : Byte) : Laws.TableRow.Statement (.byteScan b) :=
  fun _ => ⟨rfl, BitVec.and_zero, byteBits_row _⟩

theorem Laws.TableRow.byteOutOfRange (b : Byte) : Laws.TableRow.Statement (.byteOutOfRange b) :=
  fun _ => ⟨rfl, BitVec.and_zero, byteBits_row _⟩

theorem Laws.TableRow.ledMaskHid (m : Byte) : Laws.TableRow.Statement (.ledMaskHid m) :=
  fun _ => ⟨rfl, BitVec.and_zero, byteBits_row _⟩

theorem Laws.TableRow.ledMaskPs2 (caps : Bool) (num : Bool) (scroll : Bool) : Laws.TableRow.Statement (.ledMaskPs2 caps num scroll) :=
  fun _ => ⟨rfl, threeBits_row caps num scroll⟩

theorem Laws.TableRow.eventFlags (brk : Bool) (mod : Bool) (key : Bool) : Laws.TableRow.Statement (.eventFlags brk mod key) :=
  fun _ => ⟨rfl, threeBits_row brk mod key⟩

end Sys2Proof
end

