-- ==== Sys2Proof/Laws/Ring.lean ====
section
/-! SUPPORT. The ring buffer as a queue: what a write and a read do to the unread bytes. -/

namespace Sys2Proof.Machine

/-- The number of unread bytes without a remainder. -/
theorem unreadCount_eq {s : State} (hc : CursorsIn s) :
    unreadCount s = if s.ringWr < s.ringRd then s.ringWr + s.params.cap - s.ringRd else s.ringWr - s.ringRd := by
  obtain ⟨h1, h2⟩ := hc
  unfold unreadCount
  split_ifs with hl
  · exact Nat.mod_eq_of_lt (by omega)
  · rw [show s.ringWr + s.params.cap - s.ringRd = (s.ringWr - s.ringRd) + s.params.cap by omega, Nat.add_mod_right]
    exact Nat.mod_eq_of_lt (by omega)

theorem unread_length (s : State) : (unread s).length = unreadCount s := by simp [unread]

theorem unreadCount_lt {s : State} (hc : CursorsIn s) : unreadCount s < s.params.cap :=
  Nat.mod_lt _ (by have := hc.1; omega)

theorem unreadCount_zero {s : State} (hc : CursorsIn s) : unreadCount s = 0 ↔ s.ringWr = s.ringRd := by
  rw [unreadCount_eq hc]
  obtain ⟨h1, h2⟩ := hc
  split_ifs <;> omega

theorem succ_mod {n c : Nat} (h : n < c) : (n + 1) % c = if n + 1 = c then 0 else n + 1 := by
  split_ifs with he
  · rw [he, Nat.mod_self]
  · exact Nat.mod_eq_of_lt (by omega)

/-- CAP-1 bytes are unread exactly when the next place of the write cursor is the read cursor. -/
theorem unreadCount_full {s : State} (hc : CursorsIn s) :
    unreadCount s = s.params.cap - 1 ↔ (s.ringWr + 1) % s.params.cap = s.ringRd := by
  rw [unreadCount_eq hc]
  obtain ⟨h1, h2⟩ := hc
  rw [succ_mod h1]
  split_ifs <;> omega

theorem unreadCount_write {s t : State} (hc : CursorsIn s) (hr : RingRoom s)
    (h1 : t.ringWr = (s.ringWr + 1) % s.params.cap) (h2 : t.ringRd = s.ringRd) (h3 : t.params = s.params) :
    unreadCount t = unreadCount s + 1 := by
  have hc' : CursorsIn t := by
    refine ⟨?_, ?_⟩
    · rw [h1, h3]; exact Nat.mod_lt _ (by have := hc.1; omega)
    · rw [h2, h3]; exact hc.2
  rw [unreadCount_eq hc, unreadCount_eq hc', h1, h2, h3]
  obtain ⟨hw, hd⟩ := hc
  obtain ⟨hr, -⟩ := hr
  rw [succ_mod hw] at hr ⊢
  split_ifs at hr ⊢ <;> omega

/-- The place of an unread byte, without a remainder. -/
theorem unreadAddress_eq {s : State} (hc : CursorsIn s) {i : Nat} (hi : i ≤ s.params.cap) :
    (s.ringRd + i) % s.params.cap =
      if s.ringRd + i < s.params.cap then s.ringRd + i else s.ringRd + i - s.params.cap := by
  obtain ⟨-, hd⟩ := hc
  split_ifs with h
  · exact Nat.mod_eq_of_lt h
  · rw [Nat.mod_eq_sub_mod (by omega)]
    exact Nat.mod_eq_of_lt (by omega)

/-- The place after the last unread byte is the write cursor, -/
theorem unreadAddress_end {s : State} (hc : CursorsIn s) : (s.ringRd + unreadCount s) % s.params.cap = s.ringWr := by
  have hlt := unreadCount_lt hc
  have hn := unreadCount_eq hc
  have hw := hc.1
  have hd := hc.2
  rw [unreadAddress_eq hc (by omega)]
  split_ifs at hn ⊢ <;> omega

/-- and no unread byte stands there (43_ring_buffer.md R185). -/
theorem unreadAddress_ne {s : State} (hc : CursorsIn s) {i : Nat} (hi : i < unreadCount s) :
    (s.ringRd + i) % s.params.cap ≠ s.ringWr := by
  have hlt := unreadCount_lt hc
  have hn := unreadCount_eq hc
  have hw := hc.1
  have hd := hc.2
  rw [unreadAddress_eq hc (by omega)]
  split_ifs at hn ⊢ <;> omega

theorem unreadCount_read {s t : State} (hc : CursorsIn s) (hne : s.ringWr ≠ s.ringRd) (h1 : t.ringWr = s.ringWr)
    (h2 : t.ringRd = (s.ringRd + 1) % s.params.cap) (h3 : t.params = s.params) : unreadCount s = unreadCount t + 1 := by
  obtain ⟨hw, hd⟩ := hc
  have hc' : CursorsIn t := by
    refine ⟨?_, ?_⟩
    · rw [h1, h3]; exact hw
    · rw [h2, h3]; exact Nat.mod_lt _ (by omega)
  rw [unreadCount_eq ⟨hw, hd⟩, unreadCount_eq hc', h1, h2, h3, succ_mod hd]
  split_ifs <;> omega

/-- The place of an unread byte seen from the next read cursor. -/
theorem unreadAddress_succ (s : State) (i : Nat) :
    ((s.ringRd + 1) % s.params.cap + i) % s.params.cap = (s.ringRd + (i + 1)) % s.params.cap := by
  rw [Nat.mod_add_mod, Nat.add_assoc, Nat.add_comm 1 i]

/-- A write appends its byte to the unread bytes. -/
theorem unread_write {s t : State} {b : Byte} (hc : CursorsIn s) (hr : RingRoom s)
    (h1 : t.ringWr = (s.ringWr + 1) % s.params.cap) (h2 : t.ringRd = s.ringRd) (h3 : t.params = s.params)
    (h4 : t.ringMem = memWrite s.ringMem s.ringWr b) (h5 : t.draws = s.draws) : unread t = unread s ++ [b] := by
  unfold unread
  rw [unreadCount_write hc hr h1 h2 h3, List.range_succ, List.map_append, h2, h3]
  congr 1
  · apply List.map_congr_left
    intro i hi
    rw [State.ringByte, State.ringByte, h4, h5, memRead_memWrite_other _ _ (unreadAddress_ne hc (List.mem_range.1 hi))]
  · rw [List.map_cons, List.map_nil, unreadAddress_end hc,
      State.ringByte_listed (by rw [h4]; exact memRead_memWrite_self ..)]

/-- A write into a buffer whose unread bytes have all been written leaves one. -/
theorem written_write {s t : State} {b : Byte} (hc : CursorsIn s) (hr : RingRoom s)
    (h1 : t.ringWr = (s.ringWr + 1) % s.params.cap) (h2 : t.ringRd = s.ringRd) (h3 : t.params = s.params)
    (h4 : t.ringMem = memWrite s.ringMem s.ringWr b)
    (h : ∀ i < unreadCount s, (memRead s.ringMem ((s.ringRd + i) % s.params.cap)).isSome = true) :
    ∀ i < unreadCount t, (memRead t.ringMem ((t.ringRd + i) % t.params.cap)).isSome = true := by
  intro i hi
  rw [unreadCount_write hc hr h1 h2 h3] at hi
  rw [h2, h3, h4]
  rcases Nat.lt_or_eq_of_le (Nat.le_of_lt_succ hi) with hi | rfl
  · rw [memRead_memWrite_other _ _ (unreadAddress_ne hc hi)]
    exact h i hi
  · rw [unreadAddress_end hc, memRead_memWrite_self]; rfl

/-- A read takes the oldest unread byte. -/
theorem unread_cons {s : State} {b : Byte} {q : List Byte} (hc : CursorsIn s) (h : unread s = b :: q) :
    RingHolds s b ∧
      ∀ t : State, t.ringWr = s.ringWr → t.ringMem = s.ringMem → t.draws = s.draws → t.params = s.params →
        t.ringRd = (s.ringRd + 1) % s.params.cap → unread t = q := by
  have hpos : unreadCount s = q.length + 1 := by rw [← unread_length, h]; rfl
  have hne : s.ringWr ≠ s.ringRd := fun he => by
    have := (unreadCount_zero hc).2 he
    omega
  have hu : unread s = s.ringByte (s.ringRd % s.params.cap) ::
      (List.range q.length).map fun i => s.ringByte ((s.ringRd + (i + 1)) % s.params.cap) := by
    unfold unread
    rw [hpos, List.range_succ_eq_map, List.map_cons, List.map_map]
    rfl
  rw [hu] at h
  injection h with h1 h2
  refine ⟨⟨hne, hc.2, by rw [← h1, Nat.mod_eq_of_lt hc.2]⟩, ?_⟩
  intro t t1 t2 t5 t3 t4
  have hcnt : unreadCount t = q.length := by
    have := unreadCount_read hc hne t1 t4 t3
    omega
  refine Eq.trans ?_ h2
  unfold unread
  rw [hcnt, t3, t4]
  apply List.map_congr_left
  intro i _
  rw [State.ringByte_congr t2 t5, unreadAddress_succ]

/-- What is left after a read has been written if what stood there had. -/
theorem written_read {s t : State} (hc : CursorsIn s) (hne : s.ringWr ≠ s.ringRd) (h1 : t.ringWr = s.ringWr)
    (h2 : t.ringRd = (s.ringRd + 1) % s.params.cap) (h3 : t.params = s.params) (h4 : t.ringMem = s.ringMem)
    (h : ∀ i < unreadCount s, (memRead s.ringMem ((s.ringRd + i) % s.params.cap)).isSome = true) :
    ∀ i < unreadCount t, (memRead t.ringMem ((t.ringRd + i) % t.params.cap)).isSome = true := by
  intro i hi
  have hn := unreadCount_read hc hne h1 h2 h3
  rw [h2, h3, h4, unreadAddress_succ]
  exact h (i + 1) (by omega)

end Sys2Proof.Machine
end

