-- ==== Sys2Proof/Laws/Step.lean ====
section
/-! SUPPORT. What one step can do: by offer, by event, by row. -/

namespace Sys2Proof.Machine

/-! ### Runs -/

@[simp] theorem runSteps_zero (s : State) : runSteps 0 s = .next s := rfl

theorem runSteps_succ (n : Nat) (s : State) : runSteps (n + 1) s = andThen (step s) (runSteps n) := rfl

theorem runSteps_next (n : Nat) {s t : State} (h : step s = .next t) : runSteps (n + 1) s = runSteps n t := by
  rw [runSteps_succ, h, andThen_next]

/-- A run of a sum of steps is the second part from where the first ends. -/
theorem runSteps_add (m n : Nat) (s : State) : runSteps (m + n) s = andThen (runSteps m s) (runSteps n) := by
  induction m generalizing s with
  | zero => rw [Nat.zero_add, runSteps_zero, andThen_next]
  | succ m ih =>
    rw [Nat.succ_add, runSteps_succ, runSteps_succ]
    cases step s with
    | next u => exact ih u
    | fault e => rfl
    | refused e => rfl

theorem hostRun_next (M : Host.Core) (n : Nat) {s t : M.State} (h : M.step s = .next t) :
    M.run (n + 1) s = M.run n t := by
  rw [Host.Core.run.eq_def]; simp only [h]

theorem hostRun_fault (M : Host.Core) (n : Nat) {s : M.State} {e : M.Fault} (h : M.step s = .fault e) :
    M.run (n + 1) s = .fault e := by
  rw [Host.Core.run.eq_def]; simp only [h]

theorem hostRun_refused (M : Host.Core) (n : Nat) {s : M.State} {e : M.Refusal} (h : M.step s = .refused e) :
    M.run (n + 1) s = .refused e := by
  rw [Host.Core.run.eq_def]; simp only [h]

/-- `runSteps` is the run of the machine behind Host/Core.lean. -/
theorem runSteps_eq_core (n : Nat) (s : State) : runSteps n s = Host.Core.run Sys2Proof.core n s := by
  induction n generalizing s with
  | zero => rfl
  | succ n ih =>
    rw [runSteps_succ]
    cases h : step s with
    | next u => exact (ih u).trans (hostRun_next Sys2Proof.core n h).symm
    | fault e => exact (hostRun_fault Sys2Proof.core n h).symm
    | refused e => exact (hostRun_refused Sys2Proof.core n h).symm

/-! ### Steps by offer -/

theorem step_settle {s t : State} (h : s.offer = .settle t) : step s = .next t := by rw [step, h]

theorem step_run {s u : State} {w : TableWord} {i : Instr} (h : s.offer = .run w u)
    (hd : decode s.params.maxCode w = .ok i) : step s = exec i u := by
  rw [step, h]; simp only [hd]

/-- Everything a step that goes on has done: settled, or run the row of a word. -/
theorem step_eq_next {s t : State} (h : step s = .next t) :
    s.offer = .settle t ∨
      ∃ w i u, s.offer = .run w u ∧ decode s.params.maxCode w = .ok i ∧ exec i u = .next t := by
  unfold step at h
  cases ho : s.offer with
  | settle u => rw [ho] at h; cases h; exact .inl rfl
  | run w u =>
    rw [ho] at h
    simp only at h
    cases hd : decode s.params.maxCode w with
    | ok i => rw [hd] at h; exact .inr ⟨w, i, u, rfl, hd, h⟩
    | error e => rw [hd] at h; cases h

/-! ### Steps by event -/

theorem offer_nil {s : State} (h : s.stimulus = []) : s.offer = .settle s := by rw [State.offer, h]

theorem offer_cons {s : State} {e : Event} {rest : List Event} (h : s.stimulus = e :: rest) :
    s.offer = offerEvent e { s with stimulus := rest } := by rw [State.offer, h]

/-- The selector of an edge word is the one the state forms. -/
theorem edgeWord_toNat (s : State) (d : Bool) : (s.edgeWord d).bits.toNat = s.edgeSelector.toNat := by
  have := s.edgeSelector.isLt
  simp only [State.edgeWord, BitVec.toNat_setWidth]
  omega

theorem decode_edgeWord (mc : Byte) (s : State) (d : Bool) :
    decode mc (s.edgeWord d) = decodeEdge s.edgeSelector.toNat d := by
  rw [← edgeWord_toNat s d]; rfl

theorem xlWord_toNat (s : State) : s.xlWord.bits.toNat = s.tPhase.code.toNat := by
  simp only [State.xlWord]
  cases s.tPhase <;> rfl

theorem decode_xlWord (mc : Byte) (s : State) : decode mc s.xlWord = decodeTranslator s.tPhase.code.toNat := by
  rw [← xlWord_toNat s]; rfl

/-- An edge that is taken runs the row its selector stands for. -/
theorem step_edge_taken {s : State} {d : Bool} {rest : List Event} {i : Instr} (h : s.stimulus = .edge d :: rest)
    (ht : s.edgeTaken = true) (hd : decodeEdge s.edgeSelector.toNat d = .ok i) :
    step s = exec i { s with stimulus := rest } := by
  have ht' : ({ s with stimulus := rest } : State).edgeTaken = true := ht
  refine step_run (w := s.edgeWord d) ?_ ?_
  · rw [offer_cons h]; simp only [offerEvent, ht', if_true]; rfl
  · rw [decode_edgeWord, hd]

/-- An edge that is not taken is lost. -/
theorem step_edge_lost {s : State} {d : Bool} {rest : List Event} (h : s.stimulus = .edge d :: rest)
    (ht : s.edgeTaken = false) : step s = .next { s with stimulus := rest } := by
  have ht' : ({ s with stimulus := rest } : State).edgeTaken = false := ht
  refine step_settle ?_
  rw [offer_cons h]; simp [offerEvent, ht']

/-- Decoding an edge selector: the row, or a reserved selector. -/
theorem decodeEdge_receiving {n : Nat} {d : Bool} {i : Instr} (h : decodeEdge n d = .ok i) (hn : n < 16) :
    (n = 0 ∧ i = .rxStart d) ∨ (1 ≤ n ∧ n ≤ 8 ∧ i = rxDataRow n d) ∨ (n = 9 ∧ i = .rxParity d) ∨
      (n = 10 ∧ i = .rxStop d) := by
  interval_cases n <;> simp [decodeEdge] at h <;> subst h <;> simp [rxDataRow]

theorem decodeEdge_transmitting {n : Nat} {d : Bool} {i : Instr} (h : decodeEdge (16 + n) d = .ok i) (hn : n < 16) :
    (n ≤ 7 ∧ i = txDataRow n d) ∨ (n = 8 ∧ i = .txParity d) ∨ (n = 9 ∧ i = .txStop d) ∨ (n = 10 ∧ i = .txDone d) := by
  interval_cases n <;> simp [decodeEdge] at h <;> subst h <;> simp [txDataRow]

/-! ### Rows by what they run -/

theorem exec_rxDataRow {s : State} {k : Nat} (d : Bool) (h1 : 1 ≤ k) (h8 : k ≤ 8)
    (h : Selects s (BitVec.ofNat 5 k)) : exec (rxDataRow k d) s = .next (rxData k d s) := by
  interval_cases k <;> exact onEdge_selected (fun s => .next (rxData _ d s)) h

theorem exec_txDataRow {s : State} {k : Nat} (d : Bool) (h7 : k ≤ 7)
    (h : Selects s (BitVec.ofNat 5 (16 + k))) : exec (txDataRow k d) s = .next (txData k s) := by
  interval_cases k <;> exact onEdge_selected (fun s => .next (txData _ s)) h

/-- What a taken edge does in receive mode. -/
theorem step_edge_receiving {s t : State} {d : Bool} {rest : List Event} (h : s.stimulus = .edge d :: rest)
    (ht : s.edgeTaken = true) (hm : s.mode = .receiving) (hs : step s = .next t) :
    (s.rxCnt = 0 ∧ t = rxStart d { s with stimulus := rest }) ∨
    (1 ≤ s.rxCnt.toNat ∧ s.rxCnt.toNat ≤ 8 ∧ t = rxData s.rxCnt.toNat d { s with stimulus := rest }) ∨
    (s.rxCnt = 9 ∧ t = rxParity d { s with stimulus := rest }) ∨
    (s.rxCnt = 10 ∧ recordOverrun rxStop { s with stimulus := rest } = .next t) := by
  have hsel : s.edgeSelector.toNat = s.rxCnt.toNat := by
    rw [edgeSelector_receiving hm, BitVec.toNat_append]; simp
  have hlt := s.rxCnt.isLt
  cases hd : decodeEdge s.edgeSelector.toNat d with
  | error e =>
    rw [step, offer_cons h] at hs
    have ht' : ({ s with stimulus := rest } : State).edgeTaken = true := ht
    simp only [offerEvent, ht', if_true, decode_edgeWord] at hs
    have : ({ s with stimulus := rest } : State).edgeSelector = s.edgeSelector := rfl
    rw [this, hd] at hs
    cases hs
  | ok i =>
    rw [step_edge_taken h ht hd] at hs
    have hsel' : Selects { s with stimulus := rest } s.edgeSelector := ⟨ht, rfl⟩
    have hof : s.edgeSelector = BitVec.ofNat 5 s.rxCnt.toNat := by
      apply BitVec.eq_of_toNat_eq; rw [hsel]; simp; omega
    rw [hof] at hsel'
    rw [hsel] at hd
    rcases decodeEdge_receiving hd hlt with ⟨hn, rfl⟩ | ⟨h1, h8, rfl⟩ | ⟨hn, rfl⟩ | ⟨hn, rfl⟩
    · left
      rw [hn] at hsel'
      rw [show exec (.rxStart d) _ = _ from onEdge_selected (fun s => .next (rxStart d s)) hsel'] at hs
      cases hs
      exact ⟨BitVec.eq_of_toNat_eq hn, rfl⟩
    · right; left
      rw [exec_rxDataRow d h1 h8 hsel'] at hs
      cases hs
      exact ⟨h1, h8, rfl⟩
    · right; right; left
      rw [hn] at hsel'
      rw [show exec (.rxParity d) _ = _ from onEdge_selected (fun s => .next (rxParity d s)) hsel'] at hs
      cases hs
      exact ⟨BitVec.eq_of_toNat_eq hn, rfl⟩
    · right; right; right
      rw [hn] at hsel'
      rw [show exec (.rxStop d) _ = _ from onEdge_selected (recordOverrun rxStop) hsel'] at hs
      exact ⟨BitVec.eq_of_toNat_eq hn, hs⟩

/-- What a taken edge does in transmit mode. -/
theorem step_edge_transmitting {s t : State} {d : Bool} {rest : List Event} (h : s.stimulus = .edge d :: rest)
    (ht : s.edgeTaken = true) (hm : s.mode = .transmitting) (hs : step s = .next t) :
    (s.txCnt.toNat ≤ 7 ∧ t = txData s.txCnt.toNat { s with stimulus := rest }) ∨
    (s.txCnt = 8 ∧ t = txParity { s with stimulus := rest }) ∨
    (s.txCnt = 9 ∧ t = txStop { s with stimulus := rest }) ∨
    (s.txCnt = 10 ∧ t = txDone { s with stimulus := rest }) := by
  have hlt := s.txCnt.isLt
  have hsel : s.edgeSelector.toNat = 16 + s.txCnt.toNat := by
    rw [edgeSelector_transmitting hm, BitVec.toNat_append, ← Nat.shiftLeft_add_eq_or_of_lt s.txCnt.isLt]
    simp [Nat.shiftLeft_eq]
  cases hd : decodeEdge s.edgeSelector.toNat d with
  | error e =>
    rw [step, offer_cons h] at hs
    have ht' : ({ s with stimulus := rest } : State).edgeTaken = true := ht
    simp only [offerEvent, ht', if_true, decode_edgeWord] at hs
    have : ({ s with stimulus := rest } : State).edgeSelector = s.edgeSelector := rfl
    rw [this, hd] at hs
    cases hs
  | ok i =>
    rw [step_edge_taken h ht hd] at hs
    have hsel' : Selects { s with stimulus := rest } s.edgeSelector := ⟨ht, rfl⟩
    have hof : s.edgeSelector = BitVec.ofNat 5 (16 + s.txCnt.toNat) := by
      apply BitVec.eq_of_toNat_eq; rw [hsel]; simp; omega
    rw [hof] at hsel'
    rw [hsel] at hd
    rcases decodeEdge_transmitting hd hlt with ⟨h7, rfl⟩ | ⟨hn, rfl⟩ | ⟨hn, rfl⟩ | ⟨hn, rfl⟩
    · left
      rw [exec_txDataRow d h7 hsel'] at hs
      cases hs
      exact ⟨h7, rfl⟩
    · right; left
      rw [hn] at hsel'
      rw [show exec (.txParity d) _ = _ from onEdge_selected (fun s => .next (txParity s)) hsel'] at hs
      cases hs
      exact ⟨BitVec.eq_of_toNat_eq hn, rfl⟩
    · right; right; left
      rw [hn] at hsel'
      rw [show exec (.txStop d) _ = _ from onEdge_selected (fun s => .next (txStop s)) hsel'] at hs
      cases hs
      exact ⟨BitVec.eq_of_toNat_eq hn, rfl⟩
    · right; right; right
      rw [hn] at hsel'
      rw [show exec (.txDone d) _ = _ from onEdge_selected (fun s => .next (txDone s)) hsel'] at hs
      cases hs
      exact ⟨BitVec.eq_of_toNat_eq hn, rfl⟩

/-- What the task's step does in each phase. -/
theorem exec_xlWord {s t : State} {i : Instr} (hd : decodeTranslator s.tPhase.code.toNat = .ok i)
    (hr : s.taskRuns = true) (h : exec i s = .next t) :
    (s.tPhase = .waitEvent ∧ t = if 0 < s.wake then xlWait s else s) ∨
    (s.tPhase = .readFirst ∧ withRingByte s xlFirst = .next t) ∨
    (s.tPhase = .readAfterExt ∧ withRingByte s xlSecond = .next t) ∨
    (s.tPhase = .readAfterBreak ∧ withRingByte s (fun b s => s.emit b) = .next t) := by
  cases hp : s.tPhase <;> rw [hp] at hd <;> simp [decodeTranslator, TPhase.code] at hd <;> subst hd
  · rw [show exec .xlWait s = _ from onPhase_enabled (fun s => .next (if 0 < s.wake then xlWait s else s)) ⟨hr, hp⟩] at h
    cases h; exact .inl ⟨rfl, rfl⟩
  · rw [show exec .xlRead1 s = _ from onPhase_enabled (fun s => withRingByte s xlFirst) ⟨hr, hp⟩] at h
    exact .inr (.inl ⟨rfl, h⟩)
  · rw [show exec .xlRead2 s = _ from onPhase_enabled (fun s => withRingByte s xlSecond) ⟨hr, hp⟩] at h
    exact .inr (.inr (.inl ⟨rfl, h⟩))
  · rw [show exec .xlRead3 s = _ from onPhase_enabled (fun s => withRingByte s fun b s => s.emit b) ⟨hr, hp⟩] at h
    exact .inr (.inr (.inr ⟨rfl, h⟩))

/-- What a translator step does when it does something. -/
inductive XlEffect (s : State) : State → Prop
  | wait (hp : s.tPhase = .waitEvent) (hw : 0 < s.wake) : XlEffect s (xlWait s)
  | first (b : Byte) (hp : s.tPhase = .readFirst) (hb : RingHolds s b) :
      XlEffect s (xlFirst b { s with ringRd := (s.ringRd + 1) % s.params.cap })
  | second (b : Byte) (hp : s.tPhase = .readAfterExt) (hb : RingHolds s b) :
      XlEffect s (xlSecond b { s with ringRd := (s.ringRd + 1) % s.params.cap })
  | third (b : Byte) (hp : s.tPhase = .readAfterBreak) (hb : RingHolds s b) :
      XlEffect s (emitted { s with ringRd := (s.ringRd + 1) % s.params.cap } b)

theorem exec_xlWord_effect {s t : State} {i : Instr} (hd : decodeTranslator s.tPhase.code.toNat = .ok i)
    (hr : s.taskRuns = true) (h : exec i s = .next t) : t = s ∨ XlEffect s t := by
  rcases exec_xlWord hd hr h with ⟨hp, h⟩ | ⟨hp, h⟩ | ⟨hp, h⟩ | ⟨hp, h⟩
  · split_ifs at h with hw
    · subst h; exact .inr (.wait hp hw)
    · exact .inl h
  · rcases withRingByte_eq_next h with ⟨-, rfl⟩ | ⟨b, hb, rfl⟩
    · exact .inl rfl
    · exact .inr (.first b hp hb)
  · rcases withRingByte_eq_next h with ⟨-, rfl⟩ | ⟨b, hb, rfl⟩
    · exact .inl rfl
    · exact .inr (.second b hp hb)
  · rcases withRingByte_eq_next h with ⟨-, rfl⟩ | ⟨b, hb, rfl⟩
    · exact .inl rfl
    · rw [emit_eq_emitted]; exact .inr (.third b hp hb)

/-- Everything a step of the task can do. -/
theorem step_xl {s t : State} {e : Event} {rest : List Event} (hst : s.stimulus = e :: rest) (he : e = .xl ∨ e = .xlAll)
    (h : step s = .next t) :
    ∃ es, (es = rest ∨ es = s.stimulus ∧ e = .xlAll) ∧
      (t = { s with stimulus := es } ∨ (s.taskRuns = true ∧ XlEffect { s with stimulus := es } t)) := by
  have ho := offer_cons hst
  rcases he with rfl | rfl
  · refine ⟨rest, .inl rfl, ?_⟩
    by_cases hr : s.taskRuns = true ∧ s.tPhase ≠ .idle
    · have hr' : (({ s with stimulus := rest } : State).taskRuns && ({ s with stimulus := rest } : State).tPhase != .idle)
          = true := by
        simp only [bne_iff_ne, Bool.and_eq_true]; exact hr
      simp only [offerEvent, hr', if_true] at ho
      rcases step_eq_next h with hs | ⟨w, i, u, hw, hd, hx⟩
      · rw [ho] at hs; cases hs
      · rw [ho] at hw
        cases hw
        rw [decode_xlWord] at hd
        rcases exec_xlWord_effect hd hr.1 hx with h | h
        · exact .inl h
        · exact .inr ⟨hr.1, h⟩
    · have hr' : (({ s with stimulus := rest } : State).taskRuns && ({ s with stimulus := rest } : State).tPhase != .idle)
          = false := by
        rw [Bool.eq_false_iff]
        simp only [bne_iff_ne, ne_eq, Bool.and_eq_true]; exact hr
      simp only [offerEvent, hr', Bool.false_eq_true, if_false] at ho
      rw [step_settle ho] at h
      cases h
      exact .inl rfl
  · by_cases hr : s.xlEnabled = true
    · have hr' : ({ s with stimulus := rest } : State).xlEnabled = true := hr
      simp only [offerEvent, hr', if_true] at ho
      have ht : s.taskRuns = true := by
        simp only [State.xlEnabled, Bool.and_eq_true] at hr; exact hr.1
      rcases step_eq_next h with hs | ⟨w, i, u, hw, hd, hx⟩
      · rw [ho] at hs; cases hs
      · rw [ho] at hw
        cases hw
        rw [decode_xlWord] at hd
        refine ⟨.xlAll :: rest, .inr ⟨hst.symm, rfl⟩, ?_⟩
        rcases exec_xlWord_effect (s := { s with stimulus := .xlAll :: rest }) hd ht hx with h | h
        · exact .inl h
        · exact .inr ⟨ht, h⟩
    · have hr' : ({ s with stimulus := rest } : State).xlEnabled = false := by
        rw [Bool.eq_false_iff]; exact hr
      simp only [offerEvent, hr', Bool.false_eq_true, if_false] at ho
      rw [step_settle ho] at h
      cases h
      exact ⟨rest, .inl rfl, .inl rfl⟩

/-- The frame event puts the frame's 11 edges in front (30_encoding.md R103). -/
theorem step_frame {s : State} {f : BitVec 11} {rest : List Event} (h : s.stimulus = .frame f :: rest) :
    step s = .next { s with stimulus := frameEdges f ++ rest } := by
  have hd : decode s.params.maxCode ⟨.frameD2H, f.setWidth 16, .none⟩ =
      .ok (.frameD2H (f.getLsbD 0) (f.extractLsb' 1 8) (f.getLsbD 9) (f.getLsbD 10)) := by
    simp [decode, word11_high, word11_field]
  have ho : s.offer = .run ⟨.frameD2H, f.setWidth 16, .none⟩ { s with stimulus := rest } := offer_cons h
  rw [step_run ho hd]
  show execFrameD2H _ _ _ _ _ = _
  rw [execFrameD2H, frameD2HBits_fields]

/-- Everything a step that goes on can have done: nothing was offered, a power-on reset, or the effect of a row on the
state with the event taken off (left in place by `XL*`). -/
theorem step_effect {s t : State} (h : step s = .next t) :
    (s.stimulus = [] ∧ t = s) ∨
    (∃ rest, s.stimulus = .reset :: rest ∧ t = ({ s with stimulus := rest } : State).powerCycle) ∨
    ∃ e rest es, s.stimulus = e :: rest ∧ e ≠ .reset ∧ (es = rest ∨ es = s.stimulus ∧ e = .xlAll) ∧
      Effect { s with stimulus := es } t := by
  cases hst : s.stimulus with
  | nil =>
    rcases step_eq_next h with ho | ⟨w, i, u, ho, -, -⟩ <;> rw [offer_nil hst] at ho <;> cases ho
    exact .inl ⟨rfl, rfl⟩
  | cons e rest =>
    right
    have ho := offer_cons hst
    rcases step_eq_next h with hs | ⟨w, i, u, hr, -, hx⟩
    · rw [ho] at hs
      cases e with
      | reset => cases hs; exact .inl ⟨rest, rfl, rfl⟩
      | init => cases hs
      | led m => cases hs
      | frame f => cases hs
      | txclk => cases hs
      | direct w => cases hs
      | edge d =>
        simp only [offerEvent] at hs
        split_ifs at hs
        cases hs
        exact .inr ⟨_, rest, rest, rfl, by simp, .inl rfl, .same⟩
      | xl =>
        simp only [offerEvent] at hs
        split_ifs at hs
        cases hs
        exact .inr ⟨_, rest, rest, rfl, by simp, .inl rfl, .same⟩
      | xlAll =>
        simp only [offerEvent] at hs
        split_ifs at hs
        cases hs
        exact .inr ⟨_, rest, rest, rfl, by simp, .inl rfl, .same⟩
    · have hx' := exec_effect hx
      rw [ho] at hr
      right
      cases e with
      | reset => cases hr
      | init => cases hr; exact ⟨_, rest, rest, rfl, by simp, .inl rfl, hx'⟩
      | led m => cases hr; exact ⟨_, rest, rest, rfl, by simp, .inl rfl, hx'⟩
      | frame f => cases hr; exact ⟨_, rest, rest, rfl, by simp, .inl rfl, hx'⟩
      | txclk => cases hr; exact ⟨_, rest, rest, rfl, by simp, .inl rfl, hx'⟩
      | direct w => cases hr; exact ⟨_, rest, rest, rfl, by simp, .inl rfl, hx'⟩
      | edge d =>
        simp only [offerEvent] at hr
        split_ifs at hr
        cases hr
        exact ⟨_, rest, rest, rfl, by simp, .inl rfl, hx'⟩
      | xl =>
        simp only [offerEvent] at hr
        split_ifs at hr
        cases hr
        exact ⟨_, rest, rest, rfl, by simp, .inl rfl, hx'⟩
      | xlAll =>
        simp only [offerEvent] at hr
        split_ifs at hr
        cases hr
        exact ⟨_, rest, .xlAll :: rest, rfl, by simp, .inr ⟨rfl, rfl⟩, hx'⟩

/-- Everything a step on an event of the spec can do; `u` is the state with the event taken off. -/
inductive SpecEffect (s : State) (e : Event) (rest : List Event) : State → Prop
  | lost : SpecEffect s e rest { s with stimulus := rest }
  | reset (he : e = .reset) : SpecEffect s e rest ({ s with stimulus := rest } : State).powerCycle
  | init (he : e = .init) (hi : s.inited = false) : SpecEffect s e rest { s with
      inited := true, mode := .transmitting, irqEn := true, clkDrv := .z, dataDrv := .low, txByte := s.params.cmdReset
      txCnt := 0, txPar := true, seqOp := .reset, seqStep := false, tPhase := .waitEvent, stimulus := rest }
  | led (m : Byte) (he : e = .led m) (hi : s.inited = true) (hf : s.fatal = false) :
      SpecEffect s e rest { s with ledReq := m, ledPending := true, stimulus := rest }
  | frame (f : BitVec 11) (he : e = .frame f ∨ e = .txclk) :
      SpecEffect s e rest { s with stimulus := frameEdges f ++ rest }
  | rxStart (d : Bool) (he : e = .edge d) (ht : s.edgeTaken = true) (hm : s.mode = .receiving) (hc : s.rxCnt = 0) :
      SpecEffect s e rest (rxStart d { s with stimulus := rest })
  | rxData (d : Bool) (he : e = .edge d) (ht : s.edgeTaken = true) (hm : s.mode = .receiving)
      (h1 : 1 ≤ s.rxCnt.toNat) (h8 : s.rxCnt.toNat ≤ 8) :
      SpecEffect s e rest (rxData s.rxCnt.toNat d { s with stimulus := rest })
  | rxParity (d : Bool) (he : e = .edge d) (ht : s.edgeTaken = true) (hm : s.mode = .receiving) (hc : s.rxCnt = 9) :
      SpecEffect s e rest (rxParity d { s with stimulus := rest })
  | rxStop {v : State} (d : Bool) (he : e = .edge d) (ht : s.edgeTaken = true) (hm : s.mode = .receiving)
      (hc : s.rxCnt = 10) (hv : stopDispatch { s with stimulus := rest, irqEn := false, clkDrv := .low } = .next v) :
      SpecEffect s e rest (if v.fatal = true then v else rxCleared v)
  | overrun (d : Bool) (he : e = .edge d) (ht : s.edgeTaken = true) (hm : s.mode = .receiving) (hc : s.rxCnt = 10)
      (hq : dispatchRow s = .dispatchQueue) (hf : RingFull s) :
      SpecEffect s e rest ({ s with stimulus := rest } : State).afterOverrun
  | txData (d : Bool) (he : e = .edge d) (ht : s.edgeTaken = true) (hm : s.mode = .transmitting)
      (h7 : s.txCnt.toNat ≤ 7) : SpecEffect s e rest (txData s.txCnt.toNat { s with stimulus := rest })
  | txParity (d : Bool) (he : e = .edge d) (ht : s.edgeTaken = true) (hm : s.mode = .transmitting) (hc : s.txCnt = 8) :
      SpecEffect s e rest (txParity { s with stimulus := rest })
  | txStop (d : Bool) (he : e = .edge d) (ht : s.edgeTaken = true) (hm : s.mode = .transmitting) (hc : s.txCnt = 9) :
      SpecEffect s e rest (txStop { s with stimulus := rest })
  | txDone (d : Bool) (he : e = .edge d) (ht : s.edgeTaken = true) (hm : s.mode = .transmitting) (hc : s.txCnt = 10) :
      SpecEffect s e rest (txDone { s with stimulus := rest })
  | xl {t : State} (es : List Event) (he : e = .xl ∨ e = .xlAll) (hes : es = rest ∨ es = s.stimulus)
      (hr : s.taskRuns = true) (hx : XlEffect { s with stimulus := es } t) : SpecEffect s e rest t
  | xlWaits (he : e = .xlAll) : SpecEffect s e rest s

theorem step_spec {s t : State} {e : Event} {rest : List Event} (hs : s.stimulus = e :: rest) (he : e.isSpec = true)
    (h : step s = .next t) : SpecEffect s e rest t := by
  have ho := offer_cons hs
  cases e with
  | direct w => cases he
  | reset =>
    rw [step_settle ho] at h
    cases h
    exact .reset rfl
  | init =>
    rw [step_run (i := .init) ho rfl] at h
    have h : execInit _ = _ := h
    unfold execInit at h
    split_ifs at h with hi
    cases h
    exact .init rfl (by simpa using hi)
  | led m =>
    rw [step_run (i := .changeLed m) ho rfl] at h
    have h : changeLedState m _ = _ := h
    unfold changeLedState at h
    split_ifs at h with h1 h2
    · cases h; exact .lost
    · cases h; exact .led m rfl (by simpa using h1) (by simpa using h2)
  | frame f =>
    rw [step_frame hs] at h
    cases h
    exact .frame f (.inl rfl)
  | txclk =>
    rw [step_run (i := .frameH2D 0xFF true true true) ho rfl] at h
    cases h
    exact .frame _ (.inr rfl)
  | edge d =>
    by_cases ht : s.edgeTaken = true
    · cases hm : s.mode with
      | receiving =>
        rcases step_edge_receiving hs ht hm h with ⟨hc, rfl⟩ | ⟨h1, h8, rfl⟩ | ⟨hc, rfl⟩ | ⟨hc, hx⟩
        · exact .rxStart d rfl ht hm hc
        · exact .rxData d rfl ht hm h1 h8
        · exact .rxParity d rfl ht hm hc
        · rcases recordOverrun_eq_next hx with hx | ⟨ho, rfl⟩
          rotate_left
          · obtain ⟨hq, hf⟩ := rxStop_eq_overrun.1 ho
            exact .overrun d rfl ht hm hc hq hf
          obtain ⟨v, hv, ⟨hf, rfl⟩ | ⟨hf, rfl⟩⟩ := rxStop_eq_next hx
          · have := SpecEffect.rxStop d rfl ht hm hc hv
            rwa [if_pos hf] at this
          · have := SpecEffect.rxStop d rfl ht hm hc hv
            rwa [if_neg (by simp [hf])] at this
      | transmitting =>
        rcases step_edge_transmitting hs ht hm h with ⟨h7, rfl⟩ | ⟨hc, rfl⟩ | ⟨hc, rfl⟩ | ⟨hc, rfl⟩
        · exact .txData d rfl ht hm h7
        · exact .txParity d rfl ht hm hc
        · exact .txStop d rfl ht hm hc
        · exact .txDone d rfl ht hm hc
    · rw [step_edge_lost hs (Bool.eq_false_iff.2 ht)] at h
      cases h
      exact .lost
  | xl =>
    obtain ⟨es, hes, rfl | ⟨hr, hx⟩⟩ := step_xl hs (.inl rfl) h
    · rcases hes with rfl | ⟨-, hf⟩
      · exact .lost
      · cases hf
    · exact .xl es (.inl rfl) (hes.imp_right And.left) hr hx
  | xlAll =>
    obtain ⟨es, hes, rfl | ⟨hr, hx⟩⟩ := step_xl hs (.inr rfl) h
    · rcases hes with rfl | ⟨rfl, -⟩
      · exact .lost
      · exact .xlWaits rfl
    · exact .xl es (.inr rfl) (hes.imp_right And.left) hr hx

/-- The flat form of what a read step does with its byte. -/
theorem xlFirst_eq (b : Byte) (s : State) : xlFirst b s =
    if b = 0xE0 then { s with tExt := true, tPhase := .readAfterExt }
    else if b = 0xF0 then { s with tBrk := true, tPhase := .readAfterBreak }
    else emitted s b := by
  rw [xlFirst, emit_eq_emitted]; rfl

theorem xlSecond_eq (b : Byte) (s : State) : xlSecond b s =
    if b = 0xF0 then { s with tBrk := true, tPhase := .readAfterBreak } else emitted s b := by
  rw [xlSecond, emit_eq_emitted]; rfl

/-- What a translator step leaves alone: all but the task's own state, `wake`, `outputs`. -/
theorem xlEffect_keeps {s t : State} (h : XlEffect s t) :
    SameInterrupt s t ∧ t.params = s.params ∧ t.ledPending = s.ledPending ∧ t.ledReq = s.ledReq ∧ t.wake ≤ s.wake ∧
      t.stimulus = s.stimulus ∧ t.ret = s.ret ∧ t.draws = s.draws ∧ t.ringMem = s.ringMem ∧
      t.overrun = s.overrun := by
  cases h with
  | wait hp hw => simp [xlWait, SameInterrupt, SameRx, SameTx, SameLines, SameSeq, SameStatus, State.ringByte]
  | first b hp hb =>
    rw [xlFirst_eq]
    split_ifs <;> simp [emitted, SameInterrupt, SameRx, SameTx, SameLines, SameSeq, SameStatus, State.ringByte]
  | second b hp hb =>
    rw [xlSecond_eq]
    split_ifs <;> simp [emitted, SameInterrupt, SameRx, SameTx, SameLines, SameSeq, SameStatus, State.ringByte]
  | third b hp hb => simp [emitted, SameInterrupt, SameRx, SameTx, SameLines, SameSeq, SameStatus, State.ringByte]

/-! ### The edge of each slot -/

theorem edgeSelector_toNat_receiving {s : State} (hm : s.mode = .receiving) : s.edgeSelector.toNat = s.rxCnt.toNat := by
  rw [edgeSelector_receiving hm, BitVec.toNat_append]; simp

theorem edgeSelector_toNat_transmitting {s : State} (hm : s.mode = .transmitting) :
    s.edgeSelector.toNat = 16 + s.txCnt.toNat := by
  rw [edgeSelector_transmitting hm, BitVec.toNat_append, ← Nat.shiftLeft_add_eq_or_of_lt s.txCnt.isLt]
  simp [Nat.shiftLeft_eq]

/-- Slot 0 of a frame. -/
theorem step_rxStart {s : State} {d : Bool} {rest : List Event} (h : s.stimulus = .edge d :: rest)
    (ht : s.edgeTaken = true) (hm : s.mode = .receiving) (hc : s.rxCnt = 0) :
    step s = .next (rxStart d { s with stimulus := rest }) := by
  have hsel : Selects { s with stimulus := rest } 0b00000 := ⟨ht, by
    apply BitVec.eq_of_toNat_eq
    rw [edgeSelector_toNat_receiving (s := { s with stimulus := rest }) hm]
    show s.rxCnt.toNat = _; rw [hc]; rfl⟩
  rw [step_edge_taken (i := .rxStart d) h ht (by rw [edgeSelector_toNat_receiving hm, hc]; rfl)]
  exact onEdge_selected (fun s => .next (rxStart d s)) hsel

/-- Slots 1 to 8 of a frame. -/
theorem step_rxData {s : State} {d : Bool} {rest : List Event} {k : Nat} (h : s.stimulus = .edge d :: rest)
    (ht : s.edgeTaken = true) (hm : s.mode = .receiving) (h1 : 1 ≤ k) (h8 : k ≤ 8) (hc : s.rxCnt = BitVec.ofNat 4 k) :
    step s = .next (rxData k d { s with stimulus := rest }) := by
  have hk : s.rxCnt.toNat = k := by rw [hc, BitVec.toNat_ofNat]; omega
  have hsel : Selects { s with stimulus := rest } (BitVec.ofNat 5 k) := ⟨ht, by
    apply BitVec.eq_of_toNat_eq
    rw [edgeSelector_toNat_receiving (s := { s with stimulus := rest }) hm, BitVec.toNat_ofNat]
    show s.rxCnt.toNat = _; omega⟩
  rw [step_edge_taken (i := rxDataRow k d) h ht (by
    rw [edgeSelector_toNat_receiving hm, hk]; interval_cases k <;> rfl)]
  exact exec_rxDataRow d h1 h8 hsel

/-- Slot 9 of a frame. -/
theorem step_rxParity {s : State} {d : Bool} {rest : List Event} (h : s.stimulus = .edge d :: rest)
    (ht : s.edgeTaken = true) (hm : s.mode = .receiving) (hc : s.rxCnt = 9) :
    step s = .next (rxParity d { s with stimulus := rest }) := by
  have hsel : Selects { s with stimulus := rest } 0b01001 := ⟨ht, by
    apply BitVec.eq_of_toNat_eq
    rw [edgeSelector_toNat_receiving (s := { s with stimulus := rest }) hm]
    show s.rxCnt.toNat = _; rw [hc]; rfl⟩
  rw [step_edge_taken (i := .rxParity d) h ht (by rw [edgeSelector_toNat_receiving hm, hc]; rfl)]
  exact onEdge_selected (fun s => .next (rxParity d s)) hsel

/-- Slot 10 of a frame, where it does not overrun. -/
theorem step_rxStop {s : State} {d : Bool} {rest : List Event} (h : s.stimulus = .edge d :: rest)
    (ht : s.edgeTaken = true) (hm : s.mode = .receiving) (hc : s.rxCnt = 10)
    (hq : ¬(dispatchRow s = .dispatchQueue ∧ RingFull s)) : step s = rxStop { s with stimulus := rest } := by
  have hsel : Selects { s with stimulus := rest } 0b01010 := ⟨ht, by
    apply BitVec.eq_of_toNat_eq
    rw [edgeSelector_toNat_receiving (s := { s with stimulus := rest }) hm]
    show s.rxCnt.toNat = _; rw [hc]; rfl⟩
  rw [step_edge_taken (i := .rxStop d) h ht (by rw [edgeSelector_toNat_receiving hm, hc]; rfl)]
  exact exec_rxStop d hsel hq

/-- The edge of slot k of a transmission, 0 to 10: what it runs. -/
theorem step_tx {s : State} {d : Bool} {rest : List Event} {k : Nat} (h : s.stimulus = .edge d :: rest)
    (ht : s.edgeTaken = true) (hm : s.mode = .transmitting) (hk : k ≤ 10) (hc : s.txCnt = BitVec.ofNat 4 k) :
    step s = .next
      (if k ≤ 7 then txData k { s with stimulus := rest }
      else if k = 8 then txParity { s with stimulus := rest }
      else if k = 9 then txStop { s with stimulus := rest }
      else txDone { s with stimulus := rest }) := by
  have hn : s.txCnt.toNat = k := by rw [hc, BitVec.toNat_ofNat]; omega
  have hsel : Selects { s with stimulus := rest } (BitVec.ofNat 5 (16 + k)) := ⟨ht, by
    apply BitVec.eq_of_toNat_eq
    rw [edgeSelector_toNat_transmitting (s := { s with stimulus := rest }) hm, BitVec.toNat_ofNat]
    show 16 + s.txCnt.toNat = _; omega⟩
  rw [step_edge_taken (i := edgeRow .transmitting k d) h ht (by
    rw [edgeSelector_toNat_transmitting hm, hn]; interval_cases k <;> rfl)]
  by_cases h7 : k ≤ 7
  · rw [if_pos h7, show edgeRow .transmitting k d = txDataRow k d from if_pos h7]
    exact exec_txDataRow d h7 hsel
  · rw [if_neg h7]
    obtain rfl | rfl | rfl : k = 8 ∨ k = 9 ∨ k = 10 := by omega
    · exact onEdge_selected (fun s => .next (txParity s)) hsel
    · exact onEdge_selected (fun s => .next (txStop s)) hsel
    · exact onEdge_selected (fun s => .next (txDone s)) hsel

end Sys2Proof.Machine
end

