-- ==== Sys2Proof/Tests/Slice0.lean ====
section
/-! SUPPORT. Tests of the model: the static checks, the decoder on words written out from 30_encoding.md, single steps with
results from 95_test_vectors.md, and for each statement with hypotheses a witness that meets them. -/

namespace Sys2Proof.Tests

open Sys2Proof Sys2Proof.Machine

/-! ### Helpers -/

/-- What f sees of the state after r, if there is one. -/
def after {α : Type} (r : Result) (f : State → α) : Option α :=
  match r with
  | .next s => some (f s)
  | .fault _ => none
  | .refused _ => none

/-- r ends in the fault e. -/
def faults (r : Result) (e : Fault) : Bool :=
  match r with
  | .fault e' => e == e'
  | .next _ | .refused _ => false

/-- r ends in the refusal e. -/
def refuses (r : Result) (e : Refusal) : Bool :=
  match r with
  | .refused e' => e == e'
  | .next _ | .fault _ => false

/-- The decoder at `MAX_CODE` = 0x83 gives i for the word. -/
def decodes (sp : Space) (bits : BitVec 16) (o : Operand) (i : Instr) : Bool :=
  (decode 0x83 ⟨sp, bits, o⟩).toOption == some i

/-- The decoder at `MAX_CODE` = 0x83 rejects the word for this reason. -/
def rejects (sp : Space) (bits : BitVec 16) (o : Operand) (e : DecodeError) : Bool :=
  match decode 0x83 ⟨sp, bits, o⟩ with
  | .ok _ => false
  | .error e' => e == e'

/-- A table of six entries that 95_test_vectors.md V40 uses, its modifiers, and CAP = 4. -/
def small : Params where
  cmdReset := 0xFF
  cmdSetLed := 0xED
  maxCode := 0x83
  hidTable := [(0x012, 0x02), (0x01C, 0x04), (0x075, 0x60), (0x114, 0x10), (0x11F, 0x08), (0x175, 0x52)]
  modifierSet := [(0x12, false), (0x14, true), (0x1F, true)]
  cap := 4
  dropPolicy := .stall
  tInhibitUs := 100

/-- IDLE of 95_test_vectors.md. -/
def idle : State :=
  { State.powerOn small .off with inited := true, irqEn := true, tPhase := .waitEvent, txByte := 0xFF }

/-- IDLE under `DROP_POLICY` = `Abandon`. -/
def idleAbandon : State := { idle with params := { small with dropPolicy := .abandon } }

/-- The receive slot k of IDLE. -/
def rxSlot (k : BitVec 4) : State := { idle with rxCnt := k }

/-- A transmission of b in slot k, nothing of it checked but the slot. -/
def txSlot (b : Byte) (k : BitVec 4) : State := { transmits idle b with txCnt := k }

/-- The stop slot of a sound frame of b. -/
def stopSlot (b : Byte) : State := { idle with rxCnt := 10, rxAcc := b, rxPar := oddParity b }

/-- The block stalled: IDLE after a dropped response under `Stall` (V24). -/
def stalled : State := { idle with irqEn := false, clkDrv := .low }

/-- The translator in a phase, one byte unread. -/
def reading (ph : TPhase) (b : Byte) : State := { idle with tPhase := ph, ringMem := [(0, b)], ringWr := 1 }

/-- CAP-1 bytes unread (V31). -/
def full : State := { idle with ringMem := [(0, 0x1C), (1, 0x1C), (2, 0x1C)], ringWr := 3, wake := 3 }

/-- The same events, next. -/
def offered (s : State) (es : List Event) : State := { s with stimulus := es }

/-! ### Static checks: an ill-formed term for each, refused -/

theorem test_wf_seqResponse : (Instr.seqResponse 0x00).wf 0x83 = false := by decide
theorem test_wf_byteScan_excepted : (Instr.byteScan 0xFA).wf 0xFF = false := by decide
theorem test_wf_byteScan_above : (Instr.byteScan 0x84).wf 0x83 = false := by decide
theorem test_wf_byteOutOfRange_excepted : (Instr.byteOutOfRange 0xE0).wf 0x83 = false := by decide
theorem test_wf_byteOutOfRange_below : (Instr.byteOutOfRange 0x83).wf 0x83 = false := by decide
theorem test_wf_eventFlags_both : (Instr.eventFlags false true true).wf 0x83 = false := by decide
theorem test_wf_eventFlags_neither : (Instr.eventFlags true false false).wf 0x83 = false := by decide

/-! ### Decoding: every row by a word written out from the tables of 30_encoding.md -/

/-- R98, the RX half. -/
theorem test_decode_rx :
    decodes .edge 0b00000 (.level true) (.rxStart true) ∧ decodes .edge 0b00001 (.level false) (.rxData1 false) ∧
    decodes .edge 0b00010 (.level true) (.rxData2 true) ∧ decodes .edge 0b00011 (.level false) (.rxData3 false) ∧
    decodes .edge 0b00100 (.level true) (.rxData4 true) ∧ decodes .edge 0b00101 (.level false) (.rxData5 false) ∧
    decodes .edge 0b00110 (.level true) (.rxData6 true) ∧ decodes .edge 0b00111 (.level false) (.rxData7 false) ∧
    decodes .edge 0b01000 (.level true) (.rxData8 true) ∧ decodes .edge 0b01001 (.level false) (.rxParity false) ∧
    decodes .edge 0b01010 (.level true) (.rxStop true) := by decide

/-- R98, the TX half. -/
theorem test_decode_tx :
    decodes .edge 0b10000 (.level true) (.txData0 true) ∧ decodes .edge 0b10001 (.level false) (.txData1 false) ∧
    decodes .edge 0b10010 (.level true) (.txData2 true) ∧ decodes .edge 0b10011 (.level false) (.txData3 false) ∧
    decodes .edge 0b10100 (.level true) (.txData4 true) ∧ decodes .edge 0b10101 (.level false) (.txData5 false) ∧
    decodes .edge 0b10110 (.level true) (.txData6 true) ∧ decodes .edge 0b10111 (.level false) (.txData7 false) ∧
    decodes .edge 0b11000 (.level true) (.txParity true) ∧ decodes .edge 0b11001 (.level false) (.txStop false) ∧
    decodes .edge 0b11010 (.level true) (.txDone true) := by decide

/-- R98: the counters 11 to 15 select nothing, nor does a selector of more than five bits. -/
theorem test_decode_edge_reserved :
    rejects .edge 0b01011 (.level false) .reservedSelector ∧ rejects .edge 0b01111 (.level false) .reservedSelector ∧
    rejects .edge 0b11011 (.level false) .reservedSelector ∧ rejects .edge 0b11111 (.level false) .reservedSelector ∧
    rejects .edge 0b100000 (.level false) .reservedSelector ∧ rejects .edge 0b00001 .none .wrongOperand := by decide

/-- R99. -/
theorem test_decode_dispatch :
    decodes .dispatch 0b10 .none .dispatchResend ∧ decodes .dispatch 0b11 .none .dispatchResend ∧
    decodes .dispatch 0b01 .none .dispatchResponse ∧ decodes .dispatch 0b00 .none .dispatchQueue ∧
    rejects .dispatch 0b100 .none .reservedSelector := by decide

/-- R100: `{seq_op, seq_step, b}`, two bits, one bit, eight bits. -/
theorem test_decode_response :
    decodes .response 0b10011111010 .none .seqResetAck ∧ decodes .response 0b10010101010 .none .seqDropReset0 ∧
    decodes .response 0b10110101010 .none .seqResetBat ∧ decodes .response 0b10111111010 .none .seqResetFatal ∧
    decodes .response 0b01011111010 .none .seqLedAck1 ∧ decodes .response 0b01010101010 .none .seqDropLed0 ∧
    decodes .response 0b01111111010 .none .seqLedAck2 ∧ decodes .response 0b01110101010 .none .seqDropLed1 ∧
    decodes .response 0b00011111010 .none .seqDropIdleAck ∧ decodes .response 0b00010101010 .none .seqDropIdleBat ∧
    decodes .response 0b11011111010 .none (.seqDropResend 0xFA) ∧
    decodes .response 0b11000000000 .none (.seqDropResend 0x00) ∧
    rejects .response 0b00111111010 .none .reservedSelector ∧ rejects .response 0b11111111010 .none .reservedSelector ∧
    rejects .response 0b10000000000 .none .reservedSelector := by decide

/-- R101. -/
theorem test_decode_translator :
    decodes .translator 0b001 .none .xlWait ∧ decodes .translator 0b010 .none .xlRead1 ∧
    decodes .translator 0b011 .none .xlRead2 ∧ decodes .translator 0b100 .none .xlRead3 ∧
    rejects .translator 0b000 .none .reservedSelector ∧ rejects .translator 0b101 .none .reservedSelector := by decide

/-- R101, R102: the rows that have a name and no bits. -/
theorem test_decode_procedures :
    decodes (.proc .init) 0 .none .init ∧ decodes (.proc .changeLed) 0 (.byte 0x07) (.changeLed 0x07) ∧
    decodes (.proc .txStart) 0 (.byte 0xFE) (.txStart 0xFE) ∧
    decodes (.proc .releaseToReceive) 0 .none .releaseToReceive ∧
    decodes (.proc .seqStart) 0 (.op .reset) (.seqStart .reset) ∧
    decodes (.proc .idleOpportunity) 0 .none .idleOpportunity ∧
    decodes (.proc .seqResponse) 0 (.byte 0xAA) (.seqResponse 0xAA) ∧
    decodes (.proc .ringWrite) 0 (.byte 0x1C) (.ringWrite 0x1C) ∧ decodes (.proc .ringRead) 0 .none .ringRead ∧
    decodes (.proc .emit) 0 (.byte 0x1C) (.emit 0x1C) ∧
    decodes (.proc .hidLookup) 0 (.coded 0x1F true) (.hidLookup 0x1F true) ∧
    decodes (.proc .isModifier) 0 (.coded 0x12 false) (.isModifier 0x12 false) ∧
    decodes (.proc .ledXlate) 0 (.byte 0x01) (.ledXlate 0x01) ∧
    rejects (.proc .init) 1 .none .reservedSelector ∧ rejects (.proc .init) 0 (.byte 0) .wrongOperand ∧
    rejects (.proc .seqResponse) 0 (.byte 0x1C) .wrongOperand := by decide

/-- R80 with the frames of V2, slot 10 first: 0x1C is `00011100001` and 0xFA is `00101111111` in slot order. R84: the
host's frame of 0xED, parity 1, release and acknowledge slots 1 and 0. -/
theorem test_decode_frames :
    decodes .frameD2H 0b10000111000 .none (.frameD2H false 0x1C false true) ∧
    decodes .frameD2H 0b11111110100 .none (.frameD2H false 0xFA true true) ∧
    decodes .frameD2H 0b00000000001 .none (.frameD2H true 0x00 false false) ∧
    decodes .frameH2D 0b01111101101 .none (.frameH2D 0xED true true false) ∧
    rejects .frameD2H 0b100000000000 .none .reservedSelector ∧
    rejects .frameH2D 0b100000000000 .none .reservedSelector := by decide

/-- R86, R87, R88, R89, R92. -/
theorem test_decode_bytes :
    decodes .byteValue 0b11111010 .none .byteAck ∧ decodes .byteValue 0b10101010 .none .byteBat ∧
    decodes .byteValue 0b11110000 .none .byteBreak ∧ decodes .byteValue 0b11100000 .none .byteExt ∧
    decodes .byteValue 0b11111110 .none .cmdResend ∧ decodes .byteValue 0b11111111 .none .cmdReset ∧
    decodes .byteValue 0b11101101 .none .cmdSetLed ∧ decodes .byteClass 0b10000011 .none (.byteScan 0x83) ∧
    decodes .byteClass 0b10000100 .none (.byteOutOfRange 0x84) ∧
    decodes .ledMaskHid 0b00000111 .none (.ledMaskHid 0x07) ∧
    decodes .ledMaskPs2 0b00000100 .none (.ledMaskPs2 true false false) ∧
    decodes .eventFlags 0b00000110 .none (.eventFlags true true false) ∧
    rejects .byteValue 0b00000000 .none .reservedSelector ∧ rejects .byteClass 0b11111010 .none .reservedSelector ∧
    rejects .ledMaskPs2 0b00001000 .none .reservedSelector ∧ rejects .eventFlags 0b00000011 .none .badEventKind ∧
    rejects .eventFlags 0b00000100 .none .badEventKind := by decide

/-- The bare words the host numbers as the table does: 8 bits of RX.STOP, 16 of SEQ.RESET_FATAL. -/
theorem test_decodeTableWord :
    decodeTableWord 8 0x0A = some (.rxStop false) ∧ decodeTableWord 16 0x5FA = some .seqResetFatal ∧
    decodeTableWord 8 0xFE = some .cmdResend ∧ decodeTableWord 8 0x1B = some (.byteScan 0x1B) := by decide

/-! ### The RX decoder (V1, V3, V4) -/

theorem test_rxStart_high : after (exec (.rxStart true) idle) (fun t => (t.rxCnt, t.rxResend)) = some (1, true) := by
  decide

/-- V1, slot 3. -/
theorem test_rxData3 : after (exec (.rxData3 true) (rxSlot 3)) (fun t => (t.rxCnt, t.rxAcc, t.rxPar)) =
    some (4, 0x04, false) := by decide

/-- The last data slot is bit 7. -/
theorem test_rxData8 : after (exec (.rxData8 true) (rxSlot 8)) (fun t => (t.rxCnt, t.rxAcc, t.rxPar)) =
    some (9, 0x80, false) := by decide

theorem test_rxData1 : after (exec (.rxData1 true) (rxSlot 1)) (fun t => (t.rxCnt, t.rxAcc)) = some (2, 0x01) := by
  decide
theorem test_rxData2 : after (exec (.rxData2 true) (rxSlot 2)) (fun t => (t.rxCnt, t.rxAcc)) = some (3, 0x02) := by
  decide
theorem test_rxData4 : after (exec (.rxData4 true) (rxSlot 4)) (fun t => (t.rxCnt, t.rxAcc)) = some (5, 0x08) := by
  decide
theorem test_rxData5 : after (exec (.rxData5 true) (rxSlot 5)) (fun t => (t.rxCnt, t.rxAcc)) = some (6, 0x10) := by
  decide
theorem test_rxData6 : after (exec (.rxData6 true) (rxSlot 6)) (fun t => (t.rxCnt, t.rxAcc)) = some (7, 0x20) := by
  decide
theorem test_rxData7 : after (exec (.rxData7 true) (rxSlot 7)) (fun t => (t.rxCnt, t.rxAcc)) = some (8, 0x40) := by
  decide

/-- V3: 0x84 is the first byte above `MAX_CODE`. -/
theorem test_rxParity_range : after (exec (.rxParity true) { rxSlot 9 with rxAcc := 0x84 })
    (fun t => (t.rxCnt, t.rxResend, t.rxCauses)) = some (10, true, ⟨false, false, true⟩) := by decide

/-- V1: parity of 0x1C is 0, and it is in range. -/
theorem test_rxParity_sound : after (exec (.rxParity false) { rxSlot 9 with rxAcc := 0x1C, rxPar := false })
    (fun t => t.rxResend) = some false := by decide

/-- V1, slot 10. -/
theorem test_rxStop_scan : after (exec (.rxStop true) (stopSlot 0x1C))
    (fun t => (t.ringMem, t.ringWr, t.wake, t.rxCnt, t.clkDrv)) = some ([(0, 0x1C)], 1, 1, 0, .z) := by decide

/-- P5, step 5. -/
theorem test_rxStop_fatal : after (exec (.rxStop true) { stopSlot 0xFA with seqOp := .reset, seqStep := true })
    (fun t => (t.fatal, t.irqEn, t.clkDrv, t.rxCnt, t.rxAcc)) = some (true, false, .low, 10, 0xFA) := by decide

/-- P2, step 7. -/
theorem test_dispatchResend : after (exec .dispatchResend { stopSlot 0x1F with rxResend := true, seqOp := .reset })
    (fun t => (t.seqOp, t.mode, t.txByte, t.dataDrv, t.clkDrv, t.ringWr)) =
    some (.resend, .transmitting, 0xFE, .low, .z, 0) := by decide

/-- V3: a prefix is queued and not signalled. -/
theorem test_dispatchQueue_prefix : after (exec .dispatchQueue (stopSlot 0xE0))
    (fun t => (t.ringMem, t.wake)) = some ([(0, 0xE0)], 0) := by decide

/-- V3: 0xAA with no sequence active, under `Stall`. -/
theorem test_dispatchResponse : after (exec .dispatchResponse (stopSlot 0xAA)) (fun t => t.outputs) =
    some [.raised (.droppedResponse .none false 0xAA)] := by decide

/-! ### The TX encoder (V10) -/

/-- 0x02, slot 1: H. -/
theorem test_txData1 : after (exec (.txData1 true) (txSlot 0x02 1)) (fun t => (t.dataDrv, t.txPar, t.txCnt)) =
    some (.high, false, 2) := by decide
theorem test_txData0 : after (exec (.txData0 true) (txSlot 0x02 0)) (fun t => (t.dataDrv, t.txPar, t.txCnt)) =
    some (.low, true, 1) := by decide
theorem test_txData2 : after (exec (.txData2 true) (txSlot 0x04 2)) (fun t => t.dataDrv) = some .high := by decide
theorem test_txData3 : after (exec (.txData3 true) (txSlot 0x08 3)) (fun t => t.dataDrv) = some .high := by decide
theorem test_txData4 : after (exec (.txData4 true) (txSlot 0x10 4)) (fun t => t.dataDrv) = some .high := by decide
theorem test_txData5 : after (exec (.txData5 true) (txSlot 0x20 5)) (fun t => t.dataDrv) = some .high := by decide
theorem test_txData6 : after (exec (.txData6 true) (txSlot 0x40 6)) (fun t => t.dataDrv) = some .high := by decide
theorem test_txData7 : after (exec (.txData7 true) (txSlot 0x80 7)) (fun t => t.dataDrv) = some .high := by decide

/-- 0xFE: parity L. -/
theorem test_txParity : after (exec (.txParity true) { txSlot 0xFE 8 with txPar := false })
    (fun t => (t.dataDrv, t.txCnt)) = some (.low, 9) := by decide
theorem test_txStop : after (exec (.txStop true) (txSlot 0xFE 9)) (fun t => (t.dataDrv, t.txCnt)) = some (.z, 10) := by
  decide

/-- P2, step 8. -/
theorem test_txDone : after (exec (.txDone true) { txSlot 0xFE 10 with seqOp := .resend })
    (fun t => (t.mode, t.seqOp, t.txCnt, t.txPar)) = some (.receiving, .none, 0, true) := by decide

/-- V11, from the stop slot. -/
theorem test_txStart : after (exec (.txStart 0xFE) stalled)
    (fun t => (t.txByte, t.mode, t.dataDrv, t.clkDrv, t.irqEn)) = some (0xFE, .transmitting, .low, .z, true) := by decide

/-! ### The sequencer (V20 to V25, P1, P3, P6) -/

theorem test_releaseToReceive : after (exec .releaseToReceive stalled) (fun t => (t.clkDrv, t.irqEn)) =
    some (.z, true) := by decide

/-- V21: the latch holds 0x04, the payload is 0x01. -/
theorem test_seqStart_led : after (exec (.seqStart .ledChange) { idle with ledReq := 0x04 })
    (fun t => (t.seqOp, t.seqPayload, t.txByte)) = some (.ledChange, 0x01, 0xED) := by decide
theorem test_idleOpportunity : after (exec .idleOpportunity { idle with ledReq := 0x01, ledPending := true })
    (fun t => (t.ledPending, t.seqOp, t.seqPayload, t.txByte)) = some (false, .ledChange, 0x02, 0xED) := by decide

/-- V22: during the Reset sequence the latch waits. -/
theorem test_idleOpportunity_busy : after (exec .idleOpportunity
    { idle with ledReq := 0x07, ledPending := true, seqOp := .reset, seqStep := true })
    (fun t => (t.ledPending, t.seqOp, t.clkDrv)) = some (true, .reset, .z) := by decide

/-- P1, step 4. -/
theorem test_seqResetAck : after (exec .seqResetAck { stalled with seqOp := .reset })
    (fun t => (t.seqStep, t.clkDrv, t.irqEn)) = some (true, .z, true) := by decide

/-- P1, step 5. -/
theorem test_seqResetBat : after (exec .seqResetBat { stalled with seqOp := .reset, seqStep := true, statusLed := .on })
    (fun t => (t.statusLed, t.outputs, t.seqOp, t.seqStep)) = some (.off, [.statusLed .off], .none, false) := by decide

theorem test_seqResetFatal : after (exec .seqResetFatal { stalled with seqOp := .reset, seqStep := true })
    (fun t => (t.fatal, t.outputs)) = some (true, [.raised (.fatalProtocolFailure 0xFA)]) := by decide

/-- P3, steps 9 and 11. -/
theorem test_seqLedAck1 : after (exec .seqLedAck1 { stalled with seqOp := .ledChange, seqPayload := 0x02 })
    (fun t => (t.seqStep, t.txByte, t.mode)) = some (true, 0x02, .transmitting) := by decide
theorem test_seqLedAck2 : after (exec .seqLedAck2 { stalled with seqOp := .ledChange, seqStep := true })
    (fun t => (t.seqOp, t.seqStep, t.clkDrv)) = some (.none, false, .z) := by decide

/-- V25 and P6, step 11, both policies. -/
theorem test_seqDropReset0 : after (exec .seqDropReset0 { idleAbandon with seqOp := .reset })
    (fun t => (t.seqOp, t.outputs)) = some (.none, [.raised (.droppedResponse .reset false 0xAA)]) := by decide
theorem test_seqDropLed1 : after (exec .seqDropLed1 { stalled with seqOp := .ledChange, seqStep := true })
    (fun t => (t.seqOp, t.seqStep, t.clkDrv)) = some (.ledChange, true, .low) := by decide
theorem test_seqDropLed0 : after (exec .seqDropLed0 { idleAbandon with seqOp := .ledChange })
    (fun t => (t.seqOp, t.outputs)) = some (.none, [.raised (.droppedResponse .ledChange false 0xAA)]) := by decide
theorem test_seqDropIdleAck : after (exec .seqDropIdleAck stalled) (fun t => (t.irqEn, t.clkDrv, t.outputs)) =
    some (false, .low, [.raised (.droppedResponse .none false 0xFA)]) := by decide
theorem test_seqDropIdleBat : after (exec .seqDropIdleBat { idleAbandon with irqEn := false, clkDrv := .low })
    (fun t => (t.irqEn, t.clkDrv)) = some (true, .z) := by decide
theorem test_seqDropResend : after (exec (.seqDropResend 0x33) { stalled with seqOp := .resend })
    (fun t => t.outputs) = some [.raised (.droppedResponse .resend false 0x33)] := by decide
theorem test_seqResponse : after (exec (.seqResponse 0xFA) { idle with seqOp := .reset }) (fun t => t.seqStep) =
    some true := by decide

/-- A (seq_op, seq_step) that R36 excludes has no transition. -/
theorem test_seqResponse_noTransition :
    refuses (exec (.seqResponse 0xFA) { idle with seqStep := true }) (.noTransition .none true 0xFA) = true := by decide

/-! ### Ring buffer and translator (V30 to V32, V40, V41, P4) -/

/-- P4, step 10: the cursor wraps. -/
theorem test_ringWrite_wrap : after (exec (.ringWrite 0xF0)
    { idle with ringMem := [(0, 0x1C), (1, 0x1C), (2, 0xE0)], ringWr := 3, ringRd := 2 })
    (fun t => (t.ringMem, t.ringWr)) = some ([(0, 0x1C), (1, 0x1C), (2, 0xE0), (3, 0xF0)], 0) := by decide

/-- V31. -/
theorem test_ringWrite_overrun : after (exec (.ringWrite 0x1C) full) (fun t => (t.overrun, t.outputs)) =
    some (true, [.raised .ringOverrun]) := by decide

/-- R42: a byte that nothing has written is read like any other, whatever it is. -/
theorem test_ringRead_unwritten : after (exec .ringRead { idle with ringWr := 1 }) (fun t => t.ringRd) = some 1 := by decide

/-- R61: no address stands at a cursor outside the buffer. -/
theorem test_ringRead_address : faults (exec .ringRead { idle with ringRd := 4 }) (.ringAddress 4) = true := by decide
theorem test_ringRead : after (exec .ringRead full) (fun t => (t.ret, t.ringRd)) = some (0x1C, 1) := by decide

/-- V32: no wake, no step. -/
theorem test_xlWait_idle : after (exec .xlWait { idle with ringMem := [(0, 0xE0)], ringWr := 1 })
    (fun t => (t.tPhase, t.wake)) = some (.waitEvent, 0) := by decide

/-- V41, its four steps. -/
theorem test_xlWait : after (exec .xlWait { full with wake := 1, tExt := true, tBrk := true })
    (fun t => (t.wake, t.tExt, t.tBrk, t.tPhase)) = some (0, false, false, .readFirst) := by decide
theorem test_xlRead1 : after (exec .xlRead1 (reading .readFirst 0xE0)) (fun t => (t.tExt, t.ringRd, t.tPhase)) =
    some (true, 1, .readAfterExt) := by decide
theorem test_xlRead2 : after (exec .xlRead2 { reading .readAfterExt 0xF0 with tExt := true })
    (fun t => (t.tBrk, t.ringRd, t.tPhase)) = some (true, 1, .readAfterBreak) := by decide
theorem test_xlRead3 : after (exec .xlRead3 { reading .readAfterBreak 0x14 with tExt := true, tBrk := true })
    (fun t => (t.outputs, t.tPhase)) = some ([.keyEvent 0x06 0x10], .waitEvent) := by decide

/-- V40, rows 1 and 10. -/
theorem test_xlRead1_key : after (exec .xlRead1 (reading .readFirst 0x1C)) (fun t => t.outputs) =
    some [.keyEvent 0x01 0x04] := by decide
theorem test_emit_unmapped : after (exec (.emit 0x1F) idle) (fun t => t.outputs) =
    some [.raised (.unmappedKey 0x1F false)] := by decide

/-- V40, row 11. -/
theorem test_emit : after (exec (.emit 0x1F) { idle with tExt := true }) (fun t => t.outputs) =
    some [.keyEvent 0x02 0x08] := by decide

/-- S5 and S3, on the default table and set. -/
theorem test_hidLookup : after (exec (.hidLookup 0x1F true) State.reset) (fun t => t.ret) = some 0x08 ∧
    after (exec (.hidLookup 0x1F false) State.reset) (fun t => t.ret) = some 0x00 := by decide
theorem test_isModifier : after (exec (.isModifier 0x12 false) State.reset) (fun t => t.ret) = some 1 ∧
    after (exec (.isModifier 0x1C false) State.reset) (fun t => t.ret) = some 0 := by decide

/-- V20. -/
theorem test_ledXlate : (List.map ledXlate [0x00, 0x01, 0x02, 0x03, 0x04, 0x05, 0x06, 0x07, 0xFF, 0xF9]) =
    [0x00, 0x02, 0x04, 0x06, 0x01, 0x03, 0x05, 0x07, 0x07, 0x02] := by decide
theorem test_ledXlate_row : after (exec (.ledXlate 0x01) idle) (fun t => t.ret) = some 0x02 := by decide

/-! ### Host calls and data rows (V50 to V52, V2) -/

/-- V51. -/
theorem test_init : after (exec .init State.reset)
    (fun t => (t.mode, t.irqEn, t.dataDrv, t.txByte, t.seqOp, t.tPhase)) =
    some (.transmitting, true, .low, 0xFF, .reset, .waitEvent) := by decide

/-- V50. -/
theorem test_init_again : refuses (exec .init idle) .initAgain = true := by decide
theorem test_changeLed_before : refuses (exec (.changeLed 0x01) State.reset) .ledBeforeInit = true := by decide

/-- V52. -/
theorem test_changeLed : after (exec (.changeLed 0xFF) idle) (fun t => (t.ledReq, t.ledPending)) =
    some (0xFF, true) := by decide
theorem test_ledMaskHid : after (exec (.ledMaskHid 0x04) idle) (fun t => (t.ledReq, t.ledPending)) =
    some (0x04, true) := by decide

/-- V2: 0x1C is `00011100001`. -/
theorem test_frameD2H : after (exec (.frameD2H false 0x1C false true) idle) (fun t => t.stimulus) =
    some ([false, false, false, true, true, true, false, false, false, false, true].map .edge) := by decide
theorem test_frameH2D : after (exec (.frameH2D 0x01 false true false) idle) (fun t => t.stimulus) =
    some ([true, false, false, false, false, false, false, false, false, true, false].map .edge) := by decide

theorem test_byteAck : after (exec .byteAck { idle with seqOp := .reset }) (fun t => t.seqStep) = some true := by decide
theorem test_byteBat : after (exec .byteBat { idle with seqOp := .reset, seqStep := true }) (fun t => t.seqOp) =
    some .none := by decide
theorem test_byteBreak : after (exec .byteBreak idle) (fun t => (t.ringMem, t.wake)) = some ([(0, 0xF0)], 0) := by decide
theorem test_byteExt : after (exec .byteExt idle) (fun t => (t.ringMem, t.wake)) = some ([(0, 0xE0)], 0) := by decide
theorem test_byteScan : after (exec (.byteScan 0x83) idle) (fun t => (t.ringMem, t.wake)) = some ([(0, 0x83)], 1) := by
  decide
theorem test_byteOutOfRange : after (exec (.byteOutOfRange 0x84) idle) (fun t => (t.seqOp, t.txByte, t.ringWr)) =
    some (.resend, 0xFE, 0) := by decide
theorem test_cmdResend : after (exec .cmdResend idle) (fun t => t.txByte) = some 0xFE := by decide
theorem test_cmdReset : after (exec .cmdReset idle) (fun t => t.txByte) = some 0xFF := by decide
theorem test_cmdSetLed : after (exec .cmdSetLed idle) (fun t => t.txByte) = some 0xED := by decide
theorem test_ledMaskPs2 : after (exec (.ledMaskPs2 true false true) idle) (fun t => t.txByte) = some 0x05 := by decide
theorem test_eventFlags : after (exec (.eventFlags true true false) idle) (fun t => t.ret) = some 0x06 := by decide

/-! ### The step -/

theorem test_step_edge : after (step (offered (rxSlot 3) [.edge true])) (fun t => (t.rxAcc, t.stimulus)) =
    some (0x04, []) := by decide
theorem test_step_reset : after (step (offered stalled [.reset])) (fun t => (t.inited, t.irqEn, t.clkDrv)) =
    some (false, false, .z) := by decide
/-- R184 and R250: the stop slot overruns, and RESET clears what it recorded. -/
theorem test_step_overrun : after (step (offered { full with rxCnt := 10, rxAcc := 0x1C } [.edge true, .reset]))
    (fun t => (t.overrun, t.stimulus)) = some (true, [.reset]) := by decide
theorem test_step_reset_overrun : after (step (offered { full with overrun := true } [.reset]))
    (fun t => (t.overrun, t.ringWr)) = some (false, 0) := by decide
theorem test_step_lost_edge : after (step (offered stalled [.edge true])) (fun t => t == stalled) = some true := by decide
theorem test_step_reserved : refuses (step (offered (rxSlot 11) [.edge true])) (.badWord .reservedSelector) = true := by
  decide

/-- `withFetchWord` puts RX.STOP next. -/
theorem test_withFetchWord : step (State.reset.withFetchWord 8 0x0A) =
    exec (.rxStop false) { State.reset with inited := true, irqEn := true, rxCnt := 10 } := by rfl

/-! ### Witnesses: for each statement with hypotheses, states and operands that meet them, clause by clause -/

theorem test_witness_DecodeEncodeAgree :
    (Instr.byteScan 0x83).wf 0x83 = true ∧ (Instr.byteOutOfRange 0x84).wf 0x83 = true ∧
    (Instr.seqResponse 0xAA).wf 0x83 = true ∧ (Instr.eventFlags true false true).wf 0x83 = true ∧
    (Instr.seqDropResend 0x00).wf 0x83 = true := by decide

theorem test_witness_DecodedWordIsItsEncoding :
    decode 0x83 ⟨.dispatch, 0b11, .none⟩ = .ok .dispatchResend ∧
    decode 0x83 ⟨.byteClass, 0x83, .none⟩ = .ok (.byteScan 0x83) := ⟨rfl, rfl⟩

theorem test_witness_StepRunsDecodedInstruction :
    (offered (rxSlot 3) [.edge true]).offer = .run ⟨.edge, 3, .level true⟩ (rxSlot 3) ∧
    decode small.maxCode ⟨.edge, 3, .level true⟩ = .ok (.rxData3 true) := ⟨rfl, rfl⟩

/-- The two bytes at the edge of their class. -/
theorem test_witness_SampleWordsDecode : (0x1C : Byte) ≤ 0x1C ∧ (0x8F : Byte) < 0x90 := by decide

/-- The empty stimulus, then one event per clause; the frame, `txclk`, `init` and `led` clauses ask for nothing but the event. -/
theorem test_witness_EventsRunTheirRows :
    idle.stimulus = [] ∧ (offered stalled [.edge true]).edgeTaken = false ∧
    ((offered idle [.xl]).taskRuns = true ∧ xlRow (offered idle [.xl]).tPhase = some .xlWait) ∧
    ((offered State.reset [.xl]).taskRuns = false ∧ (offered State.reset [.xl]).tPhase = .idle) ∧
    ((offered full [.xlAll]).xlEnabled = true ∧ xlRow (offered full [.xlAll]).tPhase = some .xlWait) ∧
    (offered idle [.xlAll]).xlEnabled = false ∧
    (decode small.maxCode ⟨.dispatch, 1, .none⟩).toOption = some .dispatchResponse := by decide

theorem test_witness_TakenEdgeRunsSelectedRow :
    ((offered (rxSlot 10) [.edge true]).edgeTaken = true ∧ (offered (rxSlot 10) [.edge true]).cnt.toNat ≤ 10) ∧
    ((offered (rxSlot 11) [.edge true]).edgeTaken = true ∧ 11 ≤ (offered (rxSlot 11) [.edge true]).cnt.toNat) := by
  decide

theorem test_witness_DisabledRowChangesNothing :
    ¬Selects idle (BitVec.ofNat 5 5) ∧ ¬Selects stalled (BitVec.ofNat 5 0) ∧ ¬Selects idle (BitVec.ofNat 5 (16 + 10)) ∧
    (xlRow .readFirst = some .xlRead1 ∧ ¬InPhase idle .readFirst) ∧ ¬InPhase State.reset .waitEvent := by
  refine ⟨?_, ?_, ?_, ⟨rfl, ?_⟩, ?_⟩
  · exact fun h => absurd h.2 (by decide)
  · exact fun h => absurd h.1 (by decide)
  · exact fun h => absurd h.2 (by decide)
  · exact fun h => absurd h.2 (by decide)
  · exact fun h => absurd h.1 (by decide)

theorem test_witness_ResetEventRestoresPowerOn : (offered stalled [.reset, .init]).stimulus = [.reset, .init] := rfl

/-- The three clauses: an edge and a task step, a call that is refused, the call that runs. -/
theorem test_witness_NothingButInitRunsBeforeInit :
    (offered State.reset [.edge true]).inited = false ∧ (offered State.reset [.xlAll]).inited = false ∧
    (offered State.reset [.led 0x01]).inited = false ∧ (offered State.reset [.init]).inited = false := by decide

theorem test_witness_OnlyResetUndoes :
    ∃ t, step (offered stalled [.edge true]) = .next t ∧
      (∀ rest, (offered stalled [.edge true]).stimulus ≠ .reset :: rest) ∧ Stalled (offered stalled [.edge true]) ∧
      (∀ w rest, (offered stalled [.edge true]).stimulus ≠ .direct w :: rest) ∧ ¬Overran (offered stalled [.edge true]) t :=
  ⟨_, rfl, (fun _ h => by cases h), ⟨rfl, rfl, rfl, rfl⟩, (fun _ _ h => by cases h), fun h => absurd h.2.1 (by decide)⟩

theorem test_witness_RxStartResult : Selects idle 0b00000 := ⟨rfl, rfl⟩

/-- Both ends of the range of slots. -/
theorem test_witness_RxDataResult :
    Selects (rxSlot 1) (BitVec.ofNat 5 1) ∧ Selects (rxSlot 8) (BitVec.ofNat 5 8) := ⟨⟨rfl, rfl⟩, ⟨rfl, rfl⟩⟩

theorem test_witness_RxParityResult : Selects (rxSlot 9) 0b01001 := ⟨rfl, rfl⟩

/-- The full buffer in the stop slot of a scan code. -/
def fullStop : State := { full with rxCnt := 10, rxAcc := 0x1C }

/-- Both clauses: a branch that does not overrun, on a full buffer too, and one that does. -/
theorem test_witness_RxStopRunsItsBranch :
    (Selects (stopSlot 0x1C) 0b01010 ∧ ¬(dispatchRow (stopSlot 0x1C) = .dispatchQueue ∧ RingFull (stopSlot 0x1C))) ∧
    ¬(dispatchRow { fullStop with rxAcc := 0xFA } = .dispatchQueue ∧ RingFull { fullStop with rxAcc := 0xFA }) ∧
    (Selects fullStop 0b01010 ∧ dispatchRow fullStop = .dispatchQueue ∧ RingFull fullStop) :=
  ⟨⟨⟨rfl, rfl⟩, fun h => absurd h.2 (by unfold RingFull; decide)⟩, fun h => absurd h.1 (by decide), ⟨rfl, rfl⟩, rfl, rfl⟩

theorem test_witness_RxStopCompletes :
    Selects (stopSlot 0x1C) 0b01010 ∧ RingRoom (stopSlot 0x1C) ∧ (stopSlot 0x1C).seqStep = false ∧
    dispatchRow (stopSlot 0x1C) = .dispatchQueue ∧ dispatchRow (stopSlot 0xFA) ≠ .dispatchQueue ∧
    (dispatchRow { fullStop with rxAcc := 0xFA } = .dispatchQueue → RingRoom { fullStop with rxAcc := 0xFA }) :=
  ⟨⟨rfl, rfl⟩, ⟨by decide, by decide⟩, rfl, rfl, by decide, fun h => absurd h (by decide)⟩

theorem test_witness_DispatchQueueResult : RingRoom (stopSlot 0x1C) ∧
    RingRoom { idle with ringWr := 3, ringRd := 2 } := ⟨⟨by decide, by decide⟩, ⟨by decide, by decide⟩⟩

/-- A selector that names a row and one that names none. -/
theorem test_witness_ResponseRunsSelectedTransition :
    (stopSlot 0xAA).rxAcc = 0xAA ∧
    decode small.maxCode ⟨.response, ((stopSlot 0xAA).responseSelector 0xAA).setWidth 16, .none⟩ =
      .ok .seqDropIdleBat ∧
    decode small.maxCode ⟨.response, ((stopSlot 0x1C).responseSelector 0x1C).setWidth 16, .none⟩ =
      .error .reservedSelector := ⟨rfl, rfl, rfl⟩

theorem test_witness_ResponseCompletes :
    (stopSlot 0xFA).rxAcc = 0xFA ∧ (stopSlot 0xAA).rxAcc = 0xAA ∧ (stopSlot 0xFA).seqStep = false := by decide

theorem test_witness_SeqDropTransitions :
    idle.params.dropPolicy = .stall ∧ idleAbandon.params.dropPolicy = .abandon := by decide

theorem test_witness_IdleOpportunityResult :
    (({ idle with ledPending := true } : State).seqOp = .none ∧ ({ idle with ledPending := true } : State).ledPending = true) ∧
    ({ idle with ledPending := true, seqOp := .reset } : State).seqOp ≠ .none ∧ idle.ledPending = false := by decide

/-- Both ends of the range of slots. -/
theorem test_witness_TxDataResult :
    Selects (txSlot 0xED 0) (BitVec.ofNat 5 (16 + 0)) ∧ Selects (txSlot 0xED 7) (BitVec.ofNat 5 (16 + 7)) :=
  ⟨⟨rfl, rfl⟩, ⟨rfl, rfl⟩⟩

theorem test_witness_TxTailResult :
    Selects (txSlot 0xED 8) 0b11000 ∧ Selects (txSlot 0xED 9) 0b11001 ∧ Selects (txSlot 0xED 10) 0b11010 :=
  ⟨⟨rfl, rfl⟩, ⟨rfl, rfl⟩, ⟨rfl, rfl⟩⟩

theorem test_witness_TxIgnoresData : (txSlot 0xED 4).mode = .transmitting := rfl

/-- From no edge to all eleven. -/
theorem test_witness_TxDriveSequence :
    idle.inited = true ∧ idle.fatal = false ∧ ([] : List Bool).length ≤ 11 ∧ (List.replicate 11 true).length = 11 := by
  decide

/-- The full buffer, and one place below it, at the last address. -/
theorem test_witness_RingWriteResult :
    (full.ringWr + 1) % full.params.cap = full.ringRd ∧
    (({ full with ringRd := 1 } : State).ringWr + 1) % full.params.cap ≠ ({ full with ringRd := 1 } : State).ringRd ∧
    full.ringWr < full.params.cap := by decide

theorem test_witness_FullBufferOverruns :
    CursorsIn fullStop ∧ unreadCount fullStop = fullStop.params.cap - 1 ∧ queueing .dispatchQueue ∧
    queueing (.rxStop true) ∧ Selects fullStop 0b01010 ∧ dispatchRow fullStop = .dispatchQueue :=
  ⟨⟨by decide, by decide⟩, by decide, .inl rfl, .inr (.inr (.inr (.inl ⟨_, rfl⟩))), ⟨rfl, rfl⟩, rfl⟩

theorem test_witness_RingReadResult :
    idle.ringWr = idle.ringRd ∧
    (full.ringWr ≠ ({ full with ringRd := 2 } : State).ringRd ∧ ({ full with ringRd := 2 } : State).ringRd < full.params.cap) ∧
    (full.ringWr ≠ ({ full with ringRd := 4 } : State).ringRd ∧ full.params.cap ≤ ({ full with ringRd := 4 } : State).ringRd) := by
  decide

theorem test_witness_RingIsFirstInFirstOut :
    CursorsIn full ∧ unread full = [0x1C, 0x1C, 0x1C] ∧ CursorsIn idle ∧ RingRoom idle ∧ unread idle = [] :=
  ⟨⟨by decide, by decide⟩, by decide, ⟨by decide, by decide⟩, ⟨by decide, by decide⟩, by decide⟩

theorem test_witness_OnlyQueueingWritesMemory :
    (∃ t, exec (.ringWrite 0x1C) idle = .next t) ∧ (∃ t, exec (.ringWrite 0x1C) full = .next t ∧ Overran full t) ∧
    ¬queueing .ringRead ∧ ∃ t, exec .ringRead full = .next t :=
  ⟨⟨_, rfl⟩, ⟨_, rfl, rfl, rfl, rfl, rfl⟩, by simp [queueing], ⟨_, rfl⟩⟩

theorem test_witness_XlWaitResult :
    (InPhase full .waitEvent ∧ 0 < full.wake) ∧ (InPhase idle .waitEvent ∧ idle.wake = 0) :=
  ⟨⟨⟨rfl, rfl⟩, by decide⟩, ⟨rfl, rfl⟩, rfl⟩

/-- Each of the three steps, with a prefix and with a code, and the empty buffer. -/
theorem test_witness_XlReadResults :
    idle.ringWr = idle.ringRd ∧
    (RingHolds (reading .readFirst 0xE0) 0xE0 ∧ InPhase (reading .readFirst 0xE0) .readFirst) ∧
    (RingHolds (reading .readAfterExt 0xF0) 0xF0 ∧ InPhase (reading .readAfterExt 0xF0) .readAfterExt) ∧
    (RingHolds (reading .readAfterBreak 0x1C) 0x1C ∧ InPhase (reading .readAfterBreak 0x1C) .readAfterBreak) :=
  ⟨rfl, ⟨⟨by decide, by decide, rfl⟩, rfl, rfl⟩, ⟨⟨by decide, by decide, rfl⟩, rfl, rfl⟩,
    ⟨by decide, by decide, rfl⟩, rfl, rfl⟩

theorem test_witness_EmitResult :
    hidLookup idle.params 0x1F idle.tExt = 0 ∧ hidLookup idle.params 0x1C idle.tExt ≠ 0 ∧
    ((0x12, false) ∈ idle.params.modifierSet ∧ (0x1C, false) ∉ idle.params.modifierSet) := by decide

/-- `E0 F0 14` of V41, the longest form, with a byte of the next event behind it. -/
def queuedKey : State :=
  { idle with
    params := { small with cap := 8 }, wake := 1, ringWr := 4
    ringMem := [(0, 0xE0), (1, 0xF0), (2, 0x14), (3, 0x1C)], stimulus := List.replicate 4 .xl ++ [.init] }

theorem test_witness_KeySequenceForms :
    InPhase queuedKey .waitEvent ∧ 1 ≤ queuedKey.wake ∧ CursorsIn queuedKey ∧
    unread queuedKey = keyBytes true true 0x14 ++ [0x1C] ∧
    queuedKey.stimulus = List.replicate ((keyBytes true true 0x14).length + 1) .xl ++ [.init] :=
  ⟨⟨rfl, rfl⟩, by decide, ⟨by decide, by decide⟩, by decide, rfl⟩

/-- The shortest form, with the two conditions on its code. -/
theorem test_witness_KeySequenceForms_plain :
    InPhase full .waitEvent ∧ 1 ≤ full.wake ∧ CursorsIn full ∧
    unread full = keyBytes false false 0x1C ++ [0x1C, 0x1C] ∧
    ((0x1C : Byte) ≠ 0xF0 ∧ (0x1C : Byte) ≠ 0xE0) ∧
    (offered full [.xl, .xl]).stimulus = List.replicate ((keyBytes false false 0x1C).length + 1) .xl ++ [] :=
  ⟨⟨rfl, rfl⟩, by decide, ⟨by decide, by decide⟩, by decide, by decide, rfl⟩

theorem test_ringInv_reading : RingInv (offered (reading .readFirst 0x1C) [.xl]) :=
  ⟨by decide, by decide, by decide, by decide, fun _ => ⟨⟨by decide, by decide⟩, by decide, by decide⟩⟩

theorem test_witness_ReadStepNeverWaits :
    RingInv (offered (reading .readFirst 0x1C) [.xl]) ∧ (offered (reading .readFirst 0x1C) [.xl]).overrun = false ∧
    (offered (reading .readFirst 0x1C) [.xl]).taskRuns = true ∧ inPass (offered (reading .readFirst 0x1C) [.xl]) = 1 :=
  ⟨test_ringInv_reading, rfl, rfl, rfl⟩

theorem test_witness_InitResult : State.reset.inited = false ∧ idle.inited = true := by decide

theorem test_witness_ChangeLedResult :
    (idle.inited = true ∧ idle.fatal = false) ∧ State.reset.inited = false ∧
    (({ idle with fatal := true } : State).inited = true ∧ ({ idle with fatal := true } : State).fatal = true) := by decide

theorem test_rxReady_idle (es : List Event) : RxReady (offered idle es) := ⟨rfl, rfl, rfl, rfl, rfl, rfl, rfl⟩

/-- The frame of 0x1C (V2). -/
theorem test_witness_FrameIsAcceptedExactlyWhenWellFormed :
    RxReady (offered idle (frameEdges 0b10000111000 ++ [])) ∧
    (offered idle (frameEdges 0b10000111000 ++ [])).stimulus = frameEdges 0b10000111000 ++ [] :=
  ⟨test_rxReady_idle _, rfl⟩

/-- One frame for each of the three clauses, flagged for each of the three causes. -/
theorem test_witness_FrameOutcome :
    (true = true ∨ (false : Bool) ≠ oddParity 0x1C ∨ false = true) ∧ (false = true ↔ RangeError small 0x1C) ∧
    (true : Bool) ≠ oddParity 0x1C ∧ (true = true ↔ RangeError small 0x84) ∧
    (false = oddParity 0x1C ∧ (0x1C : Byte) ≠ 0xFA ∧ (0x1C : Byte) ≠ 0xAA ∧ RingRoom idle) ∧
    (true = oddParity 0xFA ∧ (false = true ↔ RangeError small 0xFA)) ∧
    RxReady (offered idle [.frame (frameD2HBits true 0x1C false true)]) ∧
    RxReady (offered idle [.frame (frameD2HBits false 0x1C false true)]) ∧
    RxReady (offered idle [.frame (frameD2HBits false 0xFA true true)]) :=
  ⟨by decide, by unfold RangeError; decide, by decide, by unfold RangeError; decide,
    ⟨by decide, by decide, by decide, by decide, by decide⟩, ⟨by decide, by unfold RangeError; decide⟩, test_rxReady_idle _,
    test_rxReady_idle _, test_rxReady_idle _⟩

theorem test_witness_ParityFindsOddChanges :
    (0b10000111000 : BitVec 11).getLsbD 9 = oddParity ((0b10000111000 : BitVec 11).extractLsb' 1 8) ∧
    RxReady (offered idle (frameEdges 0b10000111010 ++ [])) := ⟨by decide, test_rxReady_idle _⟩

theorem test_witness_DataRowResults : RingRoom idle ∧ idle.inited = true ∧ idle.fatal = false :=
  ⟨⟨by decide, by decide⟩, rfl, rfl⟩

/-- P1 up to IDLE. -/
theorem test_witness_BringUpEndToEnd :
    ∃ s : State, s = { State.powerOn small .on with
      stimulus := [.init, .txclk, Event.rx 0xFA, Event.rx 0xAA] ++ [] } := ⟨_, rfl⟩

/-- P3 up to its second ACK. -/
theorem test_witness_LedChangeEndToEnd :
    RxReady (offered idle [.led 0x01, Event.rx 0x77, .txclk, Event.rx 0xFA, .txclk, Event.rx 0xFA]) ∧
    RingRoom idle ∧ idle.seqOp = .none ∧ (0x77 : Byte) ≤ small.maxCode ∧ (0x77 : Byte) ≠ 0xFA ∧ (0x77 : Byte) ≠ 0xAA :=
  ⟨test_rxReady_idle _, ⟨by decide, by decide⟩, rfl, by decide, by decide, by decide⟩

/-- The stop slot of P5, step 5. -/
theorem test_witness_FatalOnlyAtSelfTest :
    ∃ t, step (offered { stopSlot 0xFA with seqOp := .reset, seqStep := true } [.edge true]) = .next t ∧
      Event.isSpec (.edge true) = true ∧ (stopSlot 0xFA).fatal = false ∧ t.fatal = true ∧ t.overrun = false :=
  ⟨_, rfl, rfl, rfl, rfl, rfl⟩

theorem test_witness_FatalIsForEver :
    ∃ t, step (offered { stalled with fatal := true } [Event.rx 0x1C]) = .next t ∧
      (Event.rx 0x1C).isSpec = true ∧ Event.rx 0x1C ≠ .reset ∧ stalled.inited = true :=
  ⟨_, rfl, rfl, (fun h => by cases h), rfl⟩

/-- V24 under `Stall`: 0xFA in the stop slot at IDLE. -/
theorem test_witness_StallOnlyByDrop :
    ∃ t, step (offered (stopSlot 0xFA) [.edge true]) = .next t ∧ Event.isSpec (.edge true) = true ∧
      ¬Stalled (offered (stopSlot 0xFA) [.edge true]) ∧ Stalled t ∧ t.overrun = false :=
  ⟨_, rfl, rfl, fun h => absurd h.2.2.2 (by decide), ⟨rfl, rfl, rfl, rfl⟩, rfl⟩

/-- The latch kept, and the latch sent (P3, step 7). -/
theorem test_witness_LatchedRequestIsKeptOrSent :
    (∃ t, step (offered { idle with ledPending := true } [.xl]) = .next t ∧ t.ledPending = true ∧ t.overrun = false) ∧
    ∃ t, step (offered { stopSlot 0x77 with ledPending := true } [.edge true]) = .next t ∧ t.ledPending = false ∧
      t.overrun = false := ⟨⟨_, rfl, rfl, rfl⟩, ⟨_, rfl, rfl, rfl⟩⟩

theorem test_witness_KeyEventsAreWellFormed :
    ∃ t, step (offered (reading .readFirst 0x1C) [.xl]) = .next t ∧ t.outputs = [.keyEvent 0x01 0x04] ∧
      ∀ w rest, (offered (reading .readFirst 0x1C) [.xl]).stimulus ≠ .direct w :: rest :=
  ⟨_, rfl, by decide, fun _ _ h => by cases h⟩

theorem test_witness_ContextsKeepToTheirState :
    (∃ t, step (offered (stopSlot 0x1C) [.edge true]) = .next t ∧ t.overrun = false) ∧ (∃ t, step (offered full [.xl]) = .next t) ∧
    (∃ t, step (offered full [.xlAll]) = .next t) ∧ ∃ t, step (offered idle [.led 0x01]) = .next t :=
  ⟨⟨_, rfl, rfl⟩, ⟨_, rfl⟩, ⟨_, rfl⟩, ⟨_, rfl⟩⟩

/-- The default parameters are admissible: `MAX_CODE` 0x83 and `CAP` 8, the table's 97 entries, the set's 8. -/
theorem test_witness_InvariantsHoldAtPowerOn : Admissible defaultParams where
  maxCode_low := by decide
  maxCode_high := by decide
  cap_four := by decide
  table_wf := by decide
  table_gui := by decide
  table_plain := by decide
  table_range := by decide
  set_nodup := by decide
  set_shift := by decide
  set_ctrl := by decide
  set_gui := by decide

/-- In receive mode. -/
theorem test_busInv_idle : BusInv (offered idle [.edge true]) := ⟨by decide, fun _ => by constructor <;> decide⟩

/-- In the middle of a transmission: 0xED after three edges. -/
theorem test_busInv_transmitting : BusInv (offered
    { transmits idle 0xED with txCnt := 3, txPar := txParAfter 0xED 3, dataDrv := txDriveAfter 0xED 3 }
    [.edge true]) := ⟨by decide, fun _ => by constructor <;> decide⟩

/-- After a fatal failure. -/
theorem test_busInv_fatal : BusInv (offered
    { stopSlot 0xFA with fatal := true, irqEn := false, clkDrv := .low, seqOp := .reset, seqStep := true }
    [.edge true]) := ⟨by decide, fun _ => by constructor <;> decide⟩

theorem test_witness_EveryStepKeepsBusInv :
    ∃ t, BusInv (offered idle [.edge true]) ∧ step (offered idle [.edge true]) = .next t := ⟨_, test_busInv_idle, rfl⟩

theorem test_witness_EveryStepKeepsRingInv :
    ∃ t, RingInv (offered (reading .readFirst 0x1C) [.xl]) ∧
      step (offered (reading .readFirst 0x1C) [.xl]) = .next t := ⟨_, test_ringInv_reading, rfl⟩

end Sys2Proof.Tests
end

section
/-! Rows that are not enabled (00_scope.md R10): the edge rows and the translator rows. -/

namespace Sys2Proof.Machine

theorem exec_rxDataRow_other {s : State} {k : Nat} (d : Bool) (h1 : 1 ≤ k) (h8 : k ≤ 8)
    (h : ¬Selects s (BitVec.ofNat 5 k)) : exec (rxDataRow k d) s = .next s := by
  interval_cases k <;> exact onEdge_other (fun s => .next (rxData _ d s)) h

theorem exec_txDataRow_other {s : State} {k : Nat} (d : Bool) (h7 : k ≤ 7)
    (h : ¬Selects s (BitVec.ofNat 5 (16 + k))) : exec (txDataRow k d) s = .next s := by
  interval_cases k <;> exact onEdge_other (fun s => .next (txData _ s)) h

/-- The four kinds of RX slot: start, data, parity, stop. -/
theorem exec_edgeRow_receiving_other {s : State} {k : Nat} (d : Bool) (hk : k ≤ 10)
    (h : ¬Selects s (BitVec.ofNat 5 k)) : exec (edgeRow .receiving k d) s = .next s := by
  unfold edgeRow
  dsimp only
  split_ifs with h0 h8 h9
  · subst h0
    exact onEdge_other (fun s => .next (rxStart d s)) h
  · exact exec_rxDataRow_other d (by omega) h8 h
  · subst h9
    exact onEdge_other (fun s => .next (rxParity d s)) h
  · obtain rfl : k = 10 := by omega
    exact onEdge_other (recordOverrun rxStop) h

/-- The four kinds of TX slot: data, parity, stop, acknowledge. -/
theorem exec_edgeRow_transmitting_other {s : State} {k : Nat} (d : Bool) (hk : k ≤ 10)
    (h : ¬Selects s (BitVec.ofNat 5 (16 + k))) : exec (edgeRow .transmitting k d) s = .next s := by
  unfold edgeRow
  dsimp only
  split_ifs with h7 h8 h9
  · exact exec_txDataRow_other d h7 h
  · subst h8
    exact onEdge_other (fun s => .next (txParity s)) h
  · subst h9
    exact onEdge_other (fun s => .next (txStop s)) h
  · obtain rfl : k = 10 := by omega
    exact onEdge_other (fun s => .next (txDone s)) h

theorem exec_xlRow_other {s : State} {ph : TPhase} {i : Instr} (hi : xlRow ph = some i) (h : ¬InPhase s ph) :
    exec i s = .next s := by
  cases ph with
  | idle => cases hi
  | waitEvent => cases hi; exact onPhase_other (fun s => .next (if 0 < s.wake then xlWait s else s)) h
  | readFirst => cases hi; exact onPhase_other (fun s => withRingByte s xlFirst) h
  | readAfterExt => cases hi; exact onPhase_other (fun s => withRingByte s xlSecond) h
  | readAfterBreak => cases hi; exact onPhase_other (fun s => withRingByte s fun b s => s.emit b) h

/-- Settles O7: every edge row is guarded by its selector, every translator row by its phase. -/
theorem disabledRowChangesNothing : Obligations.DisabledRowChangesNothing := fun _ =>
  ⟨fun _ d hk h => exec_edgeRow_receiving_other d hk h, fun _ d hk h => exec_edgeRow_transmitting_other d hk h,
    fun _ _ hi h => exec_xlRow_other hi h⟩

end Sys2Proof.Machine
end

section
/-! The receive registers within a frame (10_state.md R28 to R31, 40_rx_decoder.md R111 to R113). -/

namespace Sys2Proof.Machine

/-- The receive registers agree with each other: the part of `BusBlock` that speaks of them alone. -/
structure RxConsistent (s : State) : Prop where
  rxCnt_le : s.rxCnt.toNat ≤ 10
  rx_clean : s.rxCnt = 0 → s.rxAcc = 0 ∧ s.rxResend = false
  rx_par : s.rxPar = oddParity s.rxAcc
  rx_bits : 1 ≤ s.rxCnt.toNat → s.rxCnt.toNat ≤ 9 → s.rxAcc.toNat < 2 ^ (s.rxCnt.toNat - 1)
  rx_causes : s.rxResend = (s.rxCauses.startBit || s.rxCauses.parity || s.rxCauses.range)

theorem BusBlock.rxConsistent {s : State} (h : BusBlock s) : RxConsistent s := { h with }

theorem oddParity_zero : oddParity 0#8 = true := rfl

theorem rxConsistent_of_rxClean {s : State} (h : RxClean s) : RxConsistent s := by
  obtain ⟨hcnt, hacc, hpar, hres, hcau⟩ := h
  constructor <;> simp [hcnt, hacc, hpar, hres, hcau, oddParity_zero, Causes.none]

/-- Between frames the receive registers hold what every frame starts from. -/
theorem RxConsistent.rxClean {s : State} (h : RxConsistent s) (hc : s.rxCnt = 0) : RxClean s := by
  obtain ⟨hacc, hres⟩ := h.rx_clean hc
  have hcau := h.rx_causes
  rw [hres] at hcau
  refine ⟨hc, hacc, by rw [h.rx_par, hacc]; rfl, hres, ?_⟩
  cases hs : s.rxCauses
  simp_all [Causes.none]

theorem rxConsistent_rxStart {s : State} (d : Bool) (h : RxClean s) : RxConsistent (rxStart d s) := by
  obtain ⟨hcnt, hacc, hpar, hres, hcau⟩ := h
  constructor <;> simp [rxStart, hacc, hpar, hres, hcau, oddParity_zero, Causes.none]

/-- The bit a data slot contributes to the accumulator. -/
theorem getLsbD_ofLevel_shiftLeft (d : Bool) (i j : Nat) :
    (Byte.ofLevel d <<< j).getLsbD i = (decide (i < 8) && decide (i = j) && d) := by
  cases d with
  | false => simp [Byte.ofLevel]
  | true =>
    simp only [Byte.ofLevel, BitVec.getLsbD_shiftLeft]
    grind

/-- A bit put where the accumulator has none changes its parity by that bit. -/
theorem oddParity_or_level {b : Byte} {j : Nat} (d : Bool) (hj : j < 8) (h : b.toNat < 2 ^ j) :
    oddParity (b ||| (Byte.ofLevel d <<< j)) = (oddParity b ^^ d) := by
  have hb : b.getLsbD j = false := Nat.testBit_lt_two_pow h
  cases d with
  | false => simp [Byte.ofLevel]
  | true =>
    simp only [oddParity, BitVec.getLsbD_or, getLsbD_ofLevel_shiftLeft]
    interval_cases j <;> simp_all

theorem toNat_or_level_lt {b : Byte} {j : Nat} (d : Bool) (h : b.toNat < 2 ^ j) :
    (b ||| (Byte.ofLevel d <<< j)).toNat < 2 ^ (j + 1) := by
  rw [BitVec.toNat_or]
  refine Nat.or_lt_two_pow (h.trans (Nat.pow_lt_pow_succ (by omega))) ?_
  have hd : (Byte.ofLevel d).toNat ≤ 1 := by cases d <;> decide
  calc (Byte.ofLevel d <<< j).toNat ≤ (Byte.ofLevel d).toNat * 2 ^ j := by
        rw [BitVec.toNat_shiftLeft, Nat.shiftLeft_eq]; exact Nat.mod_le _ _
    _ ≤ 1 * 2 ^ j := Nat.mul_le_mul_right _ hd
    _ < 2 ^ (j + 1) := by rw [Nat.one_mul]; exact Nat.pow_lt_pow_succ (by omega)

/-- In slot k, 1 to 8, the accumulator holds the k - 1 bits before it; afterwards it holds k. -/
theorem rxConsistent_rxData {s : State} (d : Bool) (h : RxConsistent s) (h1 : 1 ≤ s.rxCnt.toNat)
    (h8 : s.rxCnt.toNat ≤ 8) : RxConsistent (rxData s.rxCnt.toNat d s) := by
  have hbits := h.rx_bits h1 (by omega)
  have hcnt : (rxData s.rxCnt.toNat d s).rxCnt.toNat = s.rxCnt.toNat + 1 := by
    rw [rxData, BitVec.toNat_ofNat]; exact Nat.mod_eq_of_lt (by omega)
  refine ⟨by omega, fun h0 => ?_, ?_, fun _ _ => ?_, h.rx_causes⟩
  · rw [h0] at hcnt
    simp at hcnt
  · show (s.rxPar ^^ d) = _
    rw [h.rx_par]
    exact (oddParity_or_level d (by omega) hbits).symm
  · rw [hcnt]
    have := toNat_or_level_lt d hbits
    rwa [Nat.sub_add_cancel h1] at this

theorem rxConsistent_rxParity {s : State} (d : Bool) (h : RxConsistent s) : RxConsistent (rxParity d s) where
  rxCnt_le := by simp [rxParity]
  rx_clean h0 := by simp [rxParity] at h0
  rx_par := h.rx_par
  rx_bits _ h9 := by simp [rxParity] at h9
  rx_causes := by simp only [rxParity, h.rx_causes]; grind

end Sys2Proof.Machine
end

section
/-! The transmission of a byte: parity and drive after each slot (41_tx_encoder.md R132 to R134). -/

namespace Sys2Proof.Machine

theorem txParAfter_succ (b : Byte) {k : Nat} (h : k < 8) : txParAfter b (k + 1) = (txParAfter b k ^^ b.getLsbD k) := by
  rw [txParAfter, txParAfter, Nat.min_eq_left h, Nat.min_eq_left h.le, List.range_succ, List.foldl_append]
  rfl

theorem txParAfter_of_ge (b : Byte) {k : Nat} (h : 8 ≤ k) : txParAfter b k = oddParity b := by
  rw [txParAfter, Nat.min_eq_right h]; rfl

theorem txDriveAfter_succ (b : Byte) {k : Nat} (h : k < 8) : txDriveAfter b (k + 1) = driveOf (b.getLsbD k) := by
  rw [txDriveAfter, if_neg (Nat.succ_ne_zero k), if_pos (by omega), Nat.add_sub_cancel]

/-- The transmit registers and the drive of DATA are those of slot `tx_cnt`. -/
def TxInSlot (s : State) : Prop :=
  s.txPar = txParAfter s.txByte s.txCnt.toNat ∧ s.dataDrv = txDriveAfter s.txByte s.txCnt.toNat

theorem txInSlot_txData {s : State} (h : TxInSlot s) (h7 : s.txCnt.toNat ≤ 7) :
    TxInSlot (txData s.txCnt.toNat s) := by
  have hcnt : (txData s.txCnt.toNat s).txCnt.toNat = s.txCnt.toNat + 1 := by
    rw [txData, BitVec.toNat_ofNat]; exact Nat.mod_eq_of_lt (by omega)
  constructor
  · rw [hcnt, txData, txParAfter_succ _ (by omega), h.1]
  · rw [hcnt, txData, txDriveAfter_succ _ (by omega)]

theorem txInSlot_txParity {s : State} (h : TxInSlot s) (hc : s.txCnt = 8) : TxInSlot (txParity s) := by
  have hpar : s.txPar = oddParity s.txByte := by rw [h.1, hc]; exact txParAfter_of_ge _ le_rfl
  refine ⟨hpar.trans (txParAfter_of_ge _ ?_).symm, ?_⟩
  · show 8 ≤ 9; omega
  · show driveOf s.txPar = _
    rw [hpar]; rfl

theorem txInSlot_txStop {s : State} (h : TxInSlot s) (hc : s.txCnt = 9) : TxInSlot (txStop s) := by
  have hpar : s.txPar = oddParity s.txByte := by rw [h.1, hc]; exact txParAfter_of_ge _ (by decide)
  refine ⟨hpar.trans (txParAfter_of_ge _ ?_).symm, rfl⟩
  show 8 ≤ 10; omega

end Sys2Proof.Machine
end

section
/-! Operations that start a transmission or release the bus, and the bus invariant (42_control_sequencer.md R155). -/

namespace Sys2Proof.Machine

/-- The block runs: after `init`, before a fatal failure, the sequencer in a step that R36 admits. -/
structure Running (s : State) : Prop where
  inited : s.inited = true
  alive : s.fatal = false
  started : s.tPhase ≠ .idle
  seq_step : s.seqOp = .none ∨ s.seqOp = .resend → s.seqStep = false

/-- No transmission is in progress (10_state.md R32, R34). -/
structure TxIdle (s : State) : Prop where
  txCnt : s.txCnt = 0
  txPar : s.txPar = true
  seqOp : s.seqOp ≠ .resend

theorem busBlock_transmits {s : State} (b : Byte) (h : Running s) (hr : RxClean s) : BusBlock (transmits s b) where
  __ := rxConsistent_of_rxClean (s := transmits s b) hr
  txCnt_le := Nat.zero_le _
  seq_step := h.seq_step
  transmitting _ := ⟨h.inited, h.alive, rfl, rfl, hr.1, rfl, rfl⟩
  receiving := nofun
  masked _ := by simp [transmits]
  quiet hi := absurd (h.inited.symm.trans hi) nofun
  started _ := h.started
  frozen hf := absurd (h.alive.symm.trans hf) nofun

theorem busBlock_released {s : State} (h : Running s) (hr : RxClean s) (ht : TxIdle s) : BusBlock (released s) where
  __ := rxConsistent_of_rxClean (s := released s) hr
  txCnt_le := by show s.txCnt.toNat ≤ 10; rw [ht.txCnt]; decide
  seq_step := h.seq_step
  transmitting := nofun
  receiving _ := ⟨rfl, ht.txCnt, ht.txPar, ht.seqOp⟩
  masked _ := by simp [released]
  quiet hi := absurd (h.inited.symm.trans hi) nofun
  started _ := h.started
  frozen hf := absurd (h.alive.symm.trans hf) nofun

theorem busBlock_idles {s : State} (h : Running s) (hr : RxClean s) (ht : TxIdle s) : BusBlock (idles s) := by
  unfold idles
  split_ifs
  · exact busBlock_transmits _ { h with seq_step := fun _ => rfl } hr
  · exact busBlock_released h hr ht

theorem rxClean_rxCleared (s : State) : RxClean (rxCleared s) := ⟨rfl, rfl, rfl, rfl, rfl⟩

theorem rxCleared_idles (s : State) : rxCleared (idles s) = idles (rxCleared s) := by
  by_cases h : s.seqOp = .none ∧ s.ledPending = true
  · have h' : (rxCleared s).seqOp = .none ∧ (rxCleared s).ledPending = true := h
    rw [idles, if_pos h, idles, if_pos h']; rfl
  · have h' : ¬((rxCleared s).seqOp = .none ∧ (rxCleared s).ledPending = true) := h
    rw [idles, if_neg h, idles, if_neg h']; rfl

end Sys2Proof.Machine
end

section
/-! The stop slot (40_rx_decoder.md R114) keeps the bus invariant. -/

namespace Sys2Proof.Machine

/-- What RX.STOP hands to its branch: a frame complete, the bus inhibited, nothing being transmitted. -/
structure AtStop (s : State) : Prop extends Running s, TxIdle s where
  mode : s.mode = .receiving
  dataDrv : s.dataDrv = .z
  irqEn : s.irqEn = false
  clkDrv : s.clkDrv = .low
  rxCnt : s.rxCnt = 10

theorem BusBlock.atStop {s : State} (es : List Event) (h : BusBlock s) (ht : s.edgeTaken = true)
    (hm : s.mode = .receiving) (hc : s.rxCnt = 10) :
    AtStop { s with stimulus := es, irqEn := false, clkDrv := .low } := by
  obtain ⟨hi, -, hf, -⟩ := edgeTaken_iff.1 ht
  obtain ⟨hdata, hcnt, hpar, hop⟩ := h.receiving hm
  exact {
    inited := hi, alive := hf, started := h.started hi, seq_step := h.seq_step
    txCnt := hcnt, txPar := hpar, seqOp := hop
    mode := hm, dataDrv := hdata, irqEn := rfl, clkDrv := rfl, rxCnt := hc }

/-- What the stop slot leaves when its branch was not fatal. -/
theorem busBlock_stopAlive {v : State} (hf : v.fatal = false) (h : BusBlock (rxCleared v)) :
    BusBlock (if v.fatal = true then v else rxCleared v) := by rwa [if_neg (by simp [hf])]

theorem busBlock_stopTransmits {u : State} (b : Byte) (h : Running u) :
    BusBlock (if (transmits u b).fatal = true then transmits u b else rxCleared (transmits u b)) :=
  busBlock_stopAlive h.alive (busBlock_transmits (s := rxCleared u) b { h with } (rxClean_rxCleared u))

theorem busBlock_stopReleased {u : State} (h : Running u) (ht : TxIdle u) :
    BusBlock (if (released u).fatal = true then released u else rxCleared (released u)) :=
  busBlock_stopAlive h.alive (busBlock_released (s := rxCleared u) { h with } (rxClean_rxCleared u) { ht with })

theorem busBlock_stopIdles {u : State} (h : Running u) (ht : TxIdle u) :
    BusBlock (if (idles u).fatal = true then idles u else rxCleared (idles u)) := by
  obtain ⟨-, -, hf, -⟩ := idles_keeps u
  refine busBlock_stopAlive (hf.trans h.alive) ?_
  rw [rxCleared_idles]
  exact busBlock_idles { h with } (rxClean_rxCleared u) { ht with }

/-- A response dropped under `Stall` leaves the bus inhibited. -/
theorem busBlock_stall {u : State} (e : Exc) (h : AtStop u) : BusBlock (rxCleared (raises u e)) where
  __ := rxConsistent_of_rxClean (rxClean_rxCleared (raises u e))
  txCnt_le := by show u.txCnt.toNat ≤ 10; rw [h.txCnt]; decide
  seq_step := h.seq_step
  transmitting ht := absurd (h.mode.symm.trans ht) nofun
  receiving _ := ⟨h.dataDrv, h.txCnt, h.txPar, h.seqOp⟩
  masked _ := iff_of_true h.irqEn h.clkDrv
  quiet hi := absurd (h.inited.symm.trans hi) nofun
  started _ := h.started
  frozen hf := absurd (h.alive.symm.trans hf) nofun

theorem busBlock_stopDropped {u : State} (b : Byte) (h : AtStop u) :
    BusBlock (if (dropped u b).fatal = true then dropped u b else rxCleared (dropped u b)) := by
  unfold dropped
  split
  · exact busBlock_stopAlive h.alive (busBlock_stall _ h)
  · exact busBlock_stopReleased { h.toRunning with seq_step := fun _ => rfl } { h.toTxIdle with seqOp := nofun }

/-- A fatal failure leaves the registers as RX.STOP found them and the bus inhibited. -/
theorem busBlock_fatal {u : State} (e : Exc) (h : AtStop u) (hr : RxConsistent u) (ho : u.seqOp = .reset)
    (hs : u.seqStep = true) : BusBlock { raises u e with fatal := true } where
  __ : RxConsistent { raises u e with fatal := true } := { hr with }
  txCnt_le := by show u.txCnt.toNat ≤ 10; rw [h.txCnt]; decide
  seq_step := h.seq_step
  transmitting ht := absurd (h.mode.symm.trans ht) nofun
  receiving _ := ⟨h.dataDrv, h.txCnt, h.txPar, h.seqOp⟩
  masked _ := iff_of_true h.irqEn h.clkDrv
  quiet hi := absurd (h.inited.symm.trans hi) nofun
  started _ := h.started
  frozen _ := ⟨h.irqEn, h.clkDrv, h.rxCnt, ho, hs⟩

theorem busBlock_stopResponse {u v : State} {b : Byte} (h : AtStop u) (hr : RxConsistent u)
    (hv : seqResponse b u = .next v) : BusBlock (if v.fatal = true then v else rxCleared v) := by
  have hrun := h.toRunning
  have htx := h.toTxIdle
  rcases seqResponse_eq_next hv with ⟨ho, -, -, rfl⟩ | ⟨-, -, -, rfl⟩ | ⟨ho, hs, -, rfl⟩ | ⟨ho, -, -, rfl⟩ |
    ⟨-, -, -, rfl⟩ | ⟨-, rfl⟩
  · exact busBlock_stopReleased (u := { u with seqStep := true })
      { hrun with seq_step := by simp [ho] } { htx with }
  · rw [State.seqResetBat, idleOpportunity_eq]
    exact busBlock_stopIdles { hrun with seq_step := fun _ => rfl } { htx with seqOp := nofun }
  · exact busBlock_fatal (.fatalProtocolFailure b) h hr ho hs
  · exact busBlock_stopTransmits (u := { u with seqStep := true }) _ { hrun with seq_step := by simp [ho] }
  · rw [State.seqLedAck2, idleOpportunity_eq]
    exact busBlock_stopIdles { hrun with seq_step := fun _ => rfl } { htx with seqOp := nofun }
  · rw [drop_eq]
    exact busBlock_stopDropped b h

theorem busBlock_stop {u v : State} (h : AtStop u) (hr : RxConsistent u) (hv : stopDispatch u = .next v) :
    BusBlock (if v.fatal = true then v else rxCleared v) := by
  rcases stopDispatch_eq_next hv with ⟨-, rfl⟩ | ⟨-, -, hv⟩ | ⟨-, -, hv⟩
  · exact busBlock_stopTransmits _ { h.toRunning with seq_step := fun _ => rfl }
  · exact busBlock_stopResponse h hr hv
  · obtain ⟨-, rfl⟩ := dispatchQueue_eq_next hv
    rw [idleOpportunity_eq]
    exact busBlock_stopIdles { h.toRunning with } { h.toTxIdle with }

end Sys2Proof.Machine
end

section
/-! Steps where the environment offers events of the spec only. -/

namespace Sys2Proof.Machine

theorem frameEdges_isSpec (f : BitVec 11) : (frameEdges f).all Event.isSpec = true := rfl

theorem branch_stimulus {s t : State} (h : Branch s t) : t.stimulus = s.stimulus := by
  obtain ⟨-, -, -, -, -, -, -, -, h, -⟩ := branch_keeps h
  exact h

/-- What a step on an event of the spec leaves offered: what stood behind the event, the event itself again, or the
edges of a frame before the rest. -/
theorem specEffect_stimulus {s t : State} {e : Event} {rest : List Event} (h : SpecEffect s e rest t) :
    t.stimulus = rest ∨ t.stimulus = s.stimulus ∨ ∃ f, t.stimulus = frameEdges f ++ rest := by
  cases h with
  | frame f he => exact .inr (.inr ⟨f, rfl⟩)
  | rxStop d he ht hm hc hv =>
    have := branch_stimulus (stopDispatch_branch hv)
    left
    split_ifs <;> exact this
  | txDone d he ht hm hc =>
    left
    unfold Machine.txDone State.returnFromException
    split_ifs <;> rfl
  | xl es he hes hr hx =>
    obtain ⟨-, -, -, -, -, hst, -⟩ := xlEffect_keeps hx
    rw [hst]
    exact hes.imp_right .inl
  | xlWaits he => exact .inr (.inl rfl)
  | _ => exact .inl rfl

/-- Where only events of the spec are offered, a step is the effect of one of them, if any is offered, and leaves only
such events offered. -/
theorem step_of_specEvents {s t : State} (hsp : s.stimulus.all Event.isSpec = true) (h : step s = .next t) :
    t.stimulus.all Event.isSpec = true ∧ (t = s ∨ ∃ e rest, s.stimulus = e :: rest ∧ SpecEffect s e rest t) := by
  cases hst : s.stimulus with
  | nil =>
    rw [step_settle (offer_nil hst)] at h
    cases h
    exact ⟨hsp, .inl rfl⟩
  | cons e rest =>
    have hall := hsp
    rw [hst, List.all_cons, Bool.and_eq_true] at hall
    obtain ⟨he, hrest⟩ := hall
    have hx := step_spec hst he h
    refine ⟨?_, .inr ⟨e, rest, rfl, hx⟩⟩
    rcases specEffect_stimulus hx with ht | ht | ⟨f, ht⟩
    · rw [ht]; exact hrest
    · rw [ht]; exact hsp
    · rw [ht, List.all_append, frameEdges_isSpec, hrest]; rfl

/-- No step undoes an overrun but RESET, which puts the block in its power-on state. -/
theorem step_overrun {s t : State} (h : step s = .next t) :
    (∃ u : State, u.params = s.params ∧ t = u.powerCycle) ∨ (s.overrun = true → t.overrun = true) := by
  rcases step_effect h with ⟨-, rfl⟩ | ⟨rest, -, rfl⟩ | ⟨e, rest, es, -, -, -, hx⟩
  · exact .inr id
  · exact .inl ⟨{ s with stimulus := rest }, rfl, rfl⟩
  · obtain ⟨-, hov, -⟩ := effect_keeps hx
    exact .inr hov

/-- A property claimed only while no overrun is recorded (43_ring_buffer.md R184) is kept by every step if the power-on
state has it and every step that does not overrun keeps it. -/
theorem step_keeps_unlessOverrun {P : State → Prop} {s t : State} (hsp : s.stimulus.all Event.isSpec = true)
    (h : step s = .next t) (hreset : ∀ u : State, u.params = s.params → P u.powerCycle)
    (hkeep : ∀ e rest, P s → SpecEffect s e rest t → t.overrun = false → P t) (hs : s.overrun = false → P s)
    (ht : t.overrun = false) : P t := by
  rcases step_overrun h with ⟨u, hu, rfl⟩ | hov
  · exact hreset u hu
  · have hs := hs (Bool.eq_false_iff.2 fun ho => Bool.eq_false_iff.1 ht (hov ho))
    obtain ⟨-, rfl | ⟨e, rest, -, hx⟩⟩ := step_of_specEvents hsp h
    · exact hs
    · exact hkeep e rest hs hx ht

end Sys2Proof.Machine
end

section
/-! Every step of the spec keeps the bus invariant (O59). -/

namespace Sys2Proof.Machine

/-- The bus invariant says nothing of what stands outside the block. -/
theorem BusBlock.withEnvironment {s : State} (es : List Event) (os : List Output) (n : Nat) (h : BusBlock s) :
    BusBlock { s with stimulus := es, outputs := os, draws := n } := { h with }

/-- After `init` a step that leaves alone what the interrupt context owns, and the task started, keeps it. -/
theorem busBlock_of_sameInterrupt {s t : State} (h : BusBlock s) (hi : s.inited = true) (hk : SameInterrupt s t)
    (hp : t.tPhase ≠ .idle) : BusBlock t := by
  obtain ⟨⟨hrc, hra, hrp, hrr, hrs⟩, ⟨htc, htb, htp⟩, ⟨hm, hq, hck, hd⟩, ⟨hso, hss, -⟩, ⟨hf, hin, -⟩, -, -⟩ := hk
  constructor
  case quiet => intro hn; rw [hin, hi] at hn; cases hn
  case started => exact fun _ => hp
  all_goals simp only [hrc, hra, hrp, hrr, hrs, htc, htb, htp, hm, hq, hck, hd, hso, hss, hf, hin]
  · exact h.rxCnt_le
  · exact h.txCnt_le
  · exact h.rx_clean
  · exact h.rx_par
  · exact h.rx_bits
  · exact h.rx_causes
  · exact h.seq_step
  · exact h.transmitting
  · exact h.receiving
  · exact h.masked
  · exact h.frozen

/-- A slot of a frame before the last touches the receive registers only. -/
theorem busBlock_rxSlot {s : State} {cnt : BitVec 4} {acc : Byte} {par resend : Bool} {causes : Causes}
    (h : BusBlock s) (ht : s.edgeTaken = true) (hm : s.mode = .receiving)
    (hr : RxConsistent { s with rxCnt := cnt, rxAcc := acc, rxPar := par, rxResend := resend, rxCauses := causes }) :
    BusBlock { s with rxCnt := cnt, rxAcc := acc, rxPar := par, rxResend := resend, rxCauses := causes } := by
  obtain ⟨hi, -, hf, -⟩ := edgeTaken_iff.1 ht
  exact { hr, h with
    transmitting := fun h' => absurd (hm.symm.trans h') nofun
    quiet := fun h' => absurd (hi.symm.trans h') nofun
    frozen := fun h' => absurd (hf.symm.trans h') nofun }

/-- A slot of a transmission before the last touches the transmit registers and the drive of DATA only. -/
theorem busBlock_txSlot {s : State} {drive : DataDrive} {par : Bool} {cnt : BitVec 4} (h : BusBlock s)
    (hm : s.mode = .transmitting) (hc : cnt.toNat ≤ 10)
    (ht : TxInSlot { s with dataDrv := drive, txPar := par, txCnt := cnt }) :
    BusBlock { s with dataDrv := drive, txPar := par, txCnt := cnt } := by
  obtain ⟨hi, hf, hq, hk, hrx, -, -⟩ := h.transmitting hm
  exact { h with
    txCnt_le := hc
    transmitting := fun _ => ⟨hi, hf, hq, hk, hrx, ht.1, ht.2⟩
    receiving := fun h' => absurd (hm.symm.trans h') nofun }

theorem BusBlock.txInSlot {s : State} (h : BusBlock s) (hm : s.mode = .transmitting) : TxInSlot s := by
  obtain ⟨-, -, -, -, -, hpar, hdrive⟩ := h.transmitting hm
  exact ⟨hpar, hdrive⟩

/-- TX.DONE on a block that drives neither line is a release of the bus with the transmit registers cleared. -/
theorem txDone_eq_released {s : State} (hq : s.irqEn = true) (hk : s.clkDrv = .z) (hd : s.dataDrv = .z) :
    txDone s = released { s with
      txCnt := 0, txPar := true, seqOp := if s.seqOp = .resend then .none else s.seqOp } := by
  cases s
  unfold txDone State.returnFromException released
  split_ifs <;> simp_all

/-- The last slot of a transmission: receive mode, and a Resend over. -/
theorem busBlock_txDone {s : State} (h : BusBlock s) (hm : s.mode = .transmitting) (hc : s.txCnt = 10) :
    BusBlock (txDone s) := by
  obtain ⟨hi, hf, hq, hk, hrx, -, hd⟩ := h.transmitting hm
  rw [txDone_eq_released hq hk (by rw [hd, hc]; rfl)]
  refine busBlock_released ⟨hi, hf, h.started hi, fun ho => ?_⟩ (h.rxConsistent.rxClean hrx) ⟨rfl, rfl, ?_⟩
  · refine h.seq_step ?_
    revert ho
    dsimp only
    split_ifs with hr
    · exact fun _ => .inr hr
    · exact id
  · dsimp only
    split_ifs with hr
    · exact nofun
    · exact hr

theorem busBlock_powerOn (p : Params) (led : LedState) : BusBlock (State.powerOn p led) := by
  constructor <;> simp [State.powerOn, Causes.none, oddParity_zero]

theorem xlEffect_started {s t : State} (h : XlEffect s t) : t.tPhase ≠ .idle := by
  cases h with
  | wait hp hw => exact nofun
  | first b hp hb => rw [xlFirst_eq]; split_ifs <;> exact nofun
  | second b hp hb => rw [xlSecond_eq]; split_ifs <;> exact nofun
  | third b hp hb => exact nofun

/-- Every step on an event of the spec keeps the bus side of the invariant, unless it overruns. -/
theorem busBlock_step {s t : State} {e : Event} {rest : List Event} (h : BusBlock s) (hs : SpecEffect s e rest t)
    (hov : t.overrun = false) : BusBlock t := by
  have hu (es : List Event) : BusBlock { s with stimulus := es } := h.withEnvironment es s.outputs s.draws
  cases hs with
  | lost => exact hu _
  | reset he => exact (busBlock_powerOn s.params _).withEnvironment _ _ _
  | init he hi =>
    obtain ⟨-, -, -, hrx, -, -, hf, -⟩ := h.quiet hi
    exact busBlock_transmits
      (s := { s with inited := true, seqOp := .reset, seqStep := false, tPhase := .waitEvent, stimulus := rest }) _
      ⟨rfl, hf, nofun, fun _ => rfl⟩ (h.rxConsistent.rxClean hrx)
  | led m he hi hf =>
    exact busBlock_of_sameInterrupt h hi (by
      simp [SameInterrupt, SameRx, SameTx, SameLines, SameSeq, SameStatus, State.ringByte]) (h.started hi)
  | frame f he => exact hu _
  | rxStart d he ht hm hc =>
    exact busBlock_rxSlot (hu rest) ht hm (rxConsistent_rxStart d ((hu rest).rxConsistent.rxClean hc))
  | rxData d he ht hm h1 h8 =>
    exact busBlock_rxSlot (hu rest) ht hm (rxConsistent_rxData d (hu rest).rxConsistent h1 h8)
  | rxParity d he ht hm hc =>
    exact busBlock_rxSlot (hu rest) ht hm (rxConsistent_rxParity d (hu rest).rxConsistent)
  | rxStop d he ht hm hc hv => exact busBlock_stop (h.atStop rest ht hm hc) { h.rxConsistent with } hv
  | overrun d he ht hm hc hq hf => cases hov
  | txData d he ht hm h7 =>
    exact busBlock_txSlot (hu rest) hm (by rw [BitVec.toNat_ofNat]; omega)
      (txInSlot_txData ((hu rest).txInSlot hm) h7)
  | txParity d he ht hm hc =>
    exact busBlock_txSlot (hu rest) hm (by decide) (txInSlot_txParity ((hu rest).txInSlot hm) hc)
  | txStop d he ht hm hc =>
    exact busBlock_txSlot (hu rest) hm (by decide) (txInSlot_txStop ((hu rest).txInSlot hm) hc)
  | txDone d he ht hm hc => exact busBlock_txDone (hu rest) hm hc
  | xl es he hes hr hx =>
    obtain ⟨hk, -⟩ := xlEffect_keeps hx
    exact busBlock_of_sameInterrupt (hu es) (taskRuns_iff.1 hr).1 hk (xlEffect_started hx)
  | xlWaits he => exact h

/-- Settles O59: with no overrun recorded every way a step of the spec can end keeps `BusBlock`; the events offered stay
those of the spec. -/
theorem everyStepKeepsBusInv : Obligations.EveryStepKeepsBusInv := fun _ _ h hstep => {
  spec_events := (step_of_specEvents h.spec_events hstep).1
  block := step_keeps_unlessOverrun h.spec_events hstep
    (fun u _ => (busBlock_powerOn u.params _).withEnvironment _ _ _) (fun _ _ => busBlock_step) h.block }

end Sys2Proof.Machine
end

section
/-! What a step does to the ring buffer, its signals and the translator's pass, and the ring invariant. -/

namespace Sys2Proof.Machine

/-- The queue is as it was, and no more signals than before are pending or consumed. -/
def QueueKept (s t : State) : Prop :=
  t.ringMem = s.ringMem ∧ t.ringWr = s.ringWr ∧ t.ringRd = s.ringRd ∧ t.wake + inPass t ≤ s.wake + inPass s

/-- The byte b is queued, signalled at most if it is no break or extend byte. -/
def QueueWrites (s t : State) (b : Byte) : Prop :=
  RingRoom s ∧ t.ringMem = memWrite s.ringMem s.ringWr b ∧ t.ringWr = (s.ringWr + 1) % s.params.cap ∧
    t.ringRd = s.ringRd ∧ t.wake + inPass t ≤ s.wake + inPass s + [b].countP signals

/-- The byte b is read, and a pass that reads another byte than break and extend ends with it. -/
def QueueReads (s t : State) (b : Byte) : Prop :=
  RingHolds s b ∧ t.ringMem = s.ringMem ∧ t.ringWr = s.ringWr ∧ t.ringRd = (s.ringRd + 1) % s.params.cap ∧
    t.wake + inPass t + [b].countP signals ≤ s.wake + inPass s

/-- What a step other than a reset or an overrun does to the queue. -/
def QueueMove (s t : State) : Prop :=
  t.params = s.params ∧ t.draws = s.draws ∧
    (QueueKept s t ∨ (∃ b, QueueWrites s t b) ∨ ∃ b, QueueReads s t b)

theorem inPass_congr {s t : State} (h : t.tPhase = s.tPhase) : inPass t = inPass s := by
  unfold inPass; rw [h]

theorem queueMove_kept {s t : State} (hp : t.params = s.params) (hd : t.draws = s.draws) (hm : t.ringMem = s.ringMem)
    (hw : t.ringWr = s.ringWr) (hr : t.ringRd = s.ringRd) (hk : t.wake = s.wake) (ht : t.tPhase = s.tPhase) :
    QueueMove s t := ⟨hp, hd, .inl ⟨hm, hw, hr, by rw [hk, inPass_congr ht]⟩⟩

theorem idles_queue (s : State) : QueueMove s (idles s) := by
  obtain ⟨hp, -, -, hm, hw, hr, hk, -, ⟨-, ht, -, -⟩, -, -, -, -, -, -, -, hd⟩ := idles_keeps s
  exact queueMove_kept hp hd hm hw hr hk ht

/-- The signal a queued byte raises is its own count among the signalling bytes. -/
theorem wake_queued (n : Nat) (b : Byte) :
    (if b = 0xF0 ∨ b = 0xE0 then n else n + 1) = n + [b].countP signals := by
  by_cases hb : b.isPrefix = true
  · rw [if_pos ((isPrefix_iff b).1 hb)]; simp [signals, hb]
  · rw [if_neg (mt (isPrefix_iff b).2 hb)]; simp [signals, hb]

theorem queued_queue {s : State} (b : Byte) (hr : RingRoom s) : QueueMove s (queued s b) := by
  obtain ⟨hp, -, -, hm, hw, hrd, hk, -, ⟨-, ht, -, -⟩, -, -, -, -, -, -, -, hd⟩ := idles_keeps { s with
    ringMem := memWrite s.ringMem s.ringWr b
    ringWr := (s.ringWr + 1) % s.params.cap
    wake := if b = 0xF0 ∨ b = 0xE0 then s.wake else s.wake + 1 }
  refine ⟨hp, hd, .inr (.inl ⟨b, hr, hm, hw, hrd, ?_⟩)⟩
  have hpass : inPass (queued s b) = inPass s := inPass_congr ht
  have hwake : (queued s b).wake = s.wake + [b].countP signals := hk.trans (wake_queued s.wake b)
  omega

theorem branch_queue {s t : State} (h : Branch s t) : QueueMove s t := by
  cases h with
  | drop b =>
    obtain ⟨hp, -, -, hm, hw, hr, hk, -, ⟨-, ht, -, -⟩, -, -, -, -, -, -, hd⟩ := dropped_keeps s b
    exact queueMove_kept hp hd hm hw hr hk ht
  | resetBat => exact idles_queue _
  | ledAck2 => exact idles_queue _
  | queue b hr => exact queued_queue b hr
  | _ => exact queueMove_kept rfl rfl rfl rfl rfl rfl rfl

theorem countP_signals_le (b : Byte) : [b].countP signals ≤ 1 := List.countP_le_length

/-- A break or extend byte read within a pass: the pass goes on. -/
theorem queueReads_prefix {s t : State} {b : Byte} (hb : RingHolds s b) (hp : b = 0xF0 ∨ b = 0xE0) (hs : inPass s = 1)
    (ht : inPass t = 1) (hm : t.ringMem = s.ringMem) (hw : t.ringWr = s.ringWr)
    (hr : t.ringRd = (s.ringRd + 1) % s.params.cap) (hk : t.wake = s.wake) : QueueReads s t b := by
  refine ⟨hb, hm, hw, hr, ?_⟩
  have hsig : signals b = false := by rw [signals, (isPrefix_iff b).2 hp]; rfl
  rw [List.countP_singleton, hsig]
  simp [hk, hs, ht]

/-- A code read and emitted: the pass is over. -/
theorem queueReads_emitted {s : State} {b : Byte} (hb : RingHolds s b) (hs : inPass s = 1) :
    QueueReads s (emitted { s with ringRd := (s.ringRd + 1) % s.params.cap } b) b := by
  refine ⟨hb, rfl, rfl, rfl, ?_⟩
  have := countP_signals_le b
  show s.wake + 0 + _ ≤ _
  omega

theorem xlEffect_queue {s t : State} (h : XlEffect s t) : QueueMove s t := by
  obtain ⟨-, hp, -, -, -, -, -, hd, -⟩ := xlEffect_keeps h
  refine ⟨hp, hd, ?_⟩
  cases h with
  | wait hph hw =>
    refine .inl ⟨rfl, rfl, rfl, ?_⟩
    simp only [xlWait, inPass, hph]
    omega
  | first b hph hb =>
    have hs : inPass s = 1 := by rw [inPass, hph]
    refine .inr (.inr ⟨b, ?_⟩)
    rw [xlFirst_eq]
    split_ifs with hext hbrk
    · exact queueReads_prefix hb (.inr hext) hs rfl rfl rfl rfl rfl
    · exact queueReads_prefix hb (.inl hbrk) hs rfl rfl rfl rfl rfl
    · exact queueReads_emitted hb hs
  | second b hph hb =>
    have hs : inPass s = 1 := by rw [inPass, hph]
    refine .inr (.inr ⟨b, ?_⟩)
    rw [xlSecond_eq]
    split_ifs with hbrk
    · exact queueReads_prefix hb (.inl hbrk) hs rfl rfl rfl rfl rfl
    · exact queueReads_emitted hb hs
  | third b hph hb => exact .inr (.inr ⟨b, queueReads_emitted hb (by rw [inPass, hph])⟩)

/-- What a step on an event of the spec does to the queue, a reset and an overrun apart. -/
theorem specEffect_queue {s t : State} {e : Event} {rest : List Event} (h : SpecEffect s e rest t) :
    (t.params = s.params ∧ t.ringMem = [] ∧ (t.overrun = true ∨ ∃ u : State, t = u.powerCycle)) ∨ QueueMove s t := by
  cases h with
  | reset he => exact .inl ⟨rfl, rfl, .inr ⟨_, rfl⟩⟩
  | overrun d he ht hm hc hq hf => exact .inl ⟨rfl, rfl, .inl rfl⟩
  | init he hi =>
    refine .inr ⟨rfl, rfl, .inl ⟨rfl, rfl, rfl, ?_⟩⟩
    exact Nat.add_le_add_left (Nat.zero_le _) _
  | rxStop d he ht hm hc hv =>
    have := branch_queue (stopDispatch_branch hv)
    right
    split_ifs <;> exact this
  | txDone d he ht hm hc =>
    right
    unfold Machine.txDone State.returnFromException
    split_ifs <;> exact queueMove_kept rfl rfl rfl rfl rfl rfl rfl
  | xl es he hes hr hx => exact .inr (xlEffect_queue (s := { s with stimulus := es }) hx)
  | _ => exact .inr (queueMove_kept rfl rfl rfl rfl rfl rfl rfl)

/-! ### The memory -/

/-- The memory is in its canonical form and within the buffer (20_memory.md R61). -/
def MemInBuffer (s : State) : Prop := Memory.wf s.ringMem = true ∧ ∀ c ∈ s.ringMem, c.1 < s.params.cap

theorem memInBuffer_nil {s : State} (h : s.ringMem = []) : MemInBuffer s := by
  rw [MemInBuffer, h]
  exact ⟨rfl, nofun⟩

theorem memInBuffer_move {s t : State} (h : MemInBuffer s) (hq : QueueMove s t) : MemInBuffer t := by
  obtain ⟨hwf, hin⟩ := h
  obtain ⟨hp, -, ⟨hm, -⟩ | ⟨b, hr, hm, -⟩ | ⟨b, -, hm, -⟩⟩ := hq <;> rw [MemInBuffer, hm, hp]
  · exact ⟨hwf, hin⟩
  · refine ⟨memWrite_wf _ _ hwf, fun c hc => ?_⟩
    rcases mem_memWrite hc with ha | hc
    · rw [ha]; exact hr.2
    · exact hin c hc
  · exact ⟨hwf, hin⟩

/-! ### The queue -/

theorem ringBlock_empty {s : State} (hc : 4 ≤ s.params.cap) (hw : s.ringWr = 0) (hr : s.ringRd = 0)
    (hs : s.wake + inPass s = 0) : RingBlock s := by
  have hcur : CursorsIn s := by rw [CursorsIn, hw, hr]; omega
  have hcnt : unreadCount s = 0 := (unreadCount_zero hcur).2 (hw.trans hr.symm)
  exact ⟨hcur, fun i hi => by omega, by omega⟩

theorem ringBlock_kept {s t : State} (h : RingBlock s) (hp : t.params = s.params) (hd : t.draws = s.draws)
    (hq : QueueKept s t) : RingBlock t := by
  obtain ⟨hm, hw, hr, hs⟩ := hq
  have hcnt : unreadCount t = unreadCount s := by rw [unreadCount, hw, hr, hp]; rfl
  have hun : unread t = unread s := by
    simp only [unread, hcnt, hr, hp, State.ringByte_congr hm hd]
  refine ⟨?_, ?_, ?_⟩
  · rw [CursorsIn, hw, hr, hp]; exact h.cursors
  · rw [hcnt, hm, hr, hp]; exact h.written
  · rw [hun]; exact hs.trans h.signalled

theorem ringBlock_write {s t : State} {b : Byte} (h : RingBlock s) (hp : t.params = s.params) (hd : t.draws = s.draws)
    (hq : QueueWrites s t b) : RingBlock t := by
  obtain ⟨hroom, hm, hw, hr, hs⟩ := hq
  refine ⟨?_, written_write h.cursors hroom hw hr hp hm h.written, ?_⟩
  · rw [CursorsIn, hw, hr, hp]
    exact ⟨Nat.mod_lt _ (by have := h.cursors.1; omega), h.cursors.2⟩
  · rw [unread_write h.cursors hroom hw hr hp hm hd, List.countP_append]
    have := h.signalled
    omega

/-- The byte at the read cursor of a buffer that is not empty is the first of the unread bytes. -/
theorem unread_of_holds {s : State} {b : Byte} (hc : CursorsIn s) (hb : RingHolds s b) : ∃ q, unread s = b :: q := by
  cases hu : unread s with
  | nil =>
    have hz : unreadCount s = 0 := by rw [← unread_length, hu]; rfl
    exact absurd ((unreadCount_zero hc).1 hz) hb.1
  | cons c q =>
    obtain ⟨⟨-, -, hcb⟩, -⟩ := unread_cons hc hu
    exact ⟨q, by rw [← hb.2.2, hcb]⟩

theorem ringBlock_read {s t : State} {b : Byte} (h : RingBlock s) (hp : t.params = s.params) (hd : t.draws = s.draws)
    (hq : QueueReads s t b) : RingBlock t := by
  obtain ⟨hb, hm, hw, hr, hs⟩ := hq
  obtain ⟨q, hu⟩ := unread_of_holds h.cursors hb
  obtain ⟨-, hread⟩ := unread_cons h.cursors hu
  refine ⟨?_, written_read h.cursors hb.1 hw hr hp hm h.written, ?_⟩
  · rw [CursorsIn, hw, hr, hp]
    exact ⟨h.cursors.1, Nat.mod_lt _ (by have := h.cursors.1; omega)⟩
  · have hsig := h.signalled
    rw [hu, ← List.singleton_append, List.countP_append] at hsig
    rw [hread t hw hm hd hp hr]
    omega

theorem ringBlock_move {s t : State} (h : RingBlock s) (hq : QueueMove s t) : RingBlock t := by
  obtain ⟨hp, hd, hk | ⟨b, hw⟩ | ⟨b, hr⟩⟩ := hq
  · exact ringBlock_kept h hp hd hk
  · exact ringBlock_write h hp hd hw
  · exact ringBlock_read h hp hd hr

end Sys2Proof.Machine
end

section
/-! The ring invariant along every step (O60); the power-on state (O8) and both invariants there (O58). -/

namespace Sys2Proof.Machine

theorem ringBlock_powerCycle {s : State} (h : 4 ≤ s.params.cap) : RingBlock s.powerCycle :=
  ringBlock_empty h rfl rfl rfl

/-- What a step does to the parameters and to the memory's form, an overrun included. -/
theorem step_memInBuffer {s t : State} (hsp : s.stimulus.all Event.isSpec = true) (h : step s = .next t)
    (hm : MemInBuffer s) : t.params = s.params ∧ MemInBuffer t := by
  obtain ⟨-, rfl | ⟨e, rest, -, hx⟩⟩ := step_of_specEvents hsp h
  · exact ⟨rfl, hm⟩
  · rcases specEffect_queue hx with ⟨hp, hnil, -⟩ | hq
    · exact ⟨hp, memInBuffer_nil hnil⟩
    · exact ⟨hq.1, memInBuffer_move hm hq⟩

theorem ringBlock_step {s t : State} {e : Event} {rest : List Event} (hc : 4 ≤ s.params.cap) (h : RingBlock s)
    (hx : SpecEffect s e rest t) (hov : t.overrun = false) : RingBlock t := by
  rcases specEffect_queue hx with ⟨hp, -, ho | ⟨u, rfl⟩⟩ | hq
  · rw [hov] at ho; cases ho
  · exact ringBlock_powerCycle (hp.symm ▸ hc : 4 ≤ u.powerCycle.params.cap)
  · exact ringBlock_move h hq

/-- Settles O60: a step keeps the queue, writes it, reads it, empties it or overruns, and each keeps `RingInv`. -/
theorem everyStepKeepsRingInv : Obligations.EveryStepKeepsRingInv := by
  intro s t h hstep
  obtain ⟨hsp, -⟩ := step_of_specEvents h.spec_events hstep
  obtain ⟨hp, hwf, hin⟩ := step_memInBuffer h.spec_events hstep ⟨h.mem_wf, h.mem_in⟩
  refine ⟨hsp, hp.symm ▸ h.cap_four, hwf, hin, ?_⟩
  exact step_keeps_unlessOverrun h.spec_events hstep
    (fun u hu => ringBlock_powerCycle (hu.symm ▸ h.cap_four)) (fun _ _ => ringBlock_step h.cap_four) h.queue

/-- Settles O8: each register of `State.powerOn` read off. -/
theorem powerOnResetValues : Obligations.PowerOnResetValues := fun p led => by simp [State.powerOn]

/-- Settles O58: the power-on state is quiescent and its buffer is empty. -/
theorem invariantsHoldAtPowerOn : Obligations.InvariantsHoldAtPowerOn := fun p led ha =>
  ⟨⟨rfl, fun _ => busBlock_powerOn p led⟩,
    ⟨rfl, ha.cap_four, powerOn_memory_wf p led, nofun, fun _ => ringBlock_empty ha.cap_four rfl rfl rfl⟩⟩

end Sys2Proof.Machine
end

section
/-! Before `init` and after a fatal failure (10_state.md R26, R40; 70_reset_and_hazards.md R251). -/

namespace Sys2Proof.Machine

theorem edgeTaken_of_not_inited {s : State} (h : s.inited = false) : s.edgeTaken = false := by
  simp [State.edgeTaken, h]

theorem taskRuns_of_not_inited {s : State} (h : s.inited = false) : s.taskRuns = false := by
  simp [State.taskRuns, h]

/-- A translator event passes where the task does not run. -/
theorem step_xl_lost {s : State} {e : Event} {rest : List Event} (h : s.stimulus = e :: rest)
    (he : e = .xl ∨ e = .xlAll) (hr : s.taskRuns = false) : step s = .next { s with stimulus := rest } := by
  have hr' : ({ s with stimulus := rest } : State).taskRuns = false := hr
  refine step_settle ?_
  rw [offer_cons h]
  rcases he with rfl | rfl
  · simp [offerEvent, hr']
  · simp [offerEvent, State.xlEnabled, hr']

theorem step_led {s : State} {m : Byte} {rest : List Event} (h : s.stimulus = .led m :: rest) :
    step s = changeLedState m { s with stimulus := rest } :=
  step_run (i := .changeLed m) (offer_cons h) rfl

theorem step_init {s : State} {rest : List Event} (h : s.stimulus = .init :: rest) :
    step s = execInit { s with stimulus := rest } :=
  step_run (i := .init) (offer_cons h) rfl

theorem changeLedState_refused {s : State} (m : Byte) (h : s.inited = false) :
    changeLedState m s = .refused .ledBeforeInit := if_pos h

theorem execInit_starts {s : State} (h : s.inited = false) : ∃ t, execInit s = .next t ∧ t.inited = true :=
  ⟨_, if_neg (by simp [h]), rfl⟩

/-- Settles O10: edges, task steps, `changeLedState` and `init` in turn. -/
theorem nothingButInitRunsBeforeInit : Obligations.NothingButInitRunsBeforeInit := by
  intro s e rest hi hst
  refine ⟨?_, ?_, ?_⟩
  · rintro (⟨d, rfl⟩ | he)
    · exact step_edge_lost hst (edgeTaken_of_not_inited hi)
    · exact step_xl_lost hst he (taskRuns_of_not_inited hi)
  · rintro m rfl
    rw [step_led hst]
    exact changeLedState_refused m hi
  · rintro rfl
    rw [step_init hst]
    exact execInit_starts hi

theorem edgeTaken_of_fatal {s : State} (h : s.fatal = true) : s.edgeTaken = false := by
  simp [State.edgeTaken, h]

theorem taskRuns_of_fatal {s : State} (h : s.fatal = true) : s.taskRuns = false := by
  simp [State.taskRuns, h]

/-- Settles O53: with `fatal` set no edge is taken, the task does not run and `changeLedState` has no effect, so what is
left of `SpecEffect` touches the stimulus alone. -/
theorem fatalIsForEver : Obligations.FatalIsForEver := by
  intro s t e rest hst hspec hreset hinit hf h
  have hedge : ¬s.edgeTaken = true := by simp [edgeTaken_of_fatal hf]
  have htask : ¬s.taskRuns = true := by simp [taskRuns_of_fatal hf]
  cases step_spec hst hspec h with
  | lost => rfl
  | frame f he => rfl
  | xlWaits he => rfl
  | reset he => exact absurd he hreset
  | init he hi => exact absurd (hinit.symm.trans hi) nofun
  | led m he hi hf' => exact absurd (hf.symm.trans hf') nofun
  | xl es he hes hr hx => exact absurd hr htask
  | _ => contradiction -- the slots of a frame or a transmission, whose edge is not taken

end Sys2Proof.Machine
end

section
/-! Each context writes only what it owns (10_state.md R20, 60_exceptions.md R233, R237). -/

namespace Sys2Proof.Machine

/-- What an edge leaves alone: the task's state, the caller's mask and `inited`; and it takes no signal back. -/
def EdgeKeeps (s t : State) : Prop := SameTask s t ∧ s.wake ≤ t.wake ∧ t.ledReq = s.ledReq ∧ t.inited = s.inited

theorem branch_edgeKeeps {s t : State} (h : Branch s t) : EdgeKeeps s t := by
  obtain ⟨-, hi, -, -, htask, hled, hwake, -⟩ := branch_keeps h
  exact ⟨htask, hwake, hled, hi⟩

theorem txDone_edgeKeeps (s : State) : EdgeKeeps s (txDone s) := by
  unfold txDone State.returnFromException
  split_ifs <;> exact ⟨⟨rfl, rfl, rfl, rfl⟩, le_rfl, rfl, rfl⟩

theorem step_edge_keeps {s t : State} {d : Bool} {rest : List Event} (hst : s.stimulus = .edge d :: rest)
    (h : step s = .next t) (ho : ¬Overran s t) : EdgeKeeps s t := by
  cases step_spec hst rfl h with
  | rxStop d he ht hm hc hv =>
    have := branch_edgeKeeps (stopDispatch_branch hv)
    split_ifs <;> exact this
  | overrun d he ht hm hc hq hf => exact absurd (afterOverrun_overran (s := { s with stimulus := rest }) hf) ho
  | txDone d he ht hm hc => exact txDone_edgeKeeps { s with stimulus := rest }
  | reset he | init he | led m he => cases he
  | frame f he | xl es he => rcases he with he | he <;> cases he
  | _ => exact ⟨⟨rfl, rfl, rfl, rfl⟩, le_rfl, rfl, rfl⟩

theorem step_xl_keeps {s t : State} {e : Event} {rest : List Event} (hst : s.stimulus = e :: rest)
    (he : e = .xl ∨ e = .xlAll) (h : step s = .next t) :
    SameInterrupt s t ∧ t.wake ≤ s.wake ∧ t.ledPending = s.ledPending ∧ t.ledReq = s.ledReq := by
  obtain ⟨es, -, rfl | ⟨-, hx⟩⟩ := step_xl hst he h
  · simp [SameInterrupt, SameRx, SameTx, SameLines, SameSeq, SameStatus, State.ringByte]
  · obtain ⟨hk, -, hpend, hreq, hwake, -⟩ := xlEffect_keeps hx
    exact ⟨hk, hwake, hpend, hreq⟩

theorem changeLedState_writes {s t : State} {m : Byte} (h : changeLedState m s = .next t) :
    t = { s with ledReq := t.ledReq, ledPending := t.ledPending } := by
  unfold changeLedState at h
  split_ifs at h <;> cases h <;> rfl

/-- Settles O57: one lemma per context. -/
theorem contextsKeepToTheirState : Obligations.ContextsKeepToTheirState := by
  intro s t e rest hst h
  refine ⟨?_, fun he => step_xl_keeps hst he h, ?_⟩
  · rintro ⟨d, rfl⟩ ho
    exact step_edge_keeps hst h ho
  · rintro m rfl
    rw [step_led hst] at h
    exact changeLedState_writes h

end Sys2Proof.Machine
end

section
/-! The pure functions as rows (20_memory.md R63, R65; 30_encoding.md R90, R92). -/

namespace Sys2Proof.Machine

theorem hidAddress_eq (code : Byte) (ext : Bool) :
    hidAddress code ext = if ext = true then code.toNat + 256 else code.toNat := by cases ext <;> rfl

theorem ofLevel_isModifier (p : Params) (code : Byte) (ext : Bool) :
    Byte.ofLevel (isModifier p code ext) = if (code, ext) ∈ p.modifierSet then 1 else 0 := by
  by_cases h : (code, ext) ∈ p.modifierSet <;> simp [isModifier, Byte.ofLevel, h]

/-- The flag byte is `00000bmk` (R92). -/
theorem eventFlagBits_bits : ∀ b m k : Bool,
    (eventFlagBits b m k).getLsbD 2 = b ∧ (eventFlagBits b m k).getLsbD 1 = m ∧ (eventFlagBits b m k).getLsbD 0 = k ∧
      (eventFlagBits b m k).toNat < 8 := by decide

/-- Settles O40: each row returns its function's value in `ret`. -/
theorem lookupResults : Obligations.LookupResults := by
  intro s
  refine ⟨fun code ext => ?_, fun code ext => ?_, fun m => rfl, fun b m k => ⟨_, rfl, eventFlagBits_bits b m k⟩⟩
  · rw [← hidAddress_eq]; rfl
  · rw [← ofLevel_isModifier]; rfl

end Sys2Proof.Machine
end

section
/-! What the rows do to the writer's side of the ring buffer: the memory, the write cursor and the overrun record
(20_memory.md R61, 43_ring_buffer.md R181, R184). -/

namespace Sys2Proof.Machine

/-- The writer's side of the ring buffer, and the draws its unlisted bytes depend on, are as they were. -/
def WriterKept (s t : State) : Prop :=
  t.ringMem = s.ringMem ∧ t.ringWr = s.ringWr ∧ t.overrun = s.overrun ∧ t.draws = s.draws

/-- No byte but the one at the write cursor has changed, and the cursor has moved by one place at most. -/
def WritesAtCursor (s t : State) : Prop :=
  (∀ a, a ≠ s.ringWr → t.ringByte a = s.ringByte a) ∧
    (t.ringWr = s.ringWr ∨ t.ringWr = (s.ringWr + 1) % s.params.cap)

theorem WriterKept.ringByte {s t : State} (h : WriterKept s t) (a : Nat) : t.ringByte a = s.ringByte a := by
  obtain ⟨hm, -, -, hd⟩ := h
  exact State.ringByte_congr hm hd a

theorem WriterKept.writesAtCursor {s t : State} (h : WriterKept s t) : WritesAtCursor s t := by
  have hb := h.ringByte
  obtain ⟨-, hw, -, -⟩ := h
  exact ⟨fun a _ => hb a, .inl hw⟩

/-! ### Rows that do not queue -/

theorem writerKept_idles (s : State) : WriterKept s (idles s) := by
  obtain ⟨-, -, -, hm, hw, -, -, -, -, -, -, -, -, -, -, ho, hd⟩ := idles_keeps s
  exact ⟨hm, hw, ho, hd⟩

theorem writerKept_idleOpportunity {s u : State} (h : WriterKept s u) : WriterKept s u.idleOpportunity := by
  obtain ⟨hm, hw, ho, hd⟩ := writerKept_idles u
  obtain ⟨hm', hw', ho', hd'⟩ := h
  rw [idleOpportunity_eq]
  exact ⟨hm.trans hm', hw.trans hw', ho.trans ho', hd.trans hd'⟩

theorem writerKept_drop (s : State) (b : Byte) : WriterKept s (s.drop b) := by
  obtain ⟨-, -, -, hm, hw, -, -, -, -, -, -, -, -, -, ho, hd⟩ := dropped_keeps s b
  rw [drop_eq]
  exact ⟨hm, hw, ho, hd⟩

theorem writerKept_seqResetBat (s : State) : WriterKept s s.seqResetBat :=
  writerKept_idleOpportunity ⟨rfl, rfl, rfl, rfl⟩

theorem writerKept_seqLedAck2 (s : State) : WriterKept s s.seqLedAck2 :=
  writerKept_idleOpportunity ⟨rfl, rfl, rfl, rfl⟩

theorem writerKept_seqResponse {s t : State} {b : Byte} (h : seqResponse b s = .next t) : WriterKept s t := by
  rcases seqResponse_eq_next h with ⟨-, -, -, rfl⟩ | ⟨-, -, -, rfl⟩ | ⟨-, -, -, rfl⟩ | ⟨-, -, -, rfl⟩ |
    ⟨-, -, -, rfl⟩ | ⟨-, rfl⟩
  · exact ⟨rfl, rfl, rfl, rfl⟩
  · exact writerKept_seqResetBat s
  · exact ⟨rfl, rfl, rfl, rfl⟩
  · exact ⟨rfl, rfl, rfl, rfl⟩
  · exact writerKept_seqLedAck2 s
  · exact writerKept_drop s b

theorem writerKept_txDone (s : State) : WriterKept s (txDone s) := by
  unfold txDone State.returnFromException
  split_ifs <;> exact ⟨rfl, rfl, rfl, rfl⟩

theorem writerKept_onEdge {s t : State} {sel : BitVec 5} {f : State → State}
    (h : onEdge sel (fun s => .next (f s)) s = .next t) (hf : WriterKept s (f s)) : WriterKept s t := by
  rcases onEdge_eq_next h with ⟨-, h⟩ | ⟨-, rfl⟩
  · cases h; exact hf
  · exact ⟨rfl, rfl, rfl, rfl⟩

theorem writerKept_onPhase {s t : State} {ph : TPhase} {f : State → Result} (h : onPhase ph f s = .next t)
    (hf : f s = .next t → WriterKept s t) : WriterKept s t := by
  rcases onPhase_eq_next h with ⟨-, h⟩ | ⟨-, rfl⟩
  · exact hf h
  · exact ⟨rfl, rfl, rfl, rfl⟩

/-- A read moves the read cursor only, so what it keeps is what is done with its byte. -/
theorem writerKept_withRingByte {s t : State} {f : Byte → State → State} (h : withRingByte s f = .next t)
    (hf : ∀ b u, WriterKept u (f b u)) : WriterKept s t := by
  rcases withRingByte_eq_next h with ⟨-, rfl⟩ | ⟨b, -, rfl⟩
  · exact ⟨rfl, rfl, rfl, rfl⟩
  · exact hf b { s with ringRd := (s.ringRd + 1) % s.params.cap }

theorem writerKept_onPhase_read {s t : State} {ph : TPhase} {f : Byte → State → State}
    (h : onPhase ph (fun s => withRingByte s f) s = .next t) (hf : ∀ b u, WriterKept u (f b u)) : WriterKept s t :=
  writerKept_onPhase h fun h => writerKept_withRingByte h hf

theorem writerKept_emit (s : State) (code : Byte) : WriterKept s (s.emit code) := by
  rw [emit_eq]
  exact ⟨rfl, rfl, rfl, rfl⟩

theorem writerKept_xlFirst (b : Byte) (s : State) : WriterKept s (xlFirst b s) := by
  unfold xlFirst
  split_ifs
  · exact ⟨rfl, rfl, rfl, rfl⟩
  · exact ⟨rfl, rfl, rfl, rfl⟩
  · exact writerKept_emit s b

theorem writerKept_xlSecond (b : Byte) (s : State) : WriterKept s (xlSecond b s) := by
  unfold xlSecond
  split_ifs
  · exact ⟨rfl, rfl, rfl, rfl⟩
  · exact writerKept_emit s b

theorem writerKept_changeLedState {s t : State} {m : Byte} (h : changeLedState m s = .next t) : WriterKept s t := by
  rw [changeLedState_writes h]
  exact ⟨rfl, rfl, rfl, rfl⟩

theorem writerKept_execInit {s t : State} (h : execInit s = .next t) : WriterKept s t := by
  unfold execInit at h
  split_ifs at h
  cases h
  exact ⟨rfl, rfl, rfl, rfl⟩

/-- A row that does not queue leaves the writer's side of the ring buffer alone. -/
theorem writerKept_exec {i : Instr} {s t : State} (hq : ¬queueing i) (h : exec i s = .next t) : WriterKept s t := by
  cases i with
  | dispatchQueue | byteBreak | byteExt | rxStop | ringWrite | byteScan => exact absurd hq (by simp [queueing])
  | rxStart d => exact writerKept_onEdge (f := rxStart d) h ⟨rfl, rfl, rfl, rfl⟩
  | rxParity d => exact writerKept_onEdge (f := rxParity d) h ⟨rfl, rfl, rfl, rfl⟩
  | rxData1 d | rxData2 d | rxData3 d | rxData4 d | rxData5 d | rxData6 d | rxData7 d | rxData8 d =>
    exact writerKept_onEdge (f := rxData _ d) h ⟨rfl, rfl, rfl, rfl⟩
  | txData0 | txData1 | txData2 | txData3 | txData4 | txData5 | txData6 | txData7 =>
    exact writerKept_onEdge (f := txData _) h ⟨rfl, rfl, rfl, rfl⟩
  | txParity => exact writerKept_onEdge (f := txParity) h ⟨rfl, rfl, rfl, rfl⟩
  | txStop => exact writerKept_onEdge (f := txStop) h ⟨rfl, rfl, rfl, rfl⟩
  | txDone => exact writerKept_onEdge (f := txDone) h (writerKept_txDone s)
  | dispatchResponse | seqResponse | byteAck | byteBat => exact writerKept_seqResponse h
  | seqDropReset0 | seqDropLed0 | seqDropLed1 | seqDropIdleAck | seqDropIdleBat | seqDropResend =>
    cases h; exact writerKept_drop s _
  | seqResetBat => cases h; exact writerKept_seqResetBat s
  | seqLedAck2 => cases h; exact writerKept_seqLedAck2 s
  | idleOpportunity => cases h; exact writerKept_idleOpportunity ⟨rfl, rfl, rfl, rfl⟩
  | seqStart op => cases h; cases op <;> exact ⟨rfl, rfl, rfl, rfl⟩
  | xlWait =>
    refine writerKept_onPhase (f := fun s => .next (if 0 < s.wake then xlWait s else s)) h fun h => ?_
    cases h
    split_ifs <;> exact ⟨rfl, rfl, rfl, rfl⟩
  | xlRead1 => exact writerKept_onPhase_read h writerKept_xlFirst
  | xlRead2 => exact writerKept_onPhase_read h writerKept_xlSecond
  | xlRead3 => exact writerKept_onPhase_read h fun b u => writerKept_emit u b
  | ringRead => exact writerKept_withRingByte h fun b u => ⟨rfl, rfl, rfl, rfl⟩
  | emit code => cases h; exact writerKept_emit s code
  | init => exact writerKept_execInit h
  | changeLed | ledMaskHid => exact writerKept_changeLedState h
  | dispatchResend | byteOutOfRange | seqResetAck | seqResetFatal | seqLedAck1 | txStart | releaseToReceive | cmdResend
  | cmdReset | cmdSetLed | ledMaskPs2 | hidLookup | isModifier | ledXlate | eventFlags | frameD2H | frameH2D =>
    cases h; exact ⟨rfl, rfl, rfl, rfl⟩

/-! ### Rows that queue -/

theorem writesAtCursor_of_memWrite {s t : State} {b : Byte} (hm : t.ringMem = memWrite s.ringMem s.ringWr b)
    (hd : t.draws = s.draws) (hw : t.ringWr = (s.ringWr + 1) % s.params.cap) : WritesAtCursor s t := by
  refine ⟨fun a ha => ?_, .inr hw⟩
  rw [State.ringByte, State.ringByte, hm, hd, memRead_memWrite_other _ _ ha]

theorem QueueMove.writesAtCursor {s t : State} (h : QueueMove s t) : WritesAtCursor s t := by
  obtain ⟨-, hd, ⟨hm, hw, -⟩ | ⟨b, -, hm, hw, -⟩ | ⟨b, -, hm, hw, -⟩⟩ := h
  · exact ⟨fun a _ => State.ringByte_congr hm hd a, .inl hw⟩
  · exact writesAtCursor_of_memWrite hm hd hw
  · exact ⟨fun a _ => State.ringByte_congr hm hd a, .inl hw⟩

theorem writesAtCursor_rxStop {s t : State} (h : rxStop s = .next t) : WritesAtCursor s t := by
  obtain ⟨u, hu, ht⟩ := rxStop_eq_next h
  have hw : WritesAtCursor s.inhibit u := (branch_queue (stopDispatch_branch hu)).writesAtCursor
  rcases ht with ⟨-, rfl⟩ | ⟨-, rfl⟩ <;> exact hw

theorem writesAtCursor_recordOverrun {s t : State} {f : State → Result} (h : recordOverrun f s = .next t)
    (hf : f s = .next t → WritesAtCursor s t) (ho : f s = .fault .ringOverrun → RingFull s) :
    Overran s t ∨ WritesAtCursor s t := by
  rcases recordOverrun_eq_next h with h | ⟨hr, rfl⟩
  · exact .inr (hf h)
  · exact .inl (afterOverrun_overran (ho hr))

theorem writesAtCursor_recordQueue {s t : State} {b : Byte} (h : recordOverrun (dispatchQueue b) s = .next t) :
    Overran s t ∨ WritesAtCursor s t :=
  writesAtCursor_recordOverrun h (fun h => (branch_queue (dispatchQueue_branch h)).writesAtCursor)
    dispatchQueue_eq_overrun

theorem writesAtCursor_exec {i : Instr} {s t : State} (hq : queueing i) (h : exec i s = .next t) :
    Overran s t ∨ WritesAtCursor s t := by
  rcases hq with rfl | rfl | rfl | ⟨d, rfl⟩ | ⟨b, rfl⟩ | ⟨b, rfl⟩
  · exact writesAtCursor_recordQueue h
  · exact writesAtCursor_recordQueue h
  · exact writesAtCursor_recordQueue h
  · rcases onEdge_eq_next h with ⟨-, h⟩ | ⟨-, rfl⟩
    · exact writesAtCursor_recordOverrun h writesAtCursor_rxStop fun hf => (rxStop_eq_overrun.1 hf).2
    · exact .inr ⟨fun _ _ => rfl, .inl rfl⟩
  · refine writesAtCursor_recordOverrun h (fun h => ?_) ringWrite_eq_overrun
    obtain ⟨-, rfl⟩ := ringWrite_eq_next h
    exact writesAtCursor_of_memWrite rfl rfl rfl
  · exact writesAtCursor_recordQueue h

/-- Settles O36: a row that does not queue keeps the writer's side; one that queues writes at the cursor or overruns. -/
theorem onlyQueueingWritesMemory : Obligations.OnlyQueueingWritesMemory := by
  intro i s t h
  refine ⟨fun hq => ?_, ?_⟩
  · have hk := writerKept_exec hq h
    have hb := hk.ringByte
    obtain ⟨-, hw, ho, -⟩ := hk
    exact ⟨hb, hw, ho⟩
  · by_cases hq : queueing i
    · exact writesAtCursor_exec hq h
    · exact .inr (writerKept_exec hq h).writesAtCursor

end Sys2Proof.Machine
end

section
/-! The decoder and the encoder agree (30_encoding.md R80 to R102). -/

namespace Sys2Proof

/-! ### Words whose high bits are clear -/

/-- A word is its low bits where the rest are clear. -/
theorem word_of_high_zero {w : BitVec 16} {n m : Nat} (hn : n + m = 16) (h : w.extractLsb' n m = 0) :
    (w.extractLsb' 0 n).setWidth 16 = w := by
  apply BitVec.eq_of_getLsbD_eq
  intro i hi
  rw [BitVec.getLsbD_setWidth, BitVec.getLsbD_extractLsb', Nat.zero_add]
  by_cases hin : i < n
  · simp [hi, hin]
  · have hbit : (w.extractLsb' n m).getLsbD (i - n) = false := by rw [h]; simp
    rw [BitVec.getLsbD_extractLsb', Nat.add_sub_cancel' (by omega)] at hbit
    simpa [hi, hin, show i - n < m by omega] using hbit

/-- A word is its high byte beside its low byte. -/
theorem word_of_bytes (w : BitVec 16) : w.extractLsb' 8 8 ++ w.extractLsb' 0 8 = w :=
  (BitVec.extractLsb'_append_extractLsb'_eq_extractLsb' rfl).trans BitVec.extractLsb'_eq_self

theorem frameD2HBits_word {w : BitVec 16} (h : w.extractLsb' 11 5 = 0) :
    (frameD2HBits (w.getLsbD 0) (w.extractLsb' 1 8) (w.getLsbD 9) (w.getLsbD 10)).setWidth 16 = w := by
  have hw := word_of_high_zero rfl h
  have hf := frameD2HBits_fields (w.extractLsb' 0 11)
  rw [← word11_field _ _ _ (by omega), hw] at hf
  simpa [hw] using congrArg (BitVec.setWidth 16) hf

theorem frameH2DBits_word {w : BitVec 16} (h : w.extractLsb' 11 5 = 0) :
    (frameH2DBits (w.extractLsb' 0 8) (w.getLsbD 8) (w.getLsbD 9) (w.getLsbD 10)).setWidth 16 = w := by
  have hw := word_of_high_zero rfl h
  have hf := frameH2DBits_fields (w.extractLsb' 0 11)
  rw [← word11_field _ _ _ (by omega), hw] at hf
  simpa [hw] using congrArg (BitVec.setWidth 16) hf

theorem threeBits_eq_setWidth (f : BitVec 3) : threeBits (f.getLsbD 2) (f.getLsbD 1) (f.getLsbD 0) = f.setWidth 16 := by
  revert f; decide

theorem threeBits_word {w : BitVec 16} (h : w.extractLsb' 3 13 = 0) :
    threeBits (w.getLsbD 2) (w.getLsbD 1) (w.getLsbD 0) = w := by
  have hw := word_of_high_zero rfl h
  have hf := threeBits_eq_setWidth (w.extractLsb' 0 3)
  simpa [hw] using hf

theorem threeBits_fields : ∀ x y z : Bool, (threeBits x y z).extractLsb' 3 13 = 0 ∧ (threeBits x y z).getLsbD 2 = x ∧
    (threeBits x y z).getLsbD 1 = y ∧ (threeBits x y z).getLsbD 0 = z := by decide

/-! ### From an instruction to its word and back -/

/-- The word of SEQ.DROP@RESEND is the selector (`Resend`, 0, b). -/
theorem resendWord_eq_responseWord (b : Byte) : (0x06 : Byte) ++ b = ((3#2 ++ 0#1 ++ b).setWidth 16) := by
  apply BitVec.eq_of_toNat_eq
  rw [responseWord_toNat, BitVec.toNat_append, ← Nat.shiftLeft_add_eq_or_of_lt b.isLt, Nat.shiftLeft_eq]
  rfl

theorem decode_encode_seqDropResend (mc b : Byte) : decode mc (encode (.seqDropResend b)) = .ok (.seqDropResend b) := by
  show decodeResponse ((0x06 : Byte) ++ b) = _
  rw [resendWord_eq_responseWord, decodeResponse_parts]
  rfl

theorem decode_frameD2HWord (mc : Byte) (f : BitVec 11) : decode mc ⟨.frameD2H, f.setWidth 16, .none⟩ =
    .ok (.frameD2H (f.getLsbD 0) (f.extractLsb' 1 8) (f.getLsbD 9) (f.getLsbD 10)) := by
  simp [decode, word11_high, word11_field]

theorem decode_frameH2DWord (mc : Byte) (f : BitVec 11) : decode mc ⟨.frameH2D, f.setWidth 16, .none⟩ =
    .ok (.frameH2D (f.extractLsb' 0 8) (f.getLsbD 8) (f.getLsbD 9) (f.getLsbD 10)) := by
  simp [decode, word11_high, word11_field]

theorem decode_encode_frameD2H (mc : Byte) (st : Bool) (b : Byte) (p sp : Bool) :
    decode mc (encode (.frameD2H st b p sp)) = .ok (.frameD2H st b p sp) := by
  rw [encode, decode_frameD2HWord, frameD2HBits_start, frameD2HBits_byte, frameD2HBits_parity, frameD2HBits_stop]

theorem decode_encode_frameH2D (mc b : Byte) (p r a : Bool) :
    decode mc (encode (.frameH2D b p r a)) = .ok (.frameH2D b p r a) := by
  rw [encode, decode_frameH2DWord, frameH2DBits_byte, frameH2DBits_parity, frameH2DBits_release, frameH2DBits_ack]

/-- The word of a byte of a class is decoded by its class. -/
theorem decode_byteClassWord (mc b : Byte) : decode mc ⟨.byteClass, b.setWidth 16, .none⟩ = decodeByteClass mc b := by
  simp only [decode, byteWord_high, byteWord_low, if_true]

theorem decodeByteClass_scan {mc b : Byte} (h : (Instr.byteScan b).wf mc = true) :
    decodeByteClass mc b = .ok (.byteScan b) := by
  simp only [Instr.wf, Bool.and_eq_true, Bool.not_eq_true', decide_eq_true_eq] at h
  rw [decodeByteClass, if_neg (by simp [h.1]), if_pos h.2]

theorem decodeByteClass_outOfRange {mc b : Byte} (h : (Instr.byteOutOfRange b).wf mc = true) :
    decodeByteClass mc b = .ok (.byteOutOfRange b) := by
  simp only [Instr.wf, Bool.and_eq_true, Bool.not_eq_true', decide_eq_true_eq] at h
  rw [decodeByteClass, if_neg (by simp [h.1]), if_neg (BitVec.not_le.2 h.2)]

/-- Settles O2: by cases on the instruction; a row with a fixed word evaluates, a row with fields reads them back. -/
theorem decodeEncodeAgree : Obligations.DecodeEncodeAgree := by
  intro mc i hwf
  cases i with
  | seqDropResend b => exact decode_encode_seqDropResend mc b
  | seqResponse b => exact if_pos hwf
  | frameD2H st b p sp => exact decode_encode_frameD2H mc st b p sp
  | frameH2D b p r a => exact decode_encode_frameH2D mc b p r a
  | byteScan b => exact (decode_byteClassWord mc b).trans (decodeByteClass_scan hwf)
  | byteOutOfRange b => exact (decode_byteClassWord mc b).trans (decodeByteClass_outOfRange hwf)
  | ledMaskHid m => simp [decode, encode, byteWord_high, byteWord_low]
  | ledMaskPs2 c n s =>
    obtain ⟨h, h2, h1, h0⟩ := threeBits_fields c n s
    simp only [decode, encode, h, h2, h1, h0, if_true]
  | eventFlags b m k =>
    obtain ⟨h, h2, h1, h0⟩ := threeBits_fields b m k
    have hkind : (m ^^ k) = true := hwf
    simp only [decode, encode, h, h2, h1, h0, hkind, if_true]
  | _ => rfl

/-! ### From a word to an instruction and back -/

/-- The word stands for the instruction: it is well formed, and its encoding. -/
def WordOf (mc : Byte) (w : TableWord) (i : Instr) : Prop := i.wf mc = true ∧ encode i = w

/-- One row of a table that is read from the top. -/
theorem ok_of_ite {c : Prop} [Decidable c] {j i : Instr} {r : Except DecodeError Instr}
    (h : (if c then .ok j else r) = .ok i) : (c ∧ j = i) ∨ r = .ok i := by
  by_cases hc : c
  · rw [if_pos hc] at h
    exact .inl ⟨hc, by injection h⟩
  · rw [if_neg hc] at h
    exact .inr h

/-- A check before a table. -/
theorem ok_of_guard {c : Prop} [Decidable c] {r : Except DecodeError Instr} {e : DecodeError} {i : Instr}
    (h : (if c then r else .error e) = .ok i) : c ∧ r = .ok i := by
  by_cases hc : c
  · rw [if_pos hc] at h
    exact ⟨hc, h⟩
  · rw [if_neg hc] at h
    cases h

theorem decodeEdge_wordOf {mc : Byte} {n : Nat} {d : Bool} {i : Instr} (h : decodeEdge n d = .ok i) :
    WordOf mc ⟨.edge, BitVec.ofNat 16 n, .level d⟩ i := by
  unfold decodeEdge at h
  split at h <;> cases h <;> exact ⟨rfl, rfl⟩

/-- `{rx_resend, is_response}` = 11 is the second word of DISPATCH.RESEND (R99). -/
theorem decodeDispatch_wordOf {mc : Byte} {n : Nat} {i : Instr} (h : decodeDispatch n = .ok i) :
    WordOf mc ⟨.dispatch, BitVec.ofNat 16 n, .none⟩ i ∨
      (i = .dispatchResend ∧ (⟨.dispatch, BitVec.ofNat 16 n, .none⟩ : TableWord) = ⟨.dispatch, 0b11, .none⟩) := by
  unfold decodeDispatch at h
  split at h <;> cases h
  · exact .inl ⟨rfl, rfl⟩
  · exact .inl ⟨rfl, rfl⟩
  · exact .inl ⟨rfl, rfl⟩
  · exact .inr ⟨rfl, rfl⟩

theorem decodeResponse_wordOf {mc : Byte} {w : BitVec 16} {i : Instr} (h : decodeResponse w = .ok i) :
    WordOf mc ⟨.response, w, .none⟩ i := by
  unfold decodeResponse at h
  iterate 10
    obtain ⟨rfl, rfl⟩ | h := ok_of_ite h
    · exact ⟨rfl, rfl⟩
  obtain ⟨hresend, rfl⟩ | h := ok_of_ite h
  · exact ⟨rfl, by rw [encode, ← hresend, word_of_bytes]⟩
  · cases h

theorem decodeTranslator_wordOf {mc : Byte} {n : Nat} {i : Instr} (h : decodeTranslator n = .ok i) :
    WordOf mc ⟨.translator, BitVec.ofNat 16 n, .none⟩ i := by
  unfold decodeTranslator at h
  split at h <;> cases h <;> exact ⟨rfl, rfl⟩

theorem decodeProc_wordOf {mc : Byte} {p : Proc} {o : Operand} {i : Instr} (h : decodeProc p o = .ok i) :
    WordOf mc ⟨.proc p, 0, o⟩ i := by
  unfold decodeProc at h
  split at h
  case h_7 =>
    split_ifs at h with hb
    cases h
    exact ⟨hb, rfl⟩
  case h_14 => cases h
  all_goals cases h; exact ⟨rfl, rfl⟩

theorem decodeByteValue_wordOf {mc : Byte} {w : BitVec 16} {i : Instr} (h : decodeByteValue w = .ok i) :
    WordOf mc ⟨.byteValue, w, .none⟩ i := by
  unfold decodeByteValue at h
  iterate 7
    obtain ⟨rfl, rfl⟩ | h := ok_of_ite h
    · exact ⟨rfl, rfl⟩
  cases h

theorem decodeByteClass_wordOf {mc b : Byte} {i : Instr} (h : decodeByteClass mc b = .ok i) :
    WordOf mc ⟨.byteClass, b.setWidth 16, .none⟩ i := by
  unfold decodeByteClass at h
  split_ifs at h with hx hr <;> cases h
  · exact ⟨by simp [Instr.wf, hx, hr], rfl⟩
  · exact ⟨by simp [Instr.wf, hx, BitVec.not_le.1 hr], rfl⟩

/-- A word that decodes stands for its instruction: its fields make it again, the bits above them being clear. -/
theorem decode_wordOf {mc : Byte} {w : TableWord} {i : Instr} (h : decode mc w = .ok i) :
    WordOf mc w i ∨ (i = .dispatchResend ∧ w = ⟨.dispatch, 0b11, .none⟩) := by
  obtain ⟨sp, w, o⟩ := w
  have hw : BitVec.ofNat 16 w.toNat = w := by simp
  unfold decode at h
  split at h
  case h_13 => cases h
  case h_5 hsp =>
    cases hsp
    obtain ⟨rfl, h⟩ := ok_of_guard h
    exact .inl (decodeProc_wordOf h)
  all_goals rename_i hsp ho; cases hsp; cases ho
  case h_1 => exact .inl (hw ▸ decodeEdge_wordOf h)
  case h_2 => exact hw ▸ decodeDispatch_wordOf h
  case h_3 => exact .inl (decodeResponse_wordOf h)
  case h_4 => exact .inl (hw ▸ decodeTranslator_wordOf h)
  case h_8 => exact .inl (decodeByteValue_wordOf h)
  all_goals obtain ⟨h0, h⟩ := ok_of_guard h
  case h_9 =>
    have hb := decodeByteClass_wordOf h
    rw [word_of_high_zero rfl h0] at hb
    exact .inl hb
  case h_12 =>
    obtain ⟨hkind, h⟩ := ok_of_guard h
    cases h
    exact .inl ⟨hkind, by rw [encode, threeBits_word h0]⟩
  all_goals cases h; refine .inl ⟨rfl, ?_⟩
  case h_6 => rw [encode, frameD2HBits_word h0]
  case h_7 => rw [encode, frameH2DBits_word h0]
  case h_10 => rw [encode, word_of_high_zero rfl h0]
  case h_11 => rw [encode, threeBits_word h0]

/-- Settles O3: by the table that the word's format reads. -/
theorem decodedWordIsItsEncoding : Obligations.DecodedWordIsItsEncoding := by
  intro mc w i h
  obtain ⟨hwf, he⟩ | ⟨rfl, rfl⟩ := decode_wordOf h
  · exact ⟨hwf, .inl he⟩
  · exact ⟨rfl, .inr ⟨rfl, rfl⟩⟩

end Sys2Proof
end

section
/-! Sample words, and the row that each event and each taken edge runs (30_encoding.md R98, R101, R103). -/

namespace Sys2Proof.Machine

/-- Settles O1: each word evaluates in its table, the two of byte class given the side of `MAX_CODE` they lie on. -/
theorem sampleWordsDecode : Obligations.SampleWordsDecode := by
  intro mc
  refine ⟨rfl, rfl, rfl, rfl, rfl, rfl, rfl, rfl, rfl, fun h => ?_, fun h => ?_, rfl, rfl, rfl⟩
  · exact if_pos h
  · exact if_neg (BitVec.not_le.2 h)

/-- Settles O4: `step` on an offered word. -/
theorem stepRunsDecodedInstruction : Obligations.StepRunsDecodedInstruction := fun _ _ _ _ ho hd => step_run ho hd

/-! ### Events -/

theorem decodeTranslator_xlRow {ph : TPhase} {i : Instr} (h : xlRow ph = some i) :
    decodeTranslator ph.code.toNat = .ok i := by
  cases ph <;> cases h <;> rfl

theorem xlRow_ne_idle {ph : TPhase} {i : Instr} (h : xlRow ph = some i) : ph ≠ .idle := by
  rintro rfl
  cases h

theorem step_xl_row {s : State} {rest : List Event} {i : Instr} (h : s.stimulus = .xl :: rest)
    (hr : s.taskRuns = true) (hi : xlRow s.tPhase = some i) : step s = exec i { s with stimulus := rest } := by
  have hen : (({ s with stimulus := rest } : State).taskRuns && ({ s with stimulus := rest } : State).tPhase != .idle) =
      true := by
    rw [Bool.and_eq_true, bne_iff_ne]
    exact ⟨hr, xlRow_ne_idle hi⟩
  refine step_run (w := s.xlWord) ?_ ((decode_xlWord _ s).trans (decodeTranslator_xlRow hi))
  rw [offer_cons h]
  exact if_pos hen

theorem step_xl_none {s : State} {rest : List Event} (h : s.stimulus = .xl :: rest)
    (hn : s.taskRuns = false ∨ s.tPhase = .idle) : step s = .next { s with stimulus := rest } := by
  rcases hn with hr | hp
  · exact step_xl_lost h (.inl rfl) hr
  · refine step_settle ?_
    rw [offer_cons h]
    exact if_neg (by simp [hp])

/-- `XL*` stays at the head while a step is enabled. -/
theorem step_xlAll_row {s : State} {rest : List Event} {i : Instr} (h : s.stimulus = .xlAll :: rest)
    (he : s.xlEnabled = true) (hi : xlRow s.tPhase = some i) : step s = exec i s := by
  refine step_run (w := s.xlWord) ?_ ((decode_xlWord _ s).trans (decodeTranslator_xlRow hi))
  have hs : ({ s with stimulus := .xlAll :: rest } : State) = s := by rw [← h]
  rw [offer_cons h]
  refine (if_pos he).trans ?_
  rw [hs]; rfl

theorem step_xlAll_none {s : State} {rest : List Event} (h : s.stimulus = .xlAll :: rest) (he : s.xlEnabled = false) :
    step s = .next { s with stimulus := rest } := by
  refine step_settle ?_
  rw [offer_cons h]
  exact if_neg (ne_true_of_eq_false he)

theorem step_frame_row {s : State} {f : BitVec 11} {rest : List Event} (h : s.stimulus = .frame f :: rest) :
    step s = exec (.frameD2H (f.getLsbD 0) (f.extractLsb' 1 8) (f.getLsbD 9) (f.getLsbD 10))
      { s with stimulus := rest } :=
  step_run (offer_cons h) (decode_frameD2HWord _ f)

/-- Settles O5: one lemma per event that has more than one outcome; the rest run the word they offer. -/
theorem eventsRunTheirRows : Obligations.EventsRunTheirRows := by
  refine ⟨fun s h => step_settle (offer_nil h), fun s e rest h => ⟨?_, ?_, ?_, ?_, ?_, ?_, ?_, ?_, ?_, ?_⟩⟩
  · rintro rfl; exact step_init h
  · rintro m rfl; exact step_led h
  · rintro d rfl ht; exact step_edge_lost h ht
  · rintro i rfl hr hi; exact step_xl_row h hr hi
  · rintro rfl hn; exact step_xl_none h hn
  · rintro i rfl he hi; exact step_xlAll_row h he hi
  · rintro rfl he; exact step_xlAll_none h he
  · rintro f rfl; exact step_frame_row h
  · rintro rfl; exact step_run (offer_cons h) rfl
  · rintro w i rfl hd; exact step_run (offer_cons h) hd

/-! ### The taken edge -/

theorem edgeSelector_toNat (s : State) : s.edgeSelector.toNat = s.mode.code.toNat * 16 + s.cnt.toNat := by
  rw [State.edgeSelector, BitVec.toNat_append, ← Nat.shiftLeft_add_eq_or_of_lt s.cnt.isLt, Nat.shiftLeft_eq]

/-- The 22 rows of R98. -/
theorem decodeEdge_edgeRow (m : Mode) (d : Bool) {k : Nat} (hk : k ≤ 10) :
    decodeEdge (m.code.toNat * 16 + k) d = .ok (edgeRow m k d) := by
  cases m <;> interval_cases k <;> rfl

/-- The counters 11 to 15 select no row. -/
theorem decodeEdge_reserved (m : Mode) (d : Bool) {k : Nat} (hk : 11 ≤ k) (hk' : k < 16) :
    decodeEdge (m.code.toNat * 16 + k) d = .error .reservedSelector := by
  cases m <;> interval_cases k <;> rfl

theorem step_edge_reserved {s : State} {d : Bool} {rest : List Event} {e : DecodeError}
    (h : s.stimulus = .edge d :: rest) (ht : s.edgeTaken = true) (hd : decodeEdge s.edgeSelector.toNat d = .error e) :
    step s = .refused (.badWord e) := by
  have ho : s.offer = .run (s.edgeWord d) { s with stimulus := rest } := by
    rw [offer_cons h]
    exact if_pos ht
  rw [step, ho]
  simp only [decode_edgeWord, hd]

/-- Settles O6: the selector is 16 * mode + counter, and R98 lists it for the counters 0 to 10 only. -/
theorem takenEdgeRunsSelectedRow : Obligations.TakenEdgeRunsSelectedRow := by
  intro s d rest h ht
  refine ⟨fun hk => step_edge_taken h ht ?_, fun hk => step_edge_reserved h ht ?_⟩
  · rw [edgeSelector_toNat, decodeEdge_edgeRow _ _ hk]
  · rw [edgeSelector_toNat, decodeEdge_reserved _ _ hk s.cnt.isLt]

end Sys2Proof.Machine
end

section
/-! Responses, data rows and frame rows (30_encoding.md R80 to R89, R100; 40_rx_decoder.md R116). -/

namespace Sys2Proof.Machine

/-! ### Responses -/

/-- The two rows that a sequence and step with a row for each response byte have in R100. -/
def ackBatRow (b : Byte) (ack bat : Instr) : Except DecodeError Instr :=
  if b = Config.byteAck then .ok ack else if b = Config.byteBat then .ok bat else .error .reservedSelector

/-- The table of R100 by sequence and step. -/
def responseRow (op : SeqOp) (st : Bool) (b : Byte) : Except DecodeError Instr :=
  match op, st with
  | .none, false => ackBatRow b .seqDropIdleAck .seqDropIdleBat
  | .ledChange, false => ackBatRow b .seqLedAck1 .seqDropLed0
  | .ledChange, true => ackBatRow b .seqLedAck2 .seqDropLed1
  | .reset, false => ackBatRow b .seqResetAck .seqDropReset0
  | .reset, true => ackBatRow b .seqResetFatal .seqResetBat
  | .resend, false => .ok (.seqDropResend b)
  | .none, true | .resend, true => .error .reservedSelector

theorem responseByte_cases (b : Byte) : b = 0xFA#8 ∨ b = 0xAA#8 ∨ (b ≠ 0xFA#8 ∧ b ≠ 0xAA#8) := by
  rw [← not_or, ← or_assoc]
  exact em _

/-- The selector `{seq_op, seq_step, b}` decodes by the table. -/
theorem decodeResponse_selector (op : SeqOp) (st : Bool) (b : Byte) :
    decodeResponse ((op.code ++ BitVec.ofBool st ++ b).setWidth 16) = responseRow op st b := by
  rcases responseByte_cases b with rfl | rfl | ⟨hack, hbat⟩
  · cases op <;> cases st <;> rfl
  · cases op <;> cases st <;> rfl
  · rw [decodeResponse_parts]
    cases op <;> cases st <;>
      simp [SeqOp.code, responseRow, ackBatRow, Config.byteAck, Config.byteBat, hack, hbat]

/-- `SeqResponse` runs the row of the table, and is refused where there is none. -/
theorem seqResponse_responseRow (s : State) (b : Byte) : seqResponse b s =
    match responseRow s.seqOp s.seqStep b with
    | .ok i => exec i s
    | .error _ => .refused (.noTransition s.seqOp s.seqStep b) := by
  unfold seqResponse
  rcases responseByte_cases b with rfl | rfl | ⟨hack, hbat⟩
  · cases s.seqOp <;> cases s.seqStep <;> rfl
  · cases s.seqOp <;> cases s.seqStep <;> rfl
  · cases s.seqOp <;> cases s.seqStep <;>
      simp [responseRow, ackBatRow, Config.byteAck, Config.byteBat, hack, hbat, exec, execSeqDropResend]

/-- Settles O19: the selector decodes by the table of R100, and `seqResponse` runs the row found there. -/
theorem responseRunsSelectedTransition : Obligations.ResponseRunsSelectedTransition := by
  intro s b
  refine ⟨by rintro rfl; rfl, ?_⟩
  have hx : exec (.seqResponse b) s = seqResponse b s := rfl
  have hd : decode s.params.maxCode ⟨.response, (s.responseSelector b).setWidth 16, .none⟩ =
      responseRow s.seqOp s.seqStep b := decodeResponse_selector s.seqOp s.seqStep b
  rw [hd, hx, seqResponse_responseRow]
  cases responseRow s.seqOp s.seqStep b <;> rfl

/-! ### Frames -/

/-- The levels of a device-to-host frame: start, data, parity, stop (R80). -/
theorem frameLevels_d2h (st : Bool) (b : Byte) (p sp : Bool) :
    frameLevels (frameD2HBits st b p sp) = st :: (List.range 8).map b.getLsbD ++ [p, sp] := by
  have hdata : (List.range 8).map (fun k => (frameD2HBits st b p sp).getLsbD (k + 1)) = (List.range 8).map b.getLsbD :=
    List.map_congr_left fun k hk => frameD2HBits_data st b p sp (List.mem_range.1 hk)
  calc frameLevels (frameD2HBits st b p sp)
      = (frameD2HBits st b p sp).getLsbD 0 ::
          (List.range 8).map (fun k => (frameD2HBits st b p sp).getLsbD (k + 1)) ++
          [(frameD2HBits st b p sp).getLsbD 9, (frameD2HBits st b p sp).getLsbD 10] := rfl
    _ = _ := by rw [hdata, frameD2HBits_start, frameD2HBits_parity, frameD2HBits_stop]

theorem frameLevels_h2d (b : Byte) (p r a : Bool) :
    frameLevels (frameH2DBits b p r a) = (List.range 8).map b.getLsbD ++ [p, r, a] := by
  have hdata : (List.range 8).map (frameH2DBits b p r a).getLsbD = (List.range 8).map b.getLsbD :=
    List.map_congr_left fun k hk => frameH2DBits_data b p r a (List.mem_range.1 hk)
  calc frameLevels (frameH2DBits b p r a)
      = (List.range 8).map (frameH2DBits b p r a).getLsbD ++
          [(frameH2DBits b p r a).getLsbD 8, (frameH2DBits b p r a).getLsbD 9, (frameH2DBits b p r a).getLsbD 10] := rfl
    _ = _ := by rw [hdata, frameH2DBits_parity, frameH2DBits_release, frameH2DBits_ack]

/-- Settles O46: the levels of each frame, one edge each. -/
theorem frameRowsAreElevenEdges : Obligations.FrameRowsAreElevenEdges := by
  intro s b x y z
  constructor
  · show execFrameD2H x b y z s = _
    rw [execFrameD2H, frameEdges, frameLevels_d2h]; rfl
  · show execFrameH2D b x y z s = _
    rw [execFrameH2D, frameEdges, frameLevels_h2d]; rfl

/-! ### Data -/

/-- The PS/2-order mask is `00000cns` (R89). -/
theorem ledMaskBits_bits : ∀ c n sc : Bool,
    (ledMaskBits c n sc).getLsbD 2 = c ∧ (ledMaskBits c n sc).getLsbD 1 = n ∧ (ledMaskBits c n sc).getLsbD 0 = sc ∧
      (ledMaskBits c n sc).toNat < 8 := by decide

theorem changeLedState_latches {s : State} (m : Byte) (hi : s.inited = true) (hf : s.fatal = false) :
    changeLedState m s = .next { s with ledReq := m, ledPending := true } := by
  rw [changeLedState, if_neg (by simp [hi]), if_neg (by simp [hf])]

theorem recordOverrun_queued {s : State} (b : Byte) (h : RingRoom s) :
    recordOverrun (dispatchQueue b) s = .next (queued s b) := recordOverrun_next (dispatchQueue_eq b h)

/-- Settles O45: each row is the operation that meets its datum, in flat form. -/
theorem dataRowResults : Obligations.DataRowResults := by
  intro s
  exact ⟨rfl, rfl, fun hr => ⟨recordOverrun_queued _ hr, recordOverrun_queued _ hr, fun b => recordOverrun_queued b hr⟩,
    fun b => rfl, rfl, rfl, rfl, fun m => ⟨rfl, fun hi hf => changeLedState_latches m hi hf⟩,
    fun c n sc => ⟨ledMaskBits c n sc, rfl, ledMaskBits_bits c n sc⟩⟩

end Sys2Proof.Machine
end

section
/-! A frame up to its stop slot (30_encoding.md R82, R83; 40_rx_decoder.md R111 to R113). -/

namespace Sys2Proof.Machine

/-- The k low bits of a byte: what the accumulator holds after k data slots. -/
def lowBits (b : Byte) (k : Nat) : Byte := (b.setWidth k).setWidth 8

theorem getLsbD_lowBits (b : Byte) (k i : Nat) :
    (lowBits b k).getLsbD i = (decide (i < 8) && (decide (i < k) && b.getLsbD i)) := by
  rw [lowBits, BitVec.getLsbD_setWidth, BitVec.getLsbD_setWidth]

theorem lowBits_zero (b : Byte) : lowBits b 0 = 0 := by
  apply BitVec.eq_of_getLsbD_eq
  intro i _
  simp [getLsbD_lowBits]

theorem lowBits_eight (b : Byte) : lowBits b 8 = b := by
  rw [lowBits, BitVec.setWidth_eq, BitVec.setWidth_eq]

theorem lowBits_lt {b : Byte} {k : Nat} : (lowBits b k).toNat < 2 ^ k := by
  rw [lowBits, BitVec.toNat_setWidth]
  exact (Nat.mod_le _ _).trans_lt (b.setWidth k).isLt

/-- The data slot k + 1 puts bit k where the accumulator has none. -/
theorem lowBits_succ (b : Byte) (k : Nat) :
    lowBits b k ||| (Byte.ofLevel (b.getLsbD k) <<< k) = lowBits b (k + 1) := by
  apply BitVec.eq_of_getLsbD_eq
  intro i hi
  rw [BitVec.getLsbD_or, getLsbD_lowBits, getLsbD_lowBits, getLsbD_ofLevel_shiftLeft]
  obtain h | rfl | h := Nat.lt_trichotomy i k
  · simp [h, h.ne, Nat.lt_succ_of_lt h]
  · simp
  · simp [h.ne', Nat.not_lt_of_lt h, Nat.not_lt.2 h]

/-- The receive registers after the start slot and k data slots of the byte b. -/
def rxSlots (s : State) (b : Byte) (k : Nat) : State :=
  { s with rxAcc := lowBits b k, rxPar := oddParity (lowBits b k), rxCnt := BitVec.ofNat 4 (k + 1) }

theorem rxData_rxSlots (s : State) (b : Byte) {k : Nat} (hk : k < 8) :
    rxData (k + 1) (b.getLsbD k) (rxSlots s b k) = rxSlots s b (k + 1) := by
  simp only [rxData, rxSlots, Nat.add_sub_cancel, ← lowBits_succ, oddParity_or_level _ hk lowBits_lt]

theorem step_rxSlots {s : State} {b : Byte} {k : Nat} {rest : List Event} (hk : k < 8) (ht : s.edgeTaken = true)
    (hm : s.mode = .receiving) (hst : s.stimulus = .edge (b.getLsbD k) :: rest) :
    step (rxSlots s b k) = .next (rxSlots { s with stimulus := rest } b (k + 1)) := by
  rw [step_rxData (s := rxSlots s b k) hst ht hm (Nat.le_add_left 1 k) hk rfl, ← rxData_rxSlots _ b hk]
  rfl

/-- The edges of the data slots k + 1 to k + n of the byte b. -/
def dataEdges (b : Byte) (k n : Nat) : List Event := (List.range' k n).map fun i => .edge (b.getLsbD i)

theorem runSteps_dataEdges {s : State} {b : Byte} {k n : Nat} {rest : List Event} (hn : k + n ≤ 8)
    (ht : s.edgeTaken = true) (hm : s.mode = .receiving) (hst : s.stimulus = dataEdges b k n ++ rest) :
    runSteps n (rxSlots s b k) = .next (rxSlots { s with stimulus := rest } b (k + n)) := by
  induction n generalizing s k with
  | zero =>
    obtain rfl : s.stimulus = rest := hst
    rfl
  | succ n ih =>
    rw [runSteps_next n (step_rxSlots (by omega) ht hm hst), show k + (n + 1) = k + 1 + n by omega]
    exact ih (s := { s with stimulus := dataEdges b (k + 1) n ++ rest }) (by omega) ht hm rfl

theorem frameEdges_d2h (st : Bool) (b : Byte) (p sp : Bool) :
    frameEdges (frameD2HBits st b p sp) = .edge st :: (dataEdges b 0 8 ++ [.edge p, .edge sp]) := by
  rw [frameEdges, frameLevels_d2h]
  rfl

/-- The block before the stop slot of a frame with start `st`, data `b` and parity `p`. -/
def beforeStop (s : State) (st : Bool) (b : Byte) (p : Bool) : State :=
  { s with
    rxCnt := 10, rxAcc := b, rxPar := oddParity b
    rxResend := st || p != oddParity b || outOfRange s.params b
    rxCauses := ⟨st, p != oddParity b, outOfRange s.params b⟩ }

/-- The block after the start slot of a frame, `es` to come. -/
def afterStart (s : State) (st : Bool) (es : List Event) : State :=
  { s with stimulus := es, rxResend := st, rxCauses := ⟨st, false, false⟩ }

theorem step_startSlot {s : State} {st : Bool} {es : List Event} (b : Byte) (h : RxReady s)
    (hst : s.stimulus = .edge st :: es) : step s = .next (rxSlots (afterStart s st es) b 0) := by
  obtain ⟨ht, hm, hcnt, hacc, hpar, hres, hcau⟩ := h
  rw [step_rxStart hst ht hm hcnt]
  simp [rxStart, rxSlots, afterStart, lowBits_zero, oddParity_zero, hacc, hpar, hres, hcau, Causes.none]

theorem rxParity_rxSlots (s : State) (st p : Bool) (b : Byte) (es : List Event) :
    rxParity p (rxSlots (afterStart s st es) b 8) = beforeStop { s with stimulus := es } st b p := by
  simp [rxParity, rxSlots, afterStart, beforeStop, lowBits_eight]

/-- Ten edges from a clean start: the start slot, eight data slots, the parity slot. -/
theorem runSteps_frameEdges {s : State} {st p sp : Bool} {b : Byte} {rest : List Event} (h : RxReady s)
    (hst : s.stimulus = frameEdges (frameD2HBits st b p sp) ++ rest) :
    runSteps 10 s = .next (beforeStop { s with stimulus := .edge sp :: rest } st b p) := by
  have ⟨ht, hm, _⟩ := h
  rw [frameEdges_d2h, List.cons_append, List.append_assoc] at hst
  have hdata := runSteps_dataEdges (s := afterStart s st (dataEdges b 0 8 ++ ([.edge p, .edge sp] ++ rest))) (n := 8)
    le_rfl ht hm rfl
  have hpar := step_rxParity (s := rxSlots (afterStart s st ([.edge p, .edge sp] ++ rest)) b 8) rfl ht hm rfl
  calc runSteps 10 s
      = runSteps (8 + 1) (rxSlots (afterStart s st (dataEdges b 0 8 ++ ([.edge p, .edge sp] ++ rest))) b 0) :=
        runSteps_next 9 (step_startSlot b h hst)
    _ = runSteps 1 (rxSlots (afterStart s st ([.edge p, .edge sp] ++ rest)) b 8) := by
        rw [runSteps_add, hdata]
        rfl
    _ = .next (rxParity p (rxSlots (afterStart s st (.edge sp :: rest)) b 8)) := runSteps_next 0 hpar
    _ = _ := by rw [rxParity_rxSlots]

theorem not_rangeError_iff {p : Params} {b : Byte} :
    ¬RangeError p b ↔ b ≤ p.maxCode ∨ b = 0xFA ∨ b = 0xAA ∨ b = 0xF0 ∨ b = 0xE0 := by
  unfold RangeError
  rw [← BitVec.not_lt]
  tauto

/-- Settles O47: the registers before the stop slot, for the frame's own fields. -/
theorem frameIsAcceptedExactlyWhenWellFormed : Obligations.FrameIsAcceptedExactlyWhenWellFormed := by
  intro s f rest h hst
  have ⟨_, hm, _⟩ := h
  rw [← frameD2HBits_fields f] at hst
  refine ⟨_, runSteps_frameEdges h hst, rfl, hm, fun k hk => ?_, ?_⟩
  · simp [beforeStop, hk, Nat.add_comm]
  · rw [← not_rangeError_iff, ← outOfRange_iff]
    simp [beforeStop, and_assoc]

end Sys2Proof.Machine
end

section
/-! What a step puts out, and where key events come from (30_encoding.md R92, R93; 44_translator.md R195). -/

namespace Sys2Proof.Machine

/-- At most one thing is put out, and it satisfies P if it is a key event. -/
def PutsOut (P : Byte → Byte → Prop) (s t : State) : Prop :=
  t.outputs = s.outputs ∨ ∃ o, t.outputs = s.outputs ++ [o] ∧ ∀ f h, o = .keyEvent f h → P f h

theorem PutsOut.mono {P Q : Byte → Byte → Prop} {s t : State} (h : PutsOut P s t) (hPQ : ∀ f h, P f h → Q f h) :
    PutsOut Q s t :=
  h.imp_right fun ⟨o, ho, hP⟩ => ⟨o, ho, fun f h he => hPQ f h (hP f h he)⟩

variable {P : Byte → Byte → Prop}

theorem putsOut_raised {s t : State} {e : Exc} (h : t.outputs = s.outputs ++ [.raised e]) : PutsOut P s t :=
  .inr ⟨_, h, nofun⟩

/-- No branch of the stop slot puts out a key event. -/
theorem branch_putsOut {s t : State} (h : Branch s t) : PutsOut P s t := by
  cases h with
  | resend c => exact putsOut_raised rfl
  | fatal b => exact putsOut_raised rfl
  | drop b =>
    obtain ⟨-, -, -, -, -, -, -, ho, -⟩ := dropped_keeps s b
    exact putsOut_raised ho
  | resetAck => exact .inl rfl
  | ledAck1 => exact .inl rfl
  | resetBat =>
    obtain ⟨-, -, -, -, -, -, -, ho, -⟩ := idles_keeps { s with
      statusLed := .off, outputs := s.outputs ++ [.statusLed .off], seqOp := .none, seqStep := false }
    exact .inr ⟨_, ho, nofun⟩
  | ledAck2 =>
    obtain ⟨-, -, -, -, -, -, -, ho, -⟩ := idles_keeps { s with seqOp := .none, seqStep := false }
    exact .inl ho
  | queue b hr =>
    obtain ⟨-, -, -, -, -, -, -, ho, -⟩ := idles_keeps { s with
      ringMem := memWrite s.ringMem s.ringWr b
      ringWr := (s.ringWr + 1) % s.params.cap
      wake := if b = 0xF0 ∨ b = 0xE0 then s.wake else s.wake + 1 }
    exact .inl ho

theorem stop_putsOut {s u : State} (h : Branch { s with irqEn := false, clkDrv := .low } u) :
    PutsOut P s (if u.fatal = true then u else rxCleared u) := by
  have hu : PutsOut P s u := branch_putsOut (s := { s with irqEn := false, clkDrv := .low }) h
  split_ifs <;> exact hu

theorem txDone_putsOut (s : State) : PutsOut P s (txDone s) := by
  unfold txDone State.returnFromException
  split_ifs <;> exact .inl rfl

/-- A key event with a non-zero code and one of the four flag bytes. -/
def KeyWf (f h : Byte) : Prop := h ≠ 0 ∧ (f = 0x01 ∨ f = 0x05 ∨ f = 0x02 ∨ f = 0x06)

theorem keyOutput_wf {p : Params} {c : Byte} {ext brk : Bool} {f h : Byte} (he : keyOutput p c ext brk = .keyEvent f h) :
    KeyWf f h := by
  unfold keyOutput at he
  split_ifs at he with h0 <;> cases he <;> exact ⟨h0, by decide⟩

theorem emitted_putsOut (s : State) (c : Byte) : PutsOut KeyWf s (emitted s c) := .inr ⟨_, rfl, fun _ _ => keyOutput_wf⟩

/-- Whatever row runs, a key event is well formed. -/
theorem effect_putsOut {s t : State} (h : Effect s t) : PutsOut KeyWf s t := by
  cases h with
  | branch h => exact branch_putsOut h
  | stop _ h => exact stop_putsOut h
  | txDone _ => exact txDone_putsOut s
  | idle =>
    obtain ⟨-, -, -, -, -, -, -, ho, -⟩ := idles_keeps s
    exact .inl ho
  | readEmit b _ _ => exact emitted_putsOut { s with ringRd := (s.ringRd + 1) % s.params.cap } b
  | emit c => exact emitted_putsOut s c
  | overrun _ => exact putsOut_raised rfl
  | _ => exact .inl rfl

/-- The task stands at one of its read steps. -/
def AtRead (s : State) : Prop := s.tPhase = .readFirst ∨ s.tPhase = .readAfterExt ∨ s.tPhase = .readAfterBreak

theorem readEmitted_putsOut {s : State} (b : Byte) (hp : AtRead s) :
    PutsOut (fun f h => KeyWf f h ∧ AtRead s ∧
      (emitted { s with ringRd := (s.ringRd + 1) % s.params.cap } b).tPhase = .waitEvent) s
      (emitted { s with ringRd := (s.ringRd + 1) % s.params.cap } b) :=
  (emitted_putsOut { s with ringRd := (s.ringRd + 1) % s.params.cap } b).mono fun _ _ hk => ⟨hk, hp, rfl⟩

/-- A translator step puts out a key event at a read step only, and then waits. -/
theorem xlEffect_putsOut {s t : State} (h : XlEffect s t) :
    PutsOut (fun f h => KeyWf f h ∧ AtRead s ∧ t.tPhase = .waitEvent) s t := by
  cases h with
  | wait _ _ => exact .inl rfl
  | first b hp _ =>
    rw [xlFirst_eq]
    split_ifs
    · exact .inl rfl
    · exact .inl rfl
    · exact readEmitted_putsOut b (.inl hp)
  | second b hp _ =>
    rw [xlSecond_eq]
    split_ifs
    · exact .inl rfl
    · exact readEmitted_putsOut b (.inr (.inl hp))
  | third b hp _ => exact readEmitted_putsOut b (.inr (.inr hp))

/-- On the event e the step from s to t is one of the task's read steps, which it ends. -/
def FromTask (e : Event) (s t : State) : Prop :=
  (e = .xl ∨ e = .xlAll) ∧ s.taskRuns = true ∧ AtRead s ∧ t.tPhase = .waitEvent

/-- Of the events of the spec none but the task's own puts out a key event. -/
theorem specEffect_putsOut {s t : State} {e : Event} {rest : List Event} (h : SpecEffect s e rest t) :
    PutsOut (fun f h => KeyWf f h ∧ FromTask e s t) s t := by
  cases h with
  | xl es he _ hr hx =>
    exact (xlEffect_putsOut hx).mono fun _ _ ⟨hk, hp, hw⟩ => ⟨hk, he, hr, hp, hw⟩
  | rxStop d _ _ _ _ hv => exact stop_putsOut (s := { s with stimulus := rest }) (stopDispatch_branch hv)
  | txDone d _ _ _ _ => exact txDone_putsOut { s with stimulus := rest }
  | overrun d _ _ _ _ _ _ => exact putsOut_raised rfl
  | _ => exact .inl rfl

/-- A row presented by `direct`, or any other, puts out at most one thing. -/
theorem step_putsOut {s t : State} (h : step s = .next t) : PutsOut KeyWf s t := by
  rcases step_effect h with ⟨-, rfl⟩ | ⟨rest, -, rfl⟩ | ⟨e, rest, es, -, -, -, hx⟩
  · exact .inl rfl
  · exact .inl rfl
  · exact effect_putsOut (s := { s with stimulus := es }) hx

/-- Without `direct` it is the task that a key event comes from. -/
theorem step_putsOut_fromTask {s t : State} (h : step s = .next t)
    (hd : ∀ w rest, s.stimulus ≠ .direct w :: rest) :
    PutsOut (fun f h => KeyWf f h ∧ ∃ e rest, s.stimulus = e :: rest ∧ FromTask e s t) s t := by
  cases hst : s.stimulus with
  | nil =>
    rw [step_settle (offer_nil hst)] at h
    cases h
    exact .inl rfl
  | cons e rest =>
    have he : e.isSpec = true := by
      cases e with
      | direct w => exact absurd hst (hd w rest)
      | _ => rfl
    exact (specEffect_putsOut (step_spec hst he h)).mono fun _ _ ⟨hk, hf⟩ => ⟨hk, e, rest, rfl, hf⟩

/-- Settles O56: by whether the event is `direct`. -/
theorem keyEventsAreWellFormed : Obligations.KeyEventsAreWellFormed := by
  intro s t h
  by_cases hd : ∀ w rest, s.stimulus ≠ .direct w :: rest
  · refine (step_putsOut_fromTask h hd).mono ?_
    rintro f h ⟨⟨h0, hf⟩, e, rest, hst, he, hr, hp, hw⟩
    exact ⟨h0, hf, fun _ => ⟨⟨rest, by rcases he with rfl | rfl <;> simp [hst]⟩, hr, hp, hw⟩⟩
  · exact (step_putsOut h).mono fun f h ⟨h0, hf⟩ => ⟨h0, hf, fun hn => absurd hn hd⟩

end Sys2Proof.Machine
end

section
/-! The RX decoder's rows one by one: the start, data and parity slots, and two branches of the stop slot, the Resend and
the queue (40_rx_decoder.md R111 to R113, R115, R117). -/

namespace Sys2Proof.Machine

theorem exec_rxStart {s : State} (d : Bool) (h : Selects s 0b00000) : exec (.rxStart d) s = .next (rxStart d s) :=
  onEdge_selected (fun s => .next (rxStart d s)) h

theorem exec_rxParity {s : State} (d : Bool) (h : Selects s 0b01001) : exec (.rxParity d) s = .next (rxParity d s) :=
  onEdge_selected (fun s => .next (rxParity d s)) h

/-- Settles O12: a low start slot ORs nothing into the flag and its cause, a high one sets both. -/
theorem rxStartResult : Obligations.RxStartResult := by
  intro s d hs
  rw [exec_rxStart d hs]
  cases d with
  | false => simp [rxStart]
  | true => simp [rxStart]

/-- Settles O13: the accumulator is the old one with the shifted level ORed in, and the level stands at bit k-1 alone. -/
theorem rxDataResult : Obligations.RxDataResult := by
  intro s k d h1 h8 hs
  refine ⟨s.rxAcc ||| (Byte.ofLevel d <<< (k - 1)), fun i hi => ?_, exec_rxDataRow d h1 h8 hs⟩
  rw [BitVec.getLsbD_or, getLsbD_ofLevel_shiftLeft]
  by_cases hik : i = k - 1
  · simp [hik, show k - 1 < 8 by omega]
  · simp [hik]

/-- Settles O14: both checkers OR into the flag, each into its own cause. -/
theorem rxParityResult : Obligations.RxParityResult := by
  intro s d hs
  refine ⟨(rxParity d s).rxResend, (rxParity d s).rxCauses, ?_, rfl, ?_, ?_, exec_rxParity d hs⟩
  · simp [rxParity, or_assoc, ← outOfRange_iff]
  · simp [rxParity]
  · simp [rxParity, ← outOfRange_iff]

theorem exec_dispatchResend (s : State) : exec .dispatchResend s = .next (resends s s.rxCauses) := rfl

/-- Settles O17: `resends`, written out. -/
theorem dispatchResendResult : Obligations.DispatchResendResult := exec_dispatchResend

/-- The byte `b` is in the buffer, signalled unless it is a break or extend byte; the idle opportunity is still to come. -/
def stored (s : State) (b : Byte) : State :=
  { s with
    ringMem := memWrite s.ringMem s.ringWr b
    ringWr := (s.ringWr + 1) % s.params.cap
    wake := if b = 0xF0 ∨ b = 0xE0 then s.wake else s.wake + 1 }

theorem queued_eq_idles (s : State) (b : Byte) : queued s b = idles (stored s b) := rfl

/-- Of the memory a queued byte changes the place at the write cursor and no other. -/
theorem ringByte_queued (s : State) (b : Byte) (a : Nat) :
    (queued s b).ringByte a = if a = s.ringWr then b else s.ringByte a := by
  rw [queued_eq_idles, (writerKept_idles _).ringByte]
  simp only [stored, State.ringByte, memRead_memWrite]
  split_ifs <;> rfl

/-- Settles O18: with room the row is the queue branch in flat form. -/
theorem dispatchQueueResult : Obligations.DispatchQueueResult := fun s hr =>
  ⟨recordOverrun_queued s.rxAcc hr, ringByte_queued s s.rxAcc⟩

end Sys2Proof.Machine
end

section
/-! A response's transition (42_control_sequencer.md R154): what every one of them leaves alone beside what each branch of
the stop slot does. -/

namespace Sys2Proof.Machine

@[simp] theorem idleOpportunity_wake (s : State) : s.idleOpportunity.wake = s.wake := by
  unfold State.idleOpportunity
  split_ifs <;> simp

@[simp] theorem drop_wake (s : State) (b : Byte) : (s.drop b).wake = s.wake := by
  rcases drop_cases s b with ⟨-, h⟩ | ⟨-, h⟩ <;> simp [h]

theorem seqResponse_wake {s t : State} {b : Byte} (h : seqResponse b s = .next t) : t.wake = s.wake := by
  rcases seqResponse_eq_next h with ⟨-, -, -, rfl⟩ | ⟨-, -, -, rfl⟩ | ⟨-, -, -, rfl⟩ | ⟨-, -, -, rfl⟩ |
    ⟨-, -, -, rfl⟩ | ⟨-, rfl⟩
  · rfl
  · simp [State.seqResetBat]
  · rfl
  · rfl
  · simp [State.seqLedAck2]
  · simp

/-- From a sequencer that is idle, an idle opportunity leaves it idle or claims the latched request. -/
theorem idleOpportunity_seqOp {s : State} (h : s.seqOp = .none) :
    s.idleOpportunity.seqOp = .none ∨ (s.idleOpportunity.seqOp = .ledChange ∧ s.ledPending = true) := by
  rcases idleOpportunity_cases s with ⟨-, hl, he⟩ | ⟨-, he⟩
  · exact .inr ⟨by rw [he]; rfl, hl⟩
  · exact .inl (by rw [he]; exact h)

theorem drop_seqOp (s : State) (b : Byte) : (s.drop b).seqOp = s.seqOp ∨ (s.drop b).seqOp = .none := by
  rcases drop_cases s b with ⟨-, h⟩ | ⟨-, h⟩
  · exact .inl (by rw [h]; rfl)
  · exact .inr (by rw [h]; rfl)

/-- A response keeps the operation, ends it, or by the idle opportunity begins a LedChange. -/
theorem seqResponse_seqOp {s t : State} {b : Byte} (h : seqResponse b s = .next t) :
    t.seqOp = s.seqOp ∨ t.seqOp = .none ∨ (t.seqOp = .ledChange ∧ s.ledPending = true) := by
  rcases seqResponse_eq_next h with ⟨-, -, -, rfl⟩ | ⟨-, -, -, rfl⟩ | ⟨-, -, -, rfl⟩ | ⟨-, -, -, rfl⟩ |
    ⟨-, -, -, rfl⟩ | ⟨-, rfl⟩
  · exact .inl rfl
  · exact .inr (idleOpportunity_seqOp rfl)
  · exact .inl rfl
  · exact .inl rfl
  · exact .inr (idleOpportunity_seqOp rfl)
  · exact (drop_seqOp s b).imp_right .inl

/-- Settles O20: the four rows are one operation, which completes, and its effect is one branch of the stop slot. -/
theorem responseCompletes : Obligations.ResponseCompletes := by
  intro s b hb hstep
  obtain ⟨t, ht⟩ := seqResponse_completes ((isResponse_iff b).2 hb) hstep
  obtain ⟨hparams, hinit, -, -, htask, hreq, -, hrx, -, hover, -⟩ := branch_keeps (seqResponse_branch ht)
  have hkept := writerKept_seqResponse ht
  have ⟨_, hwr, _⟩ := hkept
  refine ⟨t, ht, ?_, ?_, ?_, hrx, htask, hreq, hinit, hparams, hover, hwr, seqResponse_wake ht, hkept.ringByte,
    seqResponse_seqOp ht⟩
  · rintro rfl; exact ht
  · rintro rfl; exact ht
  · rintro rfl; exact ht

end Sys2Proof.Machine
end

section
/-! The stop slot (40_rx_decoder.md R114): its branch, that it completes, and what it leaves alone. -/

namespace Sys2Proof.Machine

/-- Settles O15: RX.STOP where it does not overrun, and where it does. -/
theorem rxStopRunsItsBranch : Obligations.RxStopRunsItsBranch := fun _ d hs =>
  ⟨fun h => (exec_rxStop d hs h).trans (rxStop_eq h), fun hq hf => ⟨_, exec_rxStop_overrun d hs ⟨hq, hf⟩, rfl⟩⟩

theorem dispatchRow_flagged {s : State} (h : s.rxResend = true) : dispatchRow s = .dispatchResend := if_pos h

theorem dispatchRow_response {s : State} (h : s.rxResend = false) (hb : s.rxAcc.isResponse = true) :
    dispatchRow s = .dispatchResponse := by
  rw [dispatchRow, if_neg (by simp [h]), if_pos ((isResponse_iff _).1 hb)]

theorem dispatchRow_queue {s : State} (h : s.rxResend = false) (hb : s.rxAcc.isResponse = false) :
    dispatchRow s = .dispatchQueue := by
  rw [dispatchRow, if_neg (by simp [h]), if_neg fun h => by simp [(isResponse_iff _).2 h] at hb]

theorem stopDispatch_completes {s : State} (hr : dispatchRow s = .dispatchQueue → RingRoom s)
    (hstep : s.seqOp = .none ∨ s.seqOp = .resend → s.seqStep = false) : ∃ u, stopDispatch s = .next u := by
  rw [stopDispatch_eq fun ⟨hd, hf⟩ => (hr hd).1 hf]
  cases hres : s.rxResend with
  | true => exact ⟨_, by rw [dispatchRow_flagged hres]; exact exec_dispatchResend s⟩
  | false =>
    cases hb : s.rxAcc.isResponse with
    | true => rw [dispatchRow_response hres hb]; exact seqResponse_completes hb hstep
    | false =>
      have hd := dispatchRow_queue hres hb
      exact ⟨_, by rw [hd]; exact recordOverrun_queued s.rxAcc (hr hd)⟩

/-- A branch that does not queue leaves the ring buffer and its signal alone. -/
theorem stopDispatch_keepsQueue {s u : State} (h : stopDispatch s = .next u) (hq : dispatchRow s ≠ .dispatchQueue) :
    WriterKept s u ∧ u.wake = s.wake := by
  rcases stopDispatch_eq_next h with ⟨-, rfl⟩ | ⟨-, -, h⟩ | ⟨hres, hb, -⟩
  · exact ⟨⟨rfl, rfl, rfl, rfl⟩, rfl⟩
  · exact ⟨writerKept_seqResponse h, seqResponse_wake h⟩
  · exact absurd (dispatchRow_queue hres hb) hq

/-- Settles O16: the branch completes, and clearing the receive registers touches nothing else. -/
theorem rxStopCompletes : Obligations.RxStopCompletes := by
  intro s d hs hr hstep
  obtain ⟨u, hu⟩ := stopDispatch_completes (s := s.inhibit) hr hstep
  obtain ⟨hparams, hinit, -, -, htask, hreq, -, hrx, -, hover, -⟩ := branch_keeps (stopDispatch_branch hu)
  have hcursor : WritesAtCursor s.inhibit u := (branch_queue (stopDispatch_branch hu)).writesAtCursor
  have hexec : exec (.rxStop d) s = .next (if u.fatal = true then u else rxCleared u) := by
    rw [exec_rxStop d hs fun ⟨hd, hf⟩ => (hr hd).1 hf, rxStop, hu, andThen_next, finishStop_eq]
  have hnone : dispatchRow s ≠ .dispatchQueue →
      (∀ a, u.ringByte a = s.ringByte a) ∧ u.ringWr = s.ringWr ∧ u.wake = s.wake := fun hq =>
    have ⟨hkept, hwake⟩ := stopDispatch_keepsQueue hu hq
    have ⟨_, hwr, _⟩ := hkept
    ⟨hkept.ringByte, hwr, hwake⟩
  refine ⟨_, hexec, ?_⟩
  cases hf : u.fatal with
  | true => exact ⟨.inl ⟨hf, hrx⟩, htask, hreq, hinit, hparams, hover, hcursor.1, hnone⟩
  | false => exact ⟨.inr ⟨hf, rxClean_rxCleared u⟩, htask, hreq, hinit, hparams, hover, hcursor.1, hnone⟩

end Sys2Proof.Machine
end

section
/-! A whole frame (40_rx_decoder.md R118): the frame event, ten edges, and the stop slot. -/

namespace Sys2Proof.Machine

theorem runSteps_one (s : State) : runSteps 1 s = step s := by
  rw [runSteps_succ]
  cases step s <;> rfl

/-- A frame from a clean start is the branch of the stop slot, run on what the ten slots before it have assembled. -/
theorem runSteps_frame {s : State} {st p sp : Bool} {b : Byte} {rest : List Event} {v : State} (h : RxReady s)
    (hst : s.stimulus = .frame (frameD2HBits st b p sp) :: rest)
    (hv : v = beforeStop { s with stimulus := rest } st b p) (hq : ¬(dispatchRow v = .dispatchQueue ∧ RingFull v)) :
    runSteps 12 s = andThen (exec (dispatchRow v) v.inhibit) fun w =>
      .next (if w.fatal = true then w else rxCleared w) := by
  subst hv
  have ⟨ht, hm, _⟩ := h
  have hslots := runSteps_frameEdges (s := { s with stimulus := frameEdges (frameD2HBits st b p sp) ++ rest }) h rfl
  have hstop := step_rxStop (s := beforeStop { s with stimulus := .edge sp :: rest } st b p) rfl ht hm rfl hq
  calc runSteps 12 s
      = runSteps (10 + 1) { s with stimulus := frameEdges (frameD2HBits st b p sp) ++ rest } :=
        runSteps_next 11 (step_frame hst)
    _ = step (beforeStop { s with stimulus := .edge sp :: rest } st b p) := by
        rw [runSteps_add, hslots, andThen_next, runSteps_one]
    _ = rxStop (beforeStop { s with stimulus := rest } st b p) := hstop
    _ = _ := rxStop_eq hq

/-- The block before the stop slot of a frame without a fault, with data `b`. -/
def received (s : State) (b : Byte) : State := { s with rxCnt := 10, rxAcc := b, rxPar := oddParity b }

/-- A frame without a fault leaves the flag and the causes as a clean start has them. -/
theorem beforeStop_accepted {s : State} {b : Byte} (h : RxClean s) (hr : outOfRange s.params b = false) :
    beforeStop s false b (oddParity b) = received s b := by
  obtain ⟨-, -, -, hres, hcau⟩ := h
  simp [beforeStop, received, hr, hres, hcau, Causes.none]

/-- An idle opportunity decides the interrupt enable and CLK itself. -/
theorem idles_inhibit (s : State) : idles s.inhibit = idles s := by
  unfold State.inhibit idles
  split_ifs <;> rfl

theorem queued_inhibit (s : State) (b : Byte) : queued s.inhibit b = queued s b := idles_inhibit (stored s b)

theorem rxCleared_queued (s : State) (b : Byte) : rxCleared (queued s b) = queued (rxCleared s) b :=
  rxCleared_idles (stored s b)

theorem queued_fatal (s : State) (b : Byte) : (queued s b).fatal = s.fatal :=
  have ⟨_, _, hf, _⟩ := idles_keeps (stored s b)
  hf

/-- A flagged frame takes the Resend branch, whatever its byte is. -/
theorem runSteps_frame_flagged {s : State} {st p sp : Bool} {b : Byte} {rest : List Event} (h : RxReady s)
    (hst : s.stimulus = .frame (frameD2HBits st b p sp) :: rest)
    (hbad : st = true ∨ p ≠ oddParity b ∨ outOfRange s.params b = true) :
    runSteps 12 s = .next (rxCleared
      (resends { s with stimulus := rest } ⟨st, p != oddParity b, outOfRange s.params b⟩)) := by
  have ⟨_, _, hf, _⟩ := edgeTaken_iff.1 h.1
  have hd : dispatchRow (beforeStop { s with stimulus := rest } st b p) = .dispatchResend :=
    dispatchRow_flagged (by simpa [beforeStop, or_assoc] using hbad)
  rw [runSteps_frame h hst rfl (by simp [hd]), hd, exec_dispatchResend, andThen_next,
    if_neg (by simp [resends, transmits, raises, beforeStop, hf])]
  rfl

/-- An accepted frame whose byte is no response is queued. -/
theorem runSteps_frame_queued {s : State} {sp : Bool} {b : Byte} {rest : List Event} (h : RxReady s)
    (hst : s.stimulus = .frame (frameD2HBits false b (oddParity b) sp) :: rest)
    (hr : outOfRange s.params b = false) (hb : b.isResponse = false) (hroom : RingRoom s) :
    runSteps 12 s = .next (rxCleared (queued { s with stimulus := rest } b)) := by
  have ⟨ht, _, hclean⟩ := h
  have ⟨_, _, hf, _⟩ := edgeTaken_iff.1 ht
  have ⟨_, _, _, hres, _⟩ := hclean
  have hv := beforeStop_accepted (s := { s with stimulus := rest }) hclean hr
  have hd : dispatchRow (received { s with stimulus := rest } b) = .dispatchQueue := dispatchRow_queue hres hb
  have hexec : exec .dispatchQueue (received { s with stimulus := rest } b).inhibit = _ :=
    recordOverrun_queued (s := (received { s with stimulus := rest } b).inhibit) b hroom
  rw [runSteps_frame h hst hv.symm fun ⟨_, hfull⟩ => hroom.1 hfull, hd, hexec, andThen_next, queued_inhibit,
    if_neg (by rw [queued_fatal]; simp [received, hf]), rxCleared_queued, rxCleared_queued]
  rfl

/-- An accepted frame whose byte is a response runs the sequencer from the stop slot. -/
theorem runSteps_frame_response {s : State} {sp : Bool} {b : Byte} {rest : List Event} (h : RxReady s)
    (hst : s.stimulus = .frame (frameD2HBits false b (oddParity b) sp) :: rest)
    (hr : outOfRange s.params b = false) (hb : b.isResponse = true) :
    runSteps 12 s = andThen (exec (.seqResponse b)
        (received { s with stimulus := rest } b).inhibit) fun v =>
      .next (if v.fatal = true then v else rxCleared v) := by
  have ⟨_, _, hclean⟩ := h
  have ⟨_, _, _, hres, _⟩ := hclean
  have hv := beforeStop_accepted (s := { s with stimulus := rest }) hclean hr
  have hd : dispatchRow (received { s with stimulus := rest } b) = .dispatchResponse := dispatchRow_response hres hb
  rw [runSteps_frame h hst hv.symm (by simp [hd]), hd]
  rfl

/-- Settles O48: one clause for each branch of the stop slot. -/
theorem frameOutcome : Obligations.FrameOutcome := by
  rintro s start stop p b rest range _ h hst hrange rfl
  obtain rfl : range = outOfRange s.params b := Bool.eq_iff_iff.2 (hrange.trans (outOfRange_iff _ _).symm)
  refine ⟨runSteps_frame_flagged h hst, ?_, ?_⟩
  · rintro rfl rfl hr hack hbat hroom
    exact runSteps_frame_queued h hst hr (Bool.eq_false_iff.2 fun hb => ((isResponse_iff b).1 hb).elim hack hbat) hroom
  · rintro rfl rfl hr hb
    exact runSteps_frame_response h hst hr ((isResponse_iff b).2 hb)

end Sys2Proof.Machine
end

section
/-! What the parity check finds (30_encoding.md R81, 40_rx_decoder.md R119). -/

namespace Sys2Proof.Machine

/-- The running parity over the bits a of the places in a list, begun at x (40_rx_decoder.md R112). -/
def runningParity (a : Nat → Bool) (x : Bool) (l : List Nat) : Bool := l.foldl (fun p i => p ^^ a i) x

theorem decide_odd_succ (n : Nat) : decide ((n + 1) % 2 = 1) = !decide (n % 2 = 1) := by
  rw [← decide_not]
  exact decide_eq_decide.2 (by omega)

/-- Two running parities end apart exactly when the places where the bits differ, the start among them, are odd in
number. -/
theorem runningParity_xor (a b : Nat → Bool) (l : List Nat) (x y : Bool) :
    (runningParity a x l ^^ runningParity b y l) =
      ((x ^^ y) ^^ decide ((l.countP fun i => a i != b i) % 2 = 1)) := by
  induction l generalizing x y with
  | nil => simp [runningParity]
  | cons i l ih =>
    have hstep : (runningParity a x (i :: l) ^^ runningParity b y (i :: l)) =
        (runningParity a (x ^^ a i) l ^^ runningParity b (y ^^ b i) l) := rfl
    rw [hstep, ih, List.countP_cons]
    cases a i <;> cases b i <;> simp [decide_odd_succ]

/-- The running parity over slots 1 to 9 is the odd parity of the data against the parity slot. -/
theorem runningParity_slots (f : BitVec 11) :
    runningParity (fun i => f.getLsbD (i + 1)) true (List.range 9) =
      (oddParity (f.extractLsb' 1 8) ^^ f.getLsbD 9) := by
  simp [runningParity, List.range_succ, oddParity]

/-- Settles O49: the running parity of f over slots 1 to 9 is 0, so that of g is the parity of the changes. -/
theorem parityFindsOddChanges : Obligations.ParityFindsOddChanges := by
  intro s f g rest h hst hf
  rw [← frameD2HBits_fields g] at hst
  refine ⟨_, runSteps_frameEdges h hst, ?_⟩
  have hxor := runningParity_xor (fun i => f.getLsbD (i + 1)) (fun i => g.getLsbD (i + 1)) (List.range 9) true true
  rw [runningParity_slots, runningParity_slots, hf, Bool.xor_self, Bool.xor_self, Bool.false_xor,
    Bool.false_xor] at hxor
  show (g.getLsbD 9 ^^ oddParity (g.extractLsb' 1 8)) = true ↔ _
  rw [Bool.xor_comm, hxor, decide_eq_true_iff]

end Sys2Proof.Machine
end

section
/-! The TX encoder: its rows one by one, the level it never samples, and a whole transmission (41_tx_encoder.md R130 to
R137). -/

namespace Sys2Proof.Machine

/-! ### The rows -/

/-- Settles O27: `TxStart` is `transmits`, written out. -/
theorem txStartResult : Obligations.TxStartResult := fun s b => congrArg Host.Outcome.next (txStart_eq s b)

/-- Settles O28: the row of slot k is `txData k`. -/
theorem txDataResult : Obligations.TxDataResult := fun _ _ d hk hs => exec_txDataRow d hk hs

theorem exec_txParity {s : State} (d : Bool) (h : Selects s 0b11000) : exec (.txParity d) s = .next (txParity s) :=
  onEdge_selected (fun s => .next (txParity s)) h

theorem exec_txStop {s : State} (d : Bool) (h : Selects s 0b11001) : exec (.txStop d) s = .next (txStop s) :=
  onEdge_selected (fun s => .next (txStop s)) h

theorem exec_txDone {s : State} (d : Bool) (h : Selects s 0b11010) : exec (.txDone d) s = .next (txDone s) :=
  onEdge_selected (fun s => .next (txDone s)) h

/-- TX.DONE in flat form: the end of a Resend is a choice of `seq_op` alone. -/
theorem txDone_eq (s : State) : txDone s = { s with
    txCnt := 0, txPar := true, mode := .receiving, seqOp := if s.seqOp = .resend then .none else s.seqOp } := by
  unfold txDone State.returnFromException
  split_ifs <;> rfl

/-- Settles O29: the three rows after the data. -/
theorem txTailResult : Obligations.TxTailResult := fun s d =>
  ⟨exec_txParity d, exec_txStop d, fun h => (exec_txDone d h).trans (congrArg _ (txDone_eq s))⟩

/-! ### The level on DATA -/

/-- In transmit mode the counters 11 to 15 select no row (30_encoding.md R98). -/
theorem step_tx_reserved {s : State} {d : Bool} {rest : List Event} (h : s.stimulus = .edge d :: rest)
    (ht : s.edgeTaken = true) (hm : s.mode = .transmitting) (hk : 11 ≤ s.txCnt.toNat) :
    step s = .refused (.badWord .reservedSelector) := by
  refine step_edge_reserved h ht ?_
  rw [edgeSelector_toNat_transmitting hm]
  exact decodeEdge_reserved .transmitting d hk s.txCnt.isLt

/-- Settles O30: the edge is lost, runs the row of its slot, or is refused; none of the three looks at the level. -/
theorem txIgnoresData : Obligations.TxIgnoresData := by
  intro s d d' rest hm
  by_cases ht : s.edgeTaken = true
  · by_cases hk : s.txCnt.toNat ≤ 10
    · have hrow (l : Bool) := step_tx (s := { s with stimulus := .edge l :: rest }) rfl ht hm hk (by simp)
      exact (hrow d).trans (hrow d').symm
    · have hbad (l : Bool) := step_tx_reserved (s := { s with stimulus := .edge l :: rest }) rfl ht hm (not_le.1 hk)
      exact (hbad d).trans (hbad d').symm
  · have hlost (l : Bool) := step_edge_lost (s := { s with stimulus := .edge l :: rest }) rfl (Bool.eq_false_iff.2 ht)
    exact (hlost d).trans (hlost d').symm

/-! ### A whole transmission -/

/-- The block after k edges of the transmission of the byte b, before its end. -/
def txSlots (s : State) (b : Byte) (k : Nat) : State :=
  { s with
    txByte := b, txCnt := BitVec.ofNat 4 k, txPar := txParAfter b k, mode := .transmitting, irqEn := true, clkDrv := .z
    dataDrv := txDriveAfter b k }

theorem transmits_eq_txSlots (s : State) (b : Byte) : transmits s b = txSlots s b 0 := rfl

theorem txData_txSlots (s : State) (b : Byte) {k : Nat} (hk : k < 8) :
    txData k (txSlots s b k) = txSlots s b (k + 1) := by
  rw [txSlots, txSlots, txParAfter_succ b hk, txDriveAfter_succ b hk]
  rfl

/-- The accumulator holds the parity of the byte by the time it is sent. -/
theorem txParity_txSlots (s : State) (b : Byte) : txParity (txSlots s b 8) = txSlots s b 9 := by
  rw [txSlots, txSlots, txParAfter_of_ge b (le_refl 8), txParAfter_of_ge b (by decide : 8 ≤ 9)]
  rfl

theorem txStop_txSlots (s : State) (b : Byte) : txStop (txSlots s b 9) = txSlots s b 10 := by
  rw [txSlots, txSlots, txParAfter_of_ge b (by decide : 8 ≤ 9), txParAfter_of_ge b (by decide : 8 ≤ 10)]
  rfl

/-- An edge before the last moves the transmission on by one slot, whatever its level is. -/
theorem step_txSlots {s : State} {b : Byte} {d : Bool} {k : Nat} {rest : List Event} (hi : s.inited = true)
    (hf : s.fatal = false) (hk : k < 10) (hst : s.stimulus = .edge d :: rest) :
    step (txSlots s b k) = .next (txSlots { s with stimulus := rest } b (k + 1)) := by
  rw [step_tx (s := txSlots s b k) hst (edgeTaken_iff.2 ⟨hi, rfl, hf, rfl⟩) rfl hk.le rfl]
  split_ifs with h7 h8 h9
  · exact congrArg _ (txData_txSlots { s with stimulus := rest } b (Nat.lt_succ_of_le h7))
  · subst h8
    exact congrArg _ (txParity_txSlots { s with stimulus := rest } b)
  · subst h9
    exact congrArg _ (txStop_txSlots { s with stimulus := rest } b)
  · omega

theorem runSteps_txSlots {s : State} {b : Byte} {ds : List Bool} {k : Nat} {rest : List Event} (hi : s.inited = true)
    (hf : s.fatal = false) (hk : k + ds.length ≤ 10) (hst : s.stimulus = ds.map .edge ++ rest) :
    runSteps ds.length (txSlots s b k) = .next (txSlots { s with stimulus := rest } b (k + ds.length)) := by
  induction ds generalizing s k with
  | nil =>
    obtain rfl : s.stimulus = rest := hst
    rfl
  | cons d ds ih =>
    rw [List.length_cons] at hk ⊢
    rw [runSteps_next _ (step_txSlots hi hf (by omega) hst), show k + (ds.length + 1) = k + 1 + ds.length by omega]
    exact ih (s := { s with stimulus := ds.map .edge ++ rest }) hi hf (by omega) rfl

/-- The transmission of the byte b is over: the block is back in receive mode, and a Resend has ended. -/
def transmitted (s : State) (b : Byte) : State :=
  { s with
    txByte := b, txCnt := 0, txPar := true, mode := .receiving, irqEn := true, clkDrv := .z, dataDrv := .z
    seqOp := if s.seqOp = .resend then .none else s.seqOp }

/-- The acknowledge slot. -/
theorem step_lastTxSlot {s : State} {b : Byte} {d : Bool} {rest : List Event} (hi : s.inited = true)
    (hf : s.fatal = false) (hst : s.stimulus = .edge d :: rest) :
    step (txSlots s b 10) = .next (transmitted { s with stimulus := rest } b) :=
  (step_tx (s := txSlots s b 10) hst (edgeTaken_iff.2 ⟨hi, rfl, hf, rfl⟩) rfl le_rfl rfl).trans
    (congrArg _ (txDone_eq _))

/-- Eleven edges from the start of a transmission: ten slots and the acknowledge. -/
theorem runSteps_transmission {s : State} {b : Byte} {ds : List Bool} {rest : List Event} (hi : s.inited = true)
    (hf : s.fatal = false) (hn : ds.length = 11) (hst : s.stimulus = ds.map .edge ++ rest) :
    runSteps 11 (txSlots s b 0) = .next (transmitted { s with stimulus := rest } b) := by
  obtain rfl | ⟨ds, d, rfl⟩ := ds.eq_nil_or_concat'
  · cases hn
  · have hten : ds.length = 10 := by simpa using hn
    rw [List.map_append, List.append_assoc] at hst
    have hslots := runSteps_txSlots (b := b) (k := 0) hi hf (by omega) hst
    rw [hten] at hslots
    rw [show 11 = 10 + 1 from rfl, runSteps_add, hslots, andThen_next, runSteps_one]
    exact step_lastTxSlot (s := { s with stimulus := .edge d :: rest }) hi hf rfl

/-- Settles O31: fewer than eleven edges end in the slot of their number, eleven end the transmission. -/
theorem txDriveSequence : Obligations.TxDriveSequence := by
  intro s b ds rest hi hf hn
  rw [transmits_eq_txSlots]
  by_cases h11 : ds.length = 11
  · refine ⟨transmitted { s with stimulus := rest } b, ?_, ?_, rfl, rfl, rfl, rfl, fun h => ?_, fun _ => rfl⟩
    · rw [h11]
      exact runSteps_transmission (s := { s with stimulus := ds.map .edge ++ rest }) hi hf h11 rfl
    · rw [h11]; rfl
    · omega
  · have hrun := runSteps_txSlots (s := { s with stimulus := ds.map .edge ++ rest }) (b := b) (k := 0) hi hf
      (by omega) rfl
    rw [Nat.zero_add] at hrun
    refine ⟨_, hrun, rfl, rfl, rfl, rfl, rfl, fun _ => ⟨rfl, ?_, rfl⟩, fun h => absurd h h11⟩
    show (BitVec.ofNat 4 ds.length).toNat = ds.length
    rw [BitVec.toNat_ofNat]
    omega

end Sys2Proof.Machine
end

section
/-! The Control Sequencer's rows one by one: its transitions, the dropped responses, and its procedures
(42_control_sequencer.md R151 to R153, R156 to R161). -/

namespace Sys2Proof.Machine

theorem exec_idleOpportunity (s : State) : exec .idleOpportunity s = .next (idles s) :=
  congrArg Host.Outcome.next (idleOpportunity_eq s)

theorem exec_seqResetBat (s : State) : exec .seqResetBat s = .next (idles { s with
    statusLed := .off, outputs := s.outputs ++ [.statusLed .off], seqOp := .none, seqStep := false }) :=
  congrArg Host.Outcome.next (idleOpportunity_eq _)

theorem exec_seqLedAck1 (s : State) : exec .seqLedAck1 s = .next (transmits { s with seqStep := true } s.seqPayload) :=
  congrArg Host.Outcome.next (txStart_eq _ _)

theorem exec_seqLedAck2 (s : State) :
    exec .seqLedAck2 s = .next (idles { s with seqOp := .none, seqStep := false }) :=
  congrArg Host.Outcome.next (idleOpportunity_eq _)

/-- Settles O21: the first and last transition are register writes, the middle one ends in the idle opportunity. -/
theorem seqResetTransitions : Obligations.SeqResetTransitions := fun s => ⟨rfl, exec_seqResetBat s, rfl⟩

/-- Settles O22: the first transition is a `TxStart`, the second ends in the idle opportunity. -/
theorem seqLedTransitions : Obligations.SeqLedTransitions := fun s =>
  ⟨exec_seqLedAck1 s, exec_seqLedAck2 s⟩

theorem dropped_stall {s : State} (b : Byte) (h : s.params.dropPolicy = .stall) :
    dropped s b = raises s (.droppedResponse s.seqOp s.seqStep b) := by
  rw [dropped, h]

theorem dropped_abandon {s : State} (b : Byte) (h : s.params.dropPolicy = .abandon) :
    dropped s b =
      released { raises s (.droppedResponse s.seqOp s.seqStep b) with seqOp := .none, seqStep := false } := by
  rw [dropped, h]

/-- The drop rows of R100, each with the byte it drops. -/
def dropRows (b : Byte) : List (Instr × Byte) :=
  [(.seqDropReset0, 0xAA), (.seqDropLed0, 0xAA), (.seqDropLed1, 0xAA), (.seqDropIdleAck, 0xFA), (.seqDropIdleBat, 0xAA),
    (.seqDropResend b, b)]

/-- The drop rows are one operation. -/
theorem exec_dropRow (s : State) {i : Instr} {b : Byte} (h : (i, b) ∈ dropRows b) : exec i s = .next (dropped s b) := by
  have hexec : exec i s = .next (s.drop b) := by
    simp only [dropRows, List.mem_cons, Prod.mk.injEq, List.not_mem_nil, or_false] at h
    obtain ⟨rfl, rfl⟩ | ⟨rfl, rfl⟩ | ⟨rfl, rfl⟩ | ⟨rfl, rfl⟩ | ⟨rfl, rfl⟩ | ⟨rfl, -⟩ := h <;> rfl
  rw [hexec, drop_eq]

/-- Settles O23: one operation for all six rows, flat under each policy. -/
theorem seqDropTransitions : Obligations.SeqDropTransitions := by
  intro s i b hi
  rw [exec_dropRow s hi]
  refine ⟨fun hstall => ?_, fun habandon => ?_⟩
  · rw [dropped_stall b hstall]
    rfl
  · rw [dropped_abandon b habandon]
    rfl

/-- Settles O24: `ReleaseToReceive` is `released`, written out. -/
theorem releaseToReceiveResult : Obligations.ReleaseToReceiveResult := fun s =>
  congrArg Host.Outcome.next (releaseToReceive_eq s)

/-- Settles O25: each operation sets the sequencer's registers and ends in a `TxStart` of its byte. -/
theorem seqStartResult : Obligations.SeqStartResult := fun _ =>
  ⟨congrArg Host.Outcome.next (txStart_eq _ _), congrArg Host.Outcome.next (txStart_eq _ _),
    congrArg Host.Outcome.next (txStart_eq _ _)⟩

theorem idles_claims {s : State} (h : s.seqOp = .none ∧ s.ledPending = true) :
    idles s = transmits
      { s with ledPending := false, seqOp := .ledChange, seqStep := false, seqPayload := ledXlate s.ledReq }
      s.params.cmdSetLed := if_pos h

theorem idles_releases {s : State} (h : ¬(s.seqOp = .none ∧ s.ledPending = true)) : idles s = released s := if_neg h

/-- Settles O26: the two branches of the idle opportunity. -/
theorem idleOpportunityResult : Obligations.IdleOpportunityResult := by
  intro s
  rw [exec_idleOpportunity]
  refine ⟨fun h => congrArg _ (idles_claims h), fun h => congrArg _ (idles_releases ?_)⟩
  rintro ⟨hop, hpending⟩
  exact h.elim (fun hn => hn hop) fun hn => by simp [hpending] at hn

end Sys2Proof.Machine
end

section
/-! The latch of LED requests (42_control_sequencer.md R153, R163): nothing but an idle opportunity clears it, and that
sends what it holds. -/

namespace Sys2Proof.Machine

/-- The latched request is still there, or has been taken by the LedChange that sends the mask latched in s. -/
def KeepsOrSends (s t : State) : Prop :=
  t.ledPending = true ∨
    (t.ledPending = false ∧ t.seqOp = .ledChange ∧ t.seqStep = false ∧ t.seqPayload = ledXlate s.ledReq ∧
      t.mode = .transmitting ∧ t.txByte = s.params.cmdSetLed ∧ t.dataDrv = .low ∧ t.clkDrv = .z)

theorem idles_keepsOrSends {s : State} (hl : s.ledPending = true) : KeepsOrSends s (idles s) := by
  by_cases h : s.seqOp = .none ∧ s.ledPending = true
  · rw [idles_claims h]
    exact .inr ⟨rfl, rfl, rfl, rfl, rfl, rfl, rfl, rfl⟩
  · rw [idles_releases h]
    exact .inl hl

theorem branch_keepsOrSends {s t : State} (hl : s.ledPending = true) (h : Branch s t) : KeepsOrSends s t := by
  cases h with
  | drop b =>
    obtain ⟨-, -, -, -, -, -, -, -, -, -, hpending, -⟩ := dropped_keeps s b
    exact .inl (hpending.trans hl)
  | resetBat => exact idles_keepsOrSends (s := { s with
      statusLed := .off, outputs := s.outputs ++ [.statusLed .off], seqOp := .none, seqStep := false }) hl
  | ledAck2 => exact idles_keepsOrSends (s := { s with seqOp := .none, seqStep := false }) hl
  | queue b _ => exact idles_keepsOrSends (s := stored s b) hl
  | resend | resetAck | fatal | ledAck1 => exact .inl hl

/-- Every row keeps a latched request or begins to send it, unless it overruns. -/
theorem effect_keepsOrSends {s t : State} (hl : s.ledPending = true) (h : Effect s t) (ho : ¬Overran s t) :
    KeepsOrSends s t := by
  cases h with
  | branch h => exact branch_keepsOrSends hl h
  | @stop u _ h =>
    have hu : KeepsOrSends s u := branch_keepsOrSends (s := { s with irqEn := false, clkDrv := .low }) hl h
    split_ifs <;> exact hu
  | txDone _ => rw [txDone_eq]; exact .inl hl
  | idle => exact idles_keepsOrSends hl
  | led m _ _ => exact .inl rfl
  | overrun hf => exact absurd (afterOverrun_overran hf) ho
  | _ => exact .inl hl

/-- Settles O55: a step that goes on and is no reset is the effect of a row, or none. -/
theorem latchedRequestIsKeptOrSent : Obligations.LatchedRequestIsKeptOrSent := by
  intro s t hreset h ho hl
  rcases step_effect h with ⟨-, rfl⟩ | ⟨rest, hst, -⟩ | ⟨e, rest, es, -, -, -, hx⟩
  · exact .inl hl
  · exact absurd hst (hreset rest)
  · exact effect_keepsOrSends (s := { s with stimulus := es }) hl hx ho

end Sys2Proof.Machine
end

section
/-! An LED change from request to idle (42_control_sequencer.md R165): a byte clocked out and answered, once for each
step of the sequence. -/

namespace Sys2Proof.Machine

/-! ### A byte clocked out and answered -/

theorem step_txclk {s : State} {rest : List Event} (h : s.stimulus = .txclk :: rest) :
    step s = .next { s with stimulus := frameEdges (frameH2DBits 0xFF true true true) ++ rest } :=
  step_run (i := .frameH2D 0xFF true true true) (offer_cons h) rfl

/-- The event `TXCLK` clocks a transmission from its start to its end. -/
theorem runSteps_txclk {s : State} (b : Byte) {rest : List Event} (hi : s.inited = true) (hf : s.fatal = false)
    (hst : s.stimulus = .txclk :: rest) :
    runSteps 12 (transmits s b) = .next (transmitted { s with stimulus := rest } b) := by
  rw [runSteps_next 11 (step_txclk (s := transmits s b) hst)]
  exact runSteps_transmission (s := { s with stimulus := frameEdges (frameH2DBits 0xFF true true true) ++ rest }) hi hf
    rfl rfl

/-- Between the end of a transmission and the response to it the block is ready for a frame. -/
theorem rxReady_transmitted {s : State} (b : Byte) (hi : s.inited = true) (hf : s.fatal = false) (hr : RxClean s) :
    RxReady (transmitted s b) := ⟨edgeTaken_iff.2 ⟨hi, rfl, hf, rfl⟩, rfl, hr⟩

theorem outOfRange_eq_false_iff {p : Params} {b : Byte} :
    outOfRange p b = false ↔ b ≤ p.maxCode ∨ b = 0xFA ∨ b = 0xAA ∨ b = 0xF0 ∨ b = 0xE0 := by
  rw [← not_rangeError_iff, ← outOfRange_iff, Bool.not_eq_true]

theorem outOfRange_of_isResponse (p : Params) {b : Byte} (h : b.isResponse = true) : outOfRange p b = false :=
  outOfRange_eq_false_iff.2 (.inr (((isResponse_iff b).1 h).imp_right .inl))

/-- A byte clocked out and answered by the response `r`: the sequencer's transition, from the stop slot of the
response. -/
theorem runSteps_exchange {s v : State} (b : Byte) {r : Byte} {rest : List Event} (hi : s.inited = true)
    (hf : s.fatal = false) (hr : RxClean s) (hb : r.isResponse = true)
    (hst : s.stimulus = .txclk :: Event.rx r :: rest)
    (hv : exec (.seqResponse r) (received (transmitted { s with stimulus := rest } b) r).inhibit = .next v)
    (hvf : v.fatal = false) : runSteps 24 (transmits s b) = .next (rxCleared v) := by
  have hframe := runSteps_frame_response (s := transmitted { s with stimulus := Event.rx r :: rest } b)
    (rxReady_transmitted b hi hf hr) rfl (outOfRange_of_isResponse _ hb) hb
  rw [show 24 = 12 + 12 from rfl, runSteps_add, runSteps_txclk b hi hf hst, andThen_next]
  refine hframe.trans ((congrArg (andThen · _) hv).trans ?_)
  rw [andThen_next, if_neg (ne_true_of_eq_false hvf)]

/-- Eleven steps into the answer the stop slot is still to come. -/
theorem runSteps_exchange_beforeStop {s : State} (b : Byte) {r : Byte} {rest : List Event} (hi : s.inited = true)
    (hf : s.fatal = false) (hr : RxClean s) (hst : s.stimulus = .txclk :: Event.rx r :: rest) :
    runSteps 23 (transmits s b) = .next
      (beforeStop (transmitted { s with stimulus := .edge true :: rest } b) false r (oddParity r)) := by
  rw [show 23 = 12 + (10 + 1) from rfl, runSteps_add, runSteps_txclk b hi hf hst, andThen_next,
    runSteps_next 10 (step_frame (s := transmitted { s with stimulus := Event.rx r :: rest } b) rfl)]
  exact runSteps_frameEdges (s := transmitted { s with stimulus := frameEdges _ ++ rest } b)
    (rxReady_transmitted b hi hf hr) rfl

/-! ### The two steps of the sequence -/

/-- The byte `b` of a LedChange is about to be clocked out, at step `st`. -/
def sendsLed (s : State) (st : Bool) (b : Byte) : State := transmits { s with seqOp := .ledChange, seqStep := st } b

theorem rxCleared_of_rxClean {s : State} (h : RxClean s) : rxCleared s = s := by
  obtain ⟨hcnt, hacc, hpar, hres, hcau⟩ := h
  cases s
  simp_all [rxCleared]

/-- Clearing the receive registers takes back what a frame put there. -/
theorem rxCleared_received {s : State} (b : Byte) (h : RxClean s) : rxCleared (received s b) = s :=
  rxCleared_of_rxClean h

theorem seqResponse_ack_ledCommand {s : State} (hop : s.seqOp = .ledChange) (hstep : s.seqStep = false) :
    exec (.seqResponse 0xFA) s = .next (transmits { s with seqStep := true } s.seqPayload) := by
  have hrow : seqResponse 0xFA s = exec .seqLedAck1 s := by
    rw [seqResponse_responseRow, hop, hstep]
    rfl
  exact hrow.trans (exec_seqLedAck1 s)

theorem seqResponse_ack_ledMask {s : State} (hop : s.seqOp = .ledChange) (hstep : s.seqStep = true) :
    exec (.seqResponse 0xFA) s = .next (idles { s with seqOp := .none, seqStep := false }) := by
  have hrow : seqResponse 0xFA s = exec .seqLedAck2 s := by
    rw [seqResponse_responseRow, hop, hstep]
    rfl
  exact hrow.trans (exec_seqLedAck2 s)

/-- The command answered by ACK: the mask follows (R158). -/
theorem runSteps_sendsLed_command {s : State} (b : Byte) {rest : List Event} (hi : s.inited = true)
    (hf : s.fatal = false) (hr : RxClean s) (hst : s.stimulus = .txclk :: Event.rx 0xFA :: rest) :
    runSteps 24 (sendsLed s false b) = .next (sendsLed { s with stimulus := rest } true s.seqPayload) := by
  have hrx := rxCleared_received (s := { s with stimulus := rest }) 0xFA hr
  exact (runSteps_exchange (s := { s with seqOp := .ledChange, seqStep := false }) b hi hf hr rfl hst
    (seqResponse_ack_ledCommand rfl rfl) hf).trans
    (congrArg (fun u => Host.Outcome.next (sendsLed u true s.seqPayload)) hrx)

/-- The mask answered by ACK: with no further request the block is idle (R159). -/
theorem runSteps_sendsLed_mask {s : State} (b : Byte) {rest : List Event} (hi : s.inited = true)
    (hf : s.fatal = false) (hr : RxClean s) (hl : s.ledPending = false)
    (hst : s.stimulus = .txclk :: Event.rx 0xFA :: rest) :
    runSteps 24 (sendsLed s true b) = .next (transmitted ({ s with stimulus := rest } : State).seqIdle b) := by
  have hrx := rxCleared_received (s := { s with stimulus := rest }) 0xFA hr
  have hack {u : State} (hop : u.seqOp = .ledChange) (hstep : u.seqStep = true) (hlu : u.ledPending = false) :
      exec (.seqResponse 0xFA) u = .next (released { u with seqOp := .none, seqStep := false }) := by
    rw [seqResponse_ack_ledMask hop hstep, idles_releases fun ⟨_, h⟩ => by simp [hlu] at h]
  exact (runSteps_exchange (s := { s with seqOp := .ledChange, seqStep := true }) b hi hf hr rfl hst
    (hack rfl rfl hl) hf).trans
    (congrArg (fun u : State => Host.Outcome.next (transmitted u.seqIdle b)) hrx)

/-! ### From the request on -/

theorem rxCleared_queued_of_rxClean {s : State} (c : Byte) (h : RxClean s) : rxCleared (queued s c) = queued s c := by
  rw [rxCleared_queued, rxCleared_of_rxClean h]

/-- Queueing a byte at idle begins the LedChange of a latched request (R117, R153). -/
theorem queued_claims {s : State} (c : Byte) (hop : s.seqOp = .none) (hl : s.ledPending = true) :
    queued s c = sendsLed { stored s c with ledPending := false, seqPayload := ledXlate s.ledReq } false
      s.params.cmdSetLed := idles_claims (s := stored s c) ⟨hop, hl⟩

/-- The mask `m` latched and claimed, the byte `c` queued, `es` to come. -/
def ledClaimed (s : State) (m c : Byte) (es : List Event) : State :=
  stored { s with ledReq := m, ledPending := false, seqPayload := ledXlate m, stimulus := es } c

/-- A request at idle is claimed when the next scan code has been queued (R117, R153). -/
theorem runSteps_ledRequest {s : State} {m c : Byte} {es : List Event} (h : RxReady s) (hroom : RingRoom s)
    (hop : s.seqOp = .none) (hc : c ≤ s.params.maxCode) (hb : c.isResponse = false)
    (hst : s.stimulus = .led m :: Event.rx c :: es) :
    runSteps 13 s = .next (sendsLed (ledClaimed s m c es) false s.params.cmdSetLed) := by
  have ⟨ht, _, hclean⟩ := h
  obtain ⟨hi, -, hf, -⟩ := edgeTaken_iff.1 ht
  have hled := (step_led hst).trans (changeLedState_latches (s := { s with stimulus := Event.rx c :: es }) m hi hf)
  have hframe := runSteps_frame_queued (s := { s with ledReq := m, ledPending := true, stimulus := Event.rx c :: es }) h
    rfl (outOfRange_eq_false_iff.2 (.inl hc)) hb hroom
  have hqueued := rxCleared_queued_of_rxClean (s := { s with ledReq := m, ledPending := true, stimulus := es }) c hclean
  have hclaims := queued_claims (s := { s with ledReq := m, ledPending := true, stimulus := es }) c hop rfl
  rw [runSteps_next 12 hled]
  exact hframe.trans (congrArg Host.Outcome.next (hqueued.trans hclaims))

/-- Settles O51: the request, the command answered, the mask answered; the step before the last leaves the sequencer
alone. -/
theorem ledChangeEndToEnd : Obligations.LedChangeEndToEnd := by
  intro s m c rest h hroom hop hc hack hbat hst
  have ⟨ht, _, hclean⟩ := h
  obtain ⟨hi, -, hf, -⟩ := edgeTaken_iff.1 ht
  have hb : c.isResponse = false := Bool.eq_false_iff.2 fun hb => ((isResponse_iff c).1 hb).elim hack hbat
  have hrequest := runSteps_ledRequest h hroom hop hc hb hst
  have hcommand : runSteps 37 s =
      .next (sendsLed (ledClaimed s m c (.txclk :: Event.rx 0xFA :: rest)) true (ledXlate m)) := by
    rw [show 37 = 13 + 24 from rfl, runSteps_add, hrequest, andThen_next]
    exact runSteps_sendsLed_command (s := ledClaimed s m c _) s.params.cmdSetLed hi hf hclean rfl
  refine ⟨⟨_, hrequest, rfl, rfl⟩, ⟨_, hcommand, rfl, rfl⟩, ?_, ?_⟩
  · rw [show 60 = 37 + 23 from rfl, runSteps_add, hcommand, andThen_next]
    exact ⟨_, runSteps_exchange_beforeStop (s := { ledClaimed s m c _ with seqOp := .ledChange, seqStep := true })
      _ hi hf hclean rfl, rfl⟩
  · rw [show 61 = 37 + 24 from rfl, runSteps_add, hcommand, andThen_next]
    exact ⟨_, runSteps_sendsLed_mask (s := ledClaimed s m c _) _ hi hf hclean rfl rfl,
      rxReady_transmitted _ hi hf hclean, rfl, rfl, rfl, rfl,
      State.ringByte_listed (memRead_memWrite_self s.ringMem s.ringWr c), rfl⟩

end Sys2Proof.Machine
end

section
/-! The ring buffer's own rows, the overrun of every row that queues, and the buffer as a queue (43_ring_buffer.md R180 to
R184). -/

namespace Sys2Proof.Machine

/-! ### RingWrite and the full buffer -/

theorem exec_ringWrite_room {s : State} (b : Byte) (h : RingRoom s) : exec (.ringWrite b) s =
    .next { s with ringMem := memWrite s.ringMem s.ringWr b, ringWr := (s.ringWr + 1) % s.params.cap } :=
  recordOverrun_next (ringWrite_room b h)

theorem exec_ringWrite_full {s : State} (b : Byte) (h : RingFull s) : exec (.ringWrite b) s = .next s.afterOverrun :=
  recordOverrun_full (ringWrite_full b h)

/-- Settles O32: with room, a read after the write finds the byte at the old cursor and the old bytes elsewhere. -/
theorem ringWriteResult : Obligations.RingWriteResult := by
  intro s b
  refine ⟨fun hfull => ⟨_, exec_ringWrite_full b hfull, rfl, rfl⟩, fun hne hwr => ?_⟩
  refine ⟨_, exec_ringWrite_room b ⟨hne, hwr⟩, rfl, State.ringByte_listed (memRead_memWrite_self ..), fun a ha => ?_⟩
  rw [State.ringByte, State.ringByte, memRead_memWrite_other _ _ ha]

theorem recordOverrun_queue_full {s : State} (b : Byte) (h : RingFull s) :
    recordOverrun (dispatchQueue b) s = .next s.afterOverrun := recordOverrun_full (dispatchQueue_full b h)

/-- Every row that queues meets the full buffer in the same way, the stop slot where its branch is the queue. -/
theorem exec_queueing_full {s : State} {i : Instr} (hf : RingFull s) (hq : queueing i)
    (hstop : ∀ d, i = .rxStop d → Selects s 0b01010 ∧ dispatchRow s = .dispatchQueue) :
    exec i s = .next s.afterOverrun := by
  rcases hq with rfl | rfl | rfl | ⟨d, rfl⟩ | ⟨b, rfl⟩ | ⟨b, rfl⟩
  · exact recordOverrun_queue_full _ hf
  · exact recordOverrun_queue_full _ hf
  · exact recordOverrun_queue_full _ hf
  · have ⟨hsel, hd⟩ := hstop d rfl
    exact exec_rxStop_overrun d hsel ⟨hd, hf⟩
  · exact exec_ringWrite_full b hf
  · exact recordOverrun_queue_full b hf

/-- Settles O33: CAP-1 unread bytes are the full buffer of `RingFull`. -/
theorem fullBufferOverruns : Obligations.FullBufferOverruns := by
  intro s i hc hcount hq hstop
  have hf : RingFull s := (unreadCount_full hc).1 hcount
  exact ⟨_, exec_queueing_full hf hq hstop, afterOverrun_overran hf, rfl⟩

/-! ### RingRead -/

theorem exec_ringRead_holds {s : State} {b : Byte} (h : RingHolds s b) :
    exec .ringRead s = .next { s with ret := b, ringRd := (s.ringRd + 1) % s.params.cap } :=
  withRingByte_holds _ h

theorem withRingByte_outside {s : State} (f : Byte → State → State) (hne : s.ringWr ≠ s.ringRd)
    (hout : s.params.cap ≤ s.ringRd) : withRingByte s f = .fault (.ringAddress s.ringRd) := by
  rw [withRingByte, if_neg hne, ringRead, if_neg (Nat.not_lt.2 hout)]

/-- Settles O34: the empty buffer, a byte at the read cursor, and a read cursor outside the buffer. -/
theorem ringReadResult : Obligations.RingReadResult := fun _ =>
  ⟨withRingByte_empty _, fun hne hin => exec_ringRead_holds ⟨hne, hin, rfl⟩, withRingByte_outside _⟩

/-! ### The buffer as a queue -/

theorem unread_eq_nil {s : State} (hc : CursorsIn s) : unread s = [] ↔ s.ringWr = s.ringRd := by
  rw [← List.length_eq_zero_iff, unread_length, unreadCount_zero hc]

/-- Settles O35: a write is an append to the unread bytes, a read takes their head. -/
theorem ringIsFirstInFirstOut : Obligations.RingIsFirstInFirstOut := by
  intro s hc
  refine ⟨unread_eq_nil hc, ?_, fun b hr => ?_, fun b q hu => ?_⟩
  · rw [unread_length]
    exact Nat.le_sub_one_of_lt (unreadCount_lt hc)
  · exact ⟨_, exec_ringWrite_room b hr, unread_write hc hr rfl rfl rfl rfl rfl⟩
  · obtain ⟨hb, hrest⟩ := unread_cons hc hu
    exact ⟨_, exec_ringRead_holds hb, rfl, hrest _ rfl rfl rfl rfl rfl⟩

end Sys2Proof.Machine
end

section
/-! The translator's rows one by one (44_translator.md R191 to R195). -/

namespace Sys2Proof.Machine

/-! ### `XL.WAIT` and `Emit` -/

theorem exec_xlWait {s : State} (h : InPhase s .waitEvent) :
    exec .xlWait s = .next (if 0 < s.wake then xlWait s else s) :=
  onPhase_enabled (fun s => .next (if 0 < s.wake then xlWait s else s)) h

/-- Settles O37: by whether a signal is pending. -/
theorem xlWaitResult : Obligations.XlWaitResult := fun _ h =>
  ⟨fun hw => (exec_xlWait h).trans (congrArg _ (if_pos hw)),
    fun hw => (exec_xlWait h).trans (congrArg _ (if_neg (by omega)))⟩

theorem isModifier_iff {p : Params} {code : Byte} {ext : Bool} :
    isModifier p code ext = true ↔ (code, ext) ∈ p.modifierSet := by simp [isModifier]

/-- A key event's flag byte is `00000bmk` with one of m and k set (30_encoding.md R92). -/
theorem eventFlagsOf_eq (m brk : Bool) : eventFlagsOf m brk = eventFlagBits brk m (!m) := by
  revert m brk
  decide

/-- Settles O39: the output is `emitOutput`, by whether the code is mapped. -/
theorem emitResult : Obligations.EmitResult := by
  intro s code
  refine ⟨emitOutput s code, congrArg _ (emit_eq s code), fun h0 => if_neg (not_not.2 h0), fun h0 => ?_⟩
  refine ⟨eventFlagsOf (isModifier s.params code s.tExt) s.tBrk, if_pos h0, ?_⟩
  obtain ⟨hbrk, hmod, hkey, hlt⟩ :=
    eventFlagBits_bits s.tBrk (isModifier s.params code s.tExt) (!isModifier s.params code s.tExt)
  rw [eventFlagsOf_eq, hkey, hmod, ← isModifier_iff]
  exact ⟨by simp, Iff.rfl, hbrk, hlt⟩

/-! ### The read steps -/

theorem exec_xlRead1 {s : State} (h : InPhase s .readFirst) : exec .xlRead1 s = withRingByte s xlFirst :=
  onPhase_enabled (fun s => withRingByte s xlFirst) h

theorem exec_xlRead2 {s : State} (h : InPhase s .readAfterExt) : exec .xlRead2 s = withRingByte s xlSecond :=
  onPhase_enabled (fun s => withRingByte s xlSecond) h

theorem exec_xlRead3 {s : State} (h : InPhase s .readAfterBreak) :
    exec .xlRead3 s = withRingByte s fun b s => emitted s b := by
  simp only [← emit_eq_emitted]
  exact onPhase_enabled (fun s => withRingByte s fun b s => s.emit b) h

/-- A read step on an empty buffer changes nothing, whether it is enabled or not. -/
theorem onPhase_empty {s : State} (ph : TPhase) (f : Byte → State → State) (h : s.ringWr = s.ringRd) :
    onPhase ph (fun s => withRingByte s f) s = .next s := by
  by_cases hp : InPhase s ph
  · rw [onPhase_enabled _ hp, withRingByte_empty f h]
  · exact onPhase_other _ hp

/-- Settles O38: on an empty buffer, and on one that holds b. -/
theorem xlReadResults : Obligations.XlReadResults := by
  refine fun s => ⟨fun he => ⟨onPhase_empty .readFirst _ he, onPhase_empty .readAfterExt _ he,
    onPhase_empty .readAfterBreak _ he⟩, ?_⟩
  rintro b u hb rfl
  refine ⟨fun hp => ?_, fun hp => ?_, fun hp => ?_⟩
  · rw [exec_xlRead1 hp, withRingByte_holds _ hb, xlFirst_eq]
  · rw [exec_xlRead2 hp, withRingByte_holds _ hb, xlSecond_eq]
  · rw [exec_xlRead3 hp, withRingByte_holds _ hb]

end Sys2Proof.Machine
end

section
/-! A read step of the task as the event XL runs it, and that it finds its byte where the ring invariant holds
(44_translator.md R192 to R194, 10_state.md R42). -/

namespace Sys2Proof.Machine

/-- What the read step of a phase makes of the byte b. -/
def readOutcome (ph : TPhase) (b : Byte) (s : State) : State :=
  match ph with
  | .readFirst => xlFirst b s
  | .readAfterExt => xlSecond b s
  | _ => emitted s b

theorem step_xlWait {s : State} {rest : List Event} (hst : s.stimulus = .xl :: rest) (hp : InPhase s .waitEvent)
    (hw : 0 < s.wake) : step s = .next (xlWait { s with stimulus := rest }) := by
  rw [step_xl_row (i := .xlWait) hst hp.1 (by rw [hp.2]; rfl), exec_xlWait (s := { s with stimulus := rest }) hp]
  exact congrArg _ (if_pos hw)

/-- The row of a read phase on a buffer that holds b. -/
theorem exec_readRow {s : State} {b : Byte} (hr : s.taskRuns = true) (hp : AtRead s) (hb : RingHolds s b) :
    ∃ i, xlRow s.tPhase = some i ∧
      exec i s = .next (readOutcome s.tPhase b { s with ringRd := (s.ringRd + 1) % s.params.cap }) := by
  rcases hp with hp | hp | hp
  · exact ⟨.xlRead1, by rw [hp]; rfl, by rw [exec_xlRead1 ⟨hr, hp⟩, withRingByte_holds _ hb, hp]; rfl⟩
  · exact ⟨.xlRead2, by rw [hp]; rfl, by rw [exec_xlRead2 ⟨hr, hp⟩, withRingByte_holds _ hb, hp]; rfl⟩
  · exact ⟨.xlRead3, by rw [hp]; rfl, by rw [exec_xlRead3 ⟨hr, hp⟩, withRingByte_holds _ hb, hp]; rfl⟩

theorem step_xl_reads {s : State} {b : Byte} {rest : List Event} (hst : s.stimulus = .xl :: rest)
    (hr : s.taskRuns = true) (hp : AtRead s) (hb : RingHolds s b) :
    step s = .next (readOutcome s.tPhase b
      { s with stimulus := rest, ringRd := (s.ringRd + 1) % s.params.cap }) := by
  obtain ⟨i, hi, he⟩ := exec_readRow (s := { s with stimulus := rest }) hr hp hb
  exact (step_xl_row hst hr hi).trans he

/-- The read cursor moves with the read itself, not with what is made of the byte. -/
theorem readOutcome_ringRd (ph : TPhase) (b : Byte) (s : State) : (readOutcome ph b s).ringRd = s.ringRd := by
  unfold readOutcome
  split
  · rw [xlFirst_eq]; split_ifs <;> rfl
  · rw [xlSecond_eq]; split_ifs <;> rfl
  · rfl

theorem inPass_eq_one_iff {s : State} : inPass s = 1 ↔ AtRead s := by
  unfold inPass AtRead
  cases s.tPhase <;> simp

/-- A pass in progress has a signalling byte to read, so the buffer is not empty and its oldest byte was written. -/
theorem written_of_inPass {s : State} (h : RingBlock s) (hp : inPass s = 1) :
    ∃ b, memRead s.ringMem s.ringRd = some b ∧ RingHolds s b := by
  have hpos : 0 < unreadCount s := by
    have hsig := h.signalled
    have hlen := List.countP_le_length (p := signals) (l := unread s)
    rw [unread_length] at hlen
    omega
  have hw := h.written 0 hpos
  rw [Nat.add_zero, Nat.mod_eq_of_lt h.cursors.2] at hw
  obtain ⟨b, hb⟩ := Option.isSome_iff_exists.1 hw
  exact ⟨b, hb, fun he => hpos.ne' ((unreadCount_zero h.cursors).2 he), h.cursors.2, State.ringByte_listed hb⟩

/-- Settles O42: the pass's own signal stands for an unread byte, which the read step takes. -/
theorem readStepNeverWaits : Obligations.ReadStepNeverWaits := by
  intro s rest hinv hov hr hp hst
  obtain ⟨b, hw, hb⟩ := written_of_inPass (hinv.queue hov) hp
  exact ⟨_, b, hw, step_xl_reads hst hr (inPass_eq_one_iff.1 hp) hb, readOutcome_ringRd ..⟩

end Sys2Proof.Machine
end

section
/-! One pass of the translator's loop over a logical key event (44_translator.md R196, 30_encoding.md R94). -/

namespace Sys2Proof.Machine

/-- A state that differs from s by the bytes l read off holds the rest of the queue. -/
theorem unread_after {s t : State} {l q : List Byte} (hc : CursorsIn s) (h : unread s = l ++ q)
    (hw : t.ringWr = s.ringWr) (hm : t.ringMem = s.ringMem) (hd : t.draws = s.draws) (hp : t.params = s.params)
    (hr : t.ringRd = (s.ringRd + l.length) % s.params.cap) : unread t = q := by
  induction l generalizing s with
  | nil =>
    rw [List.length_nil, Nat.add_zero, Nat.mod_eq_of_lt hc.2] at hr
    rw [← List.nil_append q, ← h]
    simp only [unread, unreadCount, hw, hr, hp, State.ringByte_congr hm hd]
  | cons b l ih =>
    obtain ⟨-, hrest⟩ := unread_cons hc h
    refine ih (s := { s with ringRd := (s.ringRd + 1) % s.params.cap }) ⟨hc.1, Nat.mod_lt _ (by have := hc.1; omega)⟩
      (hrest _ rfl rfl rfl rfl rfl) hw hm hd hp ?_
    rw [hr, unreadAddress_succ, List.length_cons]

/-- In the middle of a pass: n bytes read, the flags as they have set them, the next read step of phase ph. -/
def inMidPass (s : State) (ph : TPhase) (ext brk : Bool) (n : Nat) (es : List Event) : State :=
  { s with tPhase := ph, tExt := ext, tBrk := brk, ringRd := (s.ringRd + n) % s.params.cap, stimulus := es }

/-- The end of a pass of n bytes whose code is c. -/
def passEnd (s : State) (ext brk : Bool) (c : Byte) (n : Nat) (es : List Event) : State :=
  { s with
    tPhase := .waitEvent, tExt := ext, tBrk := brk, ringRd := (s.ringRd + n) % s.params.cap, stimulus := es
    outputs := s.outputs ++ [keyOutput s.params c ext brk] }

/-- The read step of phase ph takes the byte c for the code and not for a prefix. -/
def TakesForCode (ph : TPhase) (c : Byte) : Prop :=
  (ph = .readFirst → c ≠ 0xE0) ∧ (ph ≠ .readAfterBreak → c ≠ 0xF0)

theorem readOutcome_code {ph : TPhase} {c : Byte} (s : State) (h : TakesForCode ph c) :
    readOutcome ph c s = emitted s c := by
  obtain ⟨hext, hbrk⟩ := h
  unfold readOutcome
  split
  · rw [xlFirst_eq, if_neg (hext rfl), if_neg (hbrk nofun)]
  · rw [xlSecond_eq, if_neg (hbrk nofun)]
  · rfl

theorem readOutcome_break {ph : TPhase} (s : State) (h : ph = .readFirst ∨ ph = .readAfterExt) :
    readOutcome ph 0xF0 s = { s with tBrk := true, tPhase := .readAfterBreak } := by
  rcases h with rfl | rfl
  · exact xlFirst_eq 0xF0 s
  · exact xlSecond_eq 0xF0 s

section
variable {s : State} {ph : TPhase} {ext brk : Bool} {l q : List Byte} {es : List Event}

theorem ringHolds_inMidPass {b : Byte} (hc : CursorsIn s) (hu : unread s = l ++ b :: q) :
    RingHolds (inMidPass s ph ext brk l.length es) b :=
  (unread_cons (s := inMidPass s ph ext brk l.length es) ⟨hc.1, Nat.mod_lt _ (by have := hc.1; omega)⟩
    (unread_after hc hu rfl rfl rfl rfl rfl)).1

/-- The next byte of a pass. -/
theorem step_inMidPass {b : Byte} (hr : s.taskRuns = true) (hc : CursorsIn s) (hu : unread s = l ++ b :: q)
    (hp : AtRead (inMidPass s ph ext brk l.length (.xl :: es))) :
    step (inMidPass s ph ext brk l.length (.xl :: es)) =
      .next (readOutcome ph b (inMidPass s ph ext brk (l.length + 1) es)) := by
  rw [step_xl_reads (s := inMidPass s ph ext brk l.length (.xl :: es)) rfl hr hp (ringHolds_inMidPass hc hu)]
  simp only [inMidPass, Nat.mod_add_mod, Nat.add_assoc]

/-- The code ends the pass. -/
theorem step_inMidPass_code {c : Byte} (hr : s.taskRuns = true) (hc : CursorsIn s) (hu : unread s = l ++ c :: q)
    (hp : AtRead (inMidPass s ph ext brk l.length (.xl :: es))) (hcode : TakesForCode ph c) :
    step (inMidPass s ph ext brk l.length (.xl :: es)) = .next (passEnd s ext brk c (l.length + 1) es) := by
  rw [step_inMidPass hr hc hu hp, readOutcome_code _ hcode]
  rfl

/-- From the optional break byte on: `(F0)? code`. -/
theorem runSteps_breakAndCode {c : Byte} (hr : s.taskRuns = true) (hc : CursorsIn s)
    (hu : unread s = l ++ (keyBytes false brk c ++ q)) (hp : ph = .readFirst ∨ ph = .readAfterExt)
    (hcode : brk = false → TakesForCode ph c) :
    runSteps (keyBytes false brk c).length
      (inMidPass s ph ext false l.length (List.replicate (keyBytes false brk c).length .xl ++ es)) =
      .next (passEnd s ext brk c (l.length + (keyBytes false brk c).length) es) := by
  cases brk with
  | false =>
    exact (runSteps_one _).trans (step_inMidPass_code hr hc hu (hp.imp_right .inl) (hcode rfl))
  | true =>
    have hbreak : step (inMidPass s ph ext false l.length (.xl :: .xl :: es)) =
        .next (inMidPass s .readAfterBreak ext true (l ++ [0xF0]).length (.xl :: es)) := by
      rw [step_inMidPass hr hc hu (hp.imp_right .inl), readOutcome_break _ hp, List.length_append]
      rfl
    have hu' : unread s = (l ++ [0xF0]) ++ c :: q := by rw [hu, List.append_assoc]; rfl
    refine (runSteps_next 1 hbreak).trans ((runSteps_one _).trans ?_)
    rw [step_inMidPass_code hr hc hu' (.inr (.inr rfl)) ⟨nofun, fun h => absurd rfl h⟩, List.length_append]
    rfl

end

/-- A whole pass from its first read step: `(E0)? (F0)? code`. -/
theorem runSteps_keyBytes {s : State} {ext brk : Bool} {c : Byte} {q : List Byte} {es : List Event}
    (hr : s.taskRuns = true) (hc : CursorsIn s) (hu : unread s = keyBytes ext brk c ++ q)
    (hbrk : brk = false → c ≠ 0xF0) (hext : ext = false → brk = false → c ≠ 0xE0) :
    runSteps (keyBytes ext brk c).length
      (inMidPass s .readFirst false false 0 (List.replicate (keyBytes ext brk c).length .xl ++ es)) =
      .next (passEnd s ext brk c (keyBytes ext brk c).length es) := by
  cases ext with
  | false =>
    have h := runSteps_breakAndCode (l := []) (ext := false) (es := es) hr hc hu (.inl rfl)
      fun hb => ⟨fun _ => hext rfl hb, fun _ => hbrk hb⟩
    rwa [List.length_nil, Nat.zero_add] at h
  | true =>
    have hfirst : step (inMidPass s .readFirst false false 0
        (.xl :: (List.replicate (keyBytes false brk c).length .xl ++ es))) = .next
        (inMidPass s .readAfterExt true false 1 (List.replicate (keyBytes false brk c).length .xl ++ es)) :=
      (step_inMidPass (l := []) hr hc hu (.inl rfl)).trans (congrArg _ (xlFirst_eq 0xE0 _))
    refine (runSteps_next (keyBytes false brk c).length hfirst).trans ?_
    refine (runSteps_breakAndCode (l := [0xE0]) hr hc hu (.inr rfl) fun hb => ⟨nofun, fun _ => hbrk hb⟩).trans ?_
    rw [Nat.add_comm]
    rfl

/-- Settles O41: one step to consume the signal, then a pass over the event's bytes. -/
theorem keySequenceForms : Obligations.KeySequenceForms := by
  intro s ext brk c q rest hp hw hc hu hbrk hext hst
  have hwait : step s = .next (inMidPass { s with wake := s.wake - 1 } .readFirst false false 0
      (List.replicate (keyBytes ext brk c).length .xl ++ rest)) := by
    rw [step_xlWait hst hp hw, inMidPass, Nat.add_zero, Nat.mod_eq_of_lt hc.2]
    rfl
  refine ⟨passEnd { s with wake := s.wake - 1 } ext brk c (keyBytes ext brk c).length rest, ?_,
    unread_after hc hu rfl rfl rfl rfl rfl, rfl⟩
  rw [runSteps_next _ hwait]
  exact runSteps_keyBytes (s := { s with wake := s.wake - 1 }) hp.1 hc hu hbrk hext

end Sys2Proof.Machine
end

section
/-! The calls of the block's user: `init` and `changeLedState` (45_host_operations.md R210 to R213). -/

namespace Sys2Proof.Machine

/-! ### `init` -/

/-- The transmission of the reset command overwrites the lines and the mode that R210 sets first. -/
theorem execInit_issuesReset {s : State} (h : s.inited = false) : execInit s = .next (transmits
    { s with inited := true, tPhase := .waitEvent, seqOp := .reset, seqStep := false } s.params.cmdReset) :=
  if_neg (by simp [h])

theorem execInit_refused {s : State} (h : s.inited = true) : execInit s = .refused .initAgain := if_pos h

/-- Settles O43: the first call issues the Reset sequence, a later one is refused. -/
theorem initResult : Obligations.InitResult :=
  fun _ => ⟨execInit_issuesReset, execInit_refused⟩

/-! ### `changeLedState` -/

theorem changeLedState_afterFatal {s : State} (m : Byte) (hi : s.inited = true) (hf : s.fatal = true) :
    changeLedState m s = .next s := by
  rw [changeLedState, if_neg (by simp [hi]), if_pos hf]

/-- Settles O44: after `init`, before it and after a fatal failure in turn. -/
theorem changeLedResult : Obligations.ChangeLedResult :=
  fun _ m => ⟨changeLedState_latches m, changeLedState_refused m, changeLedState_afterFatal m⟩

end Sys2Proof.Machine
end

section
/-! What ends the block's traffic (60_exceptions.md R224, R226): of all steps on an event of the spec only a stop slot begins
a fatal failure or a stall, and only by two of its branches. -/

namespace Sys2Proof.Machine

/-! ### The branches of the stop slot -/

theorem idleOpportunity_releasesClk (s : State) : s.idleOpportunity.clkDrv = .z ∧ s.idleOpportunity.fatal = s.fatal := by
  rcases idleOpportunity_cases s with ⟨-, -, h⟩ | ⟨-, h⟩ <;> simp [h]

/-- A response releases CLK and sets no failure, but for the fatal one and for one dropped under `Stall`. -/
theorem seqResponse_releasesClk_or {s v : State} {b : Byte} (h : seqResponse b s = .next v) :
    (v.clkDrv = .z ∧ v.fatal = s.fatal) ∨
    (b = 0xFA ∧ s.seqOp = .reset ∧ s.seqStep = true ∧ v = { raises s (.fatalProtocolFailure 0xFA) with fatal := true }) ∨
    (s.params.dropPolicy = .stall ∧ v = raises s (.droppedResponse s.seqOp s.seqStep b)) := by
  rcases seqResponse_eq_next h with ⟨-, -, -, rfl⟩ | ⟨-, -, -, rfl⟩ | ⟨hop, hstep, rfl, rfl⟩ | ⟨-, -, -, rfl⟩ |
    ⟨-, -, -, rfl⟩ | ⟨-, rfl⟩
  · exact .inl ⟨rfl, rfl⟩
  · exact .inl (idleOpportunity_releasesClk _)
  · exact .inr (.inl ⟨rfl, hop, hstep, rfl⟩)
  · exact .inl ⟨rfl, rfl⟩
  · exact .inl (idleOpportunity_releasesClk _)
  · rcases drop_cases s b with ⟨hp, hd⟩ | ⟨-, hd⟩
    · exact .inr (.inr ⟨hp, hd⟩)
    · exact .inl (by rw [hd]; exact ⟨rfl, rfl⟩)

/-- The stop slot releases CLK and sets no failure, but for the response 0xFA at (`Reset`, 1) and for one dropped under
`Stall`. -/
theorem stopDispatch_releasesClk_or {s v : State} (h : stopDispatch s = .next v) :
    (v.clkDrv = .z ∧ v.fatal = s.fatal) ∨
    (s.rxResend = false ∧ s.rxAcc = 0xFA ∧ s.seqOp = .reset ∧ s.seqStep = true ∧
      v = { raises s (.fatalProtocolFailure 0xFA) with fatal := true }) ∨
    (s.params.dropPolicy = .stall ∧ v = raises s (.droppedResponse s.seqOp s.seqStep s.rxAcc)) := by
  rcases stopDispatch_eq_next h with ⟨-, rfl⟩ | ⟨hres, -, h⟩ | ⟨-, -, h⟩
  · exact .inl ⟨rfl, rfl⟩
  · exact (seqResponse_releasesClk_or h).imp_right (.imp_left fun hfatal => ⟨hres, hfatal⟩)
  · obtain ⟨-, rfl⟩ := dispatchQueue_eq_next h
    exact .inl (idleOpportunity_releasesClk _)

/-- The end of the stop slot touches the receive registers alone. -/
theorem stopEnd_keepsOthers (v : State) : (if v.fatal = true then v else rxCleared v).fatal = v.fatal ∧
    (if v.fatal = true then v else rxCleared v).clkDrv = v.clkDrv ∧
    (if v.fatal = true then v else rxCleared v).outputs = v.outputs := by
  split_ifs <;> exact ⟨rfl, rfl, rfl⟩

/-! ### Every step -/

/-- From s to t neither a fatal failure nor a stall begins. -/
def NoStopBegins (s t : State) : Prop := (t.fatal = true → s.fatal = true) ∧ (Stalled t → Stalled s)

theorem xlEffect_noStopBegins {s t : State} (h : XlEffect s t) : NoStopBegins s t := by
  obtain ⟨⟨-, -, ⟨-, hirq, hclk, -⟩, -, ⟨hfatal, hinit, -⟩, -⟩, -⟩ := xlEffect_keeps h
  exact ⟨fun hf => hfatal ▸ hf, fun ⟨hi, hf, hk, hq⟩ => ⟨hinit ▸ hi, hfatal ▸ hf, hclk ▸ hk, hirq ▸ hq⟩⟩

/-- A step on an event of the spec that begins a fatal failure or a stall is a stop slot. -/
theorem step_noStopBegins_or_stopSlot {s t : State} {e : Event} {rest : List Event} (hst : s.stimulus = e :: rest)
    (he : e.isSpec = true) (h : step s = .next t) (ho : ¬Overran s t) :
    NoStopBegins s t ∨ (∃ d, e = .edge d) ∧ s.mode = .receiving ∧ s.rxCnt = 10 ∧
      ∃ v, stopDispatch { s with stimulus := rest, irqEn := false, clkDrv := .low } = .next v ∧
        t = if v.fatal = true then v else rxCleared v := by
  cases step_spec hst he h with
  | rxStop d he _ hm hc hv => exact .inr ⟨⟨d, he⟩, hm, hc, _, hv, rfl⟩
  | overrun _ _ _ _ _ _ hf => exact absurd (afterOverrun_overran (s := { s with stimulus := rest }) hf) ho
  | reset => exact .inl ⟨nofun, fun ⟨hi, _⟩ => nomatch hi⟩
  | init => exact .inl ⟨id, fun ⟨_, _, hk, _⟩ => nomatch hk⟩
  | xl es _ _ _ hx => exact .inl (xlEffect_noStopBegins (s := { s with stimulus := es }) hx)
  | txDone => rw [txDone_eq]; exact .inl ⟨id, id⟩
  | _ => exact .inl ⟨id, id⟩

/-- Settles O52: only a stop slot begins a fatal failure, and of its branches only one. -/
theorem fatalOnlyAtSelfTest : Obligations.FatalOnlyAtSelfTest := by
  intro s t e rest hst he h ho hs ht
  rcases step_noStopBegins_or_stopSlot hst he h ho with ⟨hkept, -⟩ | ⟨hedge, hm, hc, v, hv, rfl⟩
  · exact absurd (hs.symm.trans (hkept ht)) nofun
  · have hvf : v.fatal = true := (stopEnd_keepsOthers v).1.symm.trans ht
    rcases stopDispatch_releasesClk_or hv with ⟨-, hf⟩ | ⟨hres, hacc, hop, hstep, rfl⟩ | ⟨-, rfl⟩
    · exact absurd (hs.symm.trans (hf.symm.trans hvf)) nofun
    · exact ⟨hedge, hm, hc, hres, hacc, hop, hstep, rfl⟩
    · exact absurd (hs.symm.trans hvf) nofun

/-- Settles O54: only a stop slot begins a stall, and of its branches only one leaves CLK low without a fatal failure. -/
theorem stallOnlyByDrop : Obligations.StallOnlyByDrop := by
  intro s t e rest hst he h ho hs ht
  rcases step_noStopBegins_or_stopSlot hst he h ho with ⟨-, hkept⟩ | ⟨-, -, -, v, hv, rfl⟩
  · exact absurd (hkept ht) hs
  · obtain ⟨-, hf, hk, -⟩ := ht
    obtain ⟨hfatal, hclk, hout⟩ := stopEnd_keepsOthers v
    rcases stopDispatch_releasesClk_or hv with ⟨hz, -⟩ | ⟨-, -, -, -, rfl⟩ | ⟨hp, rfl⟩
    · exact absurd (hz.symm.trans (hclk.symm.trans hk)) nofun
    · exact absurd (hfatal.symm.trans hf) nofun
    · exact ⟨hp, hout⟩

end Sys2Proof.Machine
end

section
/-! Power-on reset (70_reset_and_hazards.md R250): the state it leaves, and what nothing but it undoes. -/

namespace Sys2Proof.Machine

theorem step_reset {s : State} {rest : List Event} (h : s.stimulus = .reset :: rest) :
    step s = .next ({ s with stimulus := rest } : State).powerCycle := step_settle (offer_cons h)

/-- Settles O9: the step is `State.powerCycle`, which draws the status LED by the count of draws so far. -/
theorem resetEventRestoresPowerOn : Obligations.ResetEventRestoresPowerOn := fun s _ hst =>
  ⟨Config.freeStatusLed s.draws, _, step_reset hst, rfl, rfl, rfl, rfl⟩

theorem step_params {s t : State} (h : step s = .next t) : t.params = s.params := by
  rcases step_effect h with ⟨-, rfl⟩ | ⟨rest, -, rfl⟩ | ⟨e, rest, es, -, -, -, hx⟩
  · rfl
  · rfl
  · obtain ⟨hparams, -⟩ := effect_keeps hx
    exact hparams

/-- What a step other than RESET keeps: a recorded overrun, and, itself not overrunning, `inited` and `fatal`. -/
theorem step_keepsRecords {s t : State} (h : step s = .next t) (hreset : ∀ rest, s.stimulus ≠ .reset :: rest) :
    (s.overrun = true → t.overrun = true) ∧
      (¬Overran s t → (s.inited = true → t.inited = true) ∧ (s.fatal = true → t.fatal = true)) := by
  rcases step_effect h with ⟨-, rfl⟩ | ⟨rest, hst, -⟩ | ⟨e, rest, es, -, -, -, hx⟩
  · exact ⟨id, fun _ => ⟨id, id⟩⟩
  · exact absurd hst (hreset rest)
  · obtain ⟨-, hov, hoverran | ⟨-, -, hkeeps⟩⟩ := effect_keeps hx
    · exact ⟨hov, fun hn => absurd hoverran hn⟩
    · exact ⟨hov, fun _ => hkeeps⟩

theorem edgeTaken_of_stalled {s : State} (h : Stalled s) : s.edgeTaken = false := by
  obtain ⟨-, -, -, hirq⟩ := h
  simp [State.edgeTaken, hirq]

/-- A stall stands on registers of the interrupt context alone. -/
theorem stalled_of_sameInterrupt {s t : State} (h : Stalled s) (hk : SameInterrupt s t) : Stalled t := by
  obtain ⟨-, -, ⟨-, hirq, hclk, -⟩, -, ⟨hfatal, hinit, -⟩, -⟩ := hk
  obtain ⟨hi, hf, hlow, hmask⟩ := h
  exact ⟨hinit.trans hi, hfatal.trans hf, hclk.trans hlow, hirq.trans hmask⟩

/-- In a stall no edge is taken, so of what the spec's events can do only RESET reaches the lines. -/
theorem specEffect_keepsStall {s t : State} {e : Event} {rest : List Event} (h : Stalled s) (hreset : e ≠ .reset)
    (hx : SpecEffect s e rest t) : Stalled t := by
  have hedge : ¬s.edgeTaken = true := by simp [edgeTaken_of_stalled h]
  have ⟨hinit, _⟩ := h
  cases hx with
  | lost | led | frame | xlWaits => exact h
  | reset he => exact absurd he hreset
  | init he hi => exact absurd (hinit.symm.trans hi) nofun
  | xl es he hes hr hx =>
    obtain ⟨hk, -⟩ := xlEffect_keeps hx
    exact stalled_of_sameInterrupt (s := { s with stimulus := es }) h hk
  | _ => contradiction -- the slots of a frame or a transmission

theorem step_keepsStall {s t : State} (h : step s = .next t) (hs : Stalled s)
    (hreset : ∀ rest, s.stimulus ≠ .reset :: rest) (hdirect : ∀ w rest, s.stimulus ≠ .direct w :: rest) :
    Stalled t := by
  cases hst : s.stimulus with
  | nil =>
    rw [step_settle (offer_nil hst)] at h
    cases h
    exact hs
  | cons e rest =>
    have he : e.isSpec = true := by
      cases e with
      | direct w => exact absurd hst (hdirect w rest)
      | _ => rfl
    have hne : e ≠ .reset := by
      rintro rfl
      exact hreset rest hst
    exact specEffect_keepsStall hs hne (step_spec hst he h)

/-- Settles O11: the records by the effects of the rows, the stall by those of the spec's events. -/
theorem onlyResetUndoes : Obligations.OnlyResetUndoes := by
  intro s t h
  refine ⟨step_params h, fun hreset => ?_⟩
  obtain ⟨hov, hrecords⟩ := step_keepsRecords h hreset
  exact ⟨hov, hrecords, fun hs => step_keepsStall h hs hreset⟩

end Sys2Proof.Machine
end

section
/-! The bring-up from power-on to idle (42_control_sequencer.md R165, 70_reset_and_hazards.md R253): `init`, the reset
command clocked out and answered by ACK, and self-test-passed. -/

namespace Sys2Proof.Machine

theorem seqResponse_ack_reset {s : State} (hop : s.seqOp = .reset) (hstep : s.seqStep = false) :
    exec (.seqResponse 0xFA) s = .next (released { s with seqStep := true }) := by
  have hrow : seqResponse 0xFA s = exec .seqResetAck s := by
    rw [seqResponse_responseRow, hop, hstep]
    rfl
  exact hrow

/-- The Reset sequence is over: the LED is off and the block idle (R157). -/
def selfTestPassed (s : State) : State :=
  released { s with statusLed := .off, outputs := s.outputs ++ [.statusLed .off], seqOp := .none, seqStep := false }

theorem seqResponse_selfTestPassed {s : State} (hop : s.seqOp = .reset) (hstep : s.seqStep = true)
    (hl : s.ledPending = false) : exec (.seqResponse 0xAA) s = .next (selfTestPassed s) := by
  have hrow : seqResponse 0xAA s = exec .seqResetBat s := by
    rw [seqResponse_responseRow, hop, hstep]
    rfl
  have hidle := idles_releases (s := { s with
    statusLed := .off, outputs := s.outputs ++ [.statusLed .off], seqOp := .none, seqStep := false })
    fun ⟨_, h⟩ => by simp [hl] at h
  exact hrow.trans ((exec_seqResetBat s).trans (congrArg _ hidle))

/-- The Reset sequence is about to clock out the byte `b`, at step 0. -/
def sendsReset (s : State) (b : Byte) : State := transmits { s with seqOp := .reset, seqStep := false } b

/-- The byte `b` of the Reset sequence has been acknowledged: the device's self-test is awaited, at step 1. -/
def awaitsSelfTest (s : State) (b : Byte) : State := transmitted { s with seqOp := .reset, seqStep := true } b

/-- `init` issues the reset command (45_host_operations.md R210). -/
theorem step_init_sendsReset {s : State} {rest : List Event} (h : s.inited = false) (hst : s.stimulus = .init :: rest) :
    step s = .next (sendsReset { s with inited := true, tPhase := .waitEvent, stimulus := rest } s.params.cmdReset) :=
  (step_init hst).trans (execInit_issuesReset h)

/-- The reset command answered by ACK (R156). -/
theorem runSteps_sendsReset {s : State} (b : Byte) {rest : List Event} (hi : s.inited = true) (hf : s.fatal = false)
    (hr : RxClean s) (hst : s.stimulus = .txclk :: Event.rx 0xFA :: rest) :
    runSteps 24 (sendsReset s b) = .next (awaitsSelfTest { s with stimulus := rest } b) := by
  have hrx := rxCleared_received (s := { s with stimulus := rest }) 0xFA hr
  exact (runSteps_exchange (s := { s with seqOp := .reset, seqStep := false }) b hi hf hr rfl hst
    (seqResponse_ack_reset rfl rfl) hf).trans
    (congrArg (fun u => Host.Outcome.next (awaitsSelfTest u b)) hrx)

/-- Self-test-passed at step 1: with no request latched the block is idle (R157). -/
theorem runSteps_selfTestPassed {s : State} {rest : List Event} (h : RxReady s) (hop : s.seqOp = .reset)
    (hstep : s.seqStep = true) (hl : s.ledPending = false) (hst : s.stimulus = Event.rx 0xAA :: rest) :
    runSteps 12 s = .next (selfTestPassed { s with stimulus := rest }) := by
  have ⟨ht, _, hclean⟩ := h
  obtain ⟨-, -, hf, -⟩ := edgeTaken_iff.1 ht
  have hrx := rxCleared_received (s := { s with stimulus := rest }) 0xAA hclean
  have hpassed := seqResponse_selfTestPassed (s := (received { s with stimulus := rest } 0xAA).inhibit) hop hstep hl
  rw [runSteps_frame_response h hst (outOfRange_of_isResponse _ rfl) rfl, hpassed, andThen_next]
  exact congrArg Host.Outcome.next ((if_neg (ne_true_of_eq_false hf)).trans (congrArg selfTestPassed hrx))

/-- From `init` to the ACK of the reset command. -/
theorem runSteps_bringUpCommand {s : State} {rest : List Event} (hi : s.inited = false) (hf : s.fatal = false)
    (hr : RxClean s) (hst : s.stimulus = .init :: .txclk :: Event.rx 0xFA :: rest) :
    runSteps 25 s = .next
      (awaitsSelfTest { s with inited := true, tPhase := .waitEvent, stimulus := rest } s.params.cmdReset) := by
  rw [runSteps_next 24 (step_init_sendsReset hi hst)]
  exact runSteps_sendsReset s.params.cmdReset rfl hf hr rfl

/-- From `init` to idle. -/
theorem runSteps_bringUp {s : State} {rest : List Event} (hi : s.inited = false) (hf : s.fatal = false)
    (hr : RxClean s) (hl : s.ledPending = false)
    (hst : s.stimulus = .init :: .txclk :: Event.rx 0xFA :: Event.rx 0xAA :: rest) :
    runSteps 37 s = .next (selfTestPassed
      (awaitsSelfTest { s with inited := true, tPhase := .waitEvent, stimulus := rest } s.params.cmdReset)) := by
  rw [show 37 = 25 + 12 from rfl, runSteps_add, runSteps_bringUpCommand hi hf hr hst, andThen_next]
  exact runSteps_selfTestPassed (rxReady_transmitted s.params.cmdReset rfl hf hr) rfl rfl hl rfl

/-- Settles O50: after `init`, after the ACK, and at idle. -/
theorem bringUpEndToEnd : Obligations.BringUpEndToEnd := by
  rintro p led rest s rfl
  have hclean : RxClean (State.powerOn p led) := ⟨rfl, rfl, rfl, rfl, rfl⟩
  exact ⟨⟨_, (runSteps_one _).trans (step_init_sendsReset rfl rfl), rfl, rfl⟩,
    ⟨_, runSteps_bringUpCommand rfl rfl hclean rfl, rfl, rfl, rfl⟩,
    runSteps_bringUp rfl rfl hclean rfl rfl⟩

end Sys2Proof.Machine
end
